-- ==== Sys2Proof/Word.lean ====
section
/-! DEFINITION. The value types of 00_scope.md R10 and the one arithmetic helper of R11 that every engine uses. -/

namespace Sys2Proof

/-- `Byte` of R10: an unsigned 8-bit value. -/
abbrev Byte := BitVec 8

/-- A `u32` of R10: the width of every register (R9, REG_W) and of a buffer-memory address (R9, ADDR_W). -/
abbrev Word := BitVec 32

/-- `ceil_div(a, b)` of R11, for `b > 0`. -/
def ceilDiv (a b : Nat) : Nat := (a + b - 1) / b

end Sys2Proof
end

