-- ==== Sys2Proof/Syntax.lean ====
section
/-! DEFINITION. The nine commands (30_encoding.md R112), one constructor each, and the three fields of a command
word (R110). A command has no operand field: its operands are the parameter registers (R111). LIM is the one bit of
the word that a legal command may choose, and only UNPACK may (R113). -/

namespace Sys2Proof

/-- The commands of R112, in the order of their opcodes 0x01 to 0x09. -/
inductive Instr where
  /-- PACK (41_bitpack.md R191). -/
  | pack
  /-- UNPACK (R193); `lim` is CMD.LIM. -/
  | unpack (lim : Bool)
  /-- LZW_ENC (42_lzw.md R217). -/
  | lzwEnc
  /-- LZW_DEC (R226). -/
  | lzwDec
  /-- BLK_QUANT (43_block.md R260). -/
  | blkQuant
  /-- BLK_RECON (R266). -/
  | blkRecon
  /-- ENC_LOSSLESS (44_container.md R292). -/
  | encLossless
  /-- ENC_LOSSY (R293). -/
  | encLossy
  /-- DECODE (R300). -/
  | decode
  deriving DecidableEq, Repr

/-- The fields of a command word (R110): OP is bits 7:0, LIM bit 8, RSVD bits 31:9. -/
structure CmdFields where
  op : BitVec 8
  lim : Bool
  rsvd : BitVec 23
  deriving DecidableEq, Repr

end Sys2Proof
end

