-- ==== Sys2Proof/WellFormed.lean ====
section
/-! DEFINITION. When the fields of a command word are legal (30_encoding.md R113). An `Instr` is well formed when
the fields it is encoded from are (`Instr.wellFormed`, beside the encoder in Decode.lean). -/

namespace Sys2Proof

/-- R113: OP is one of 0x01 to 0x09. -/
def CmdFields.opLegal (f : CmdFields) : Bool := 1 ≤ f.op.toNat && f.op.toNat ≤ 9

/-- R113: RSVD is 0. -/
def CmdFields.rsvdZero (f : CmdFields) : Bool := f.rsvd == 0

/-- R113: LIM is 1 only with OP = 0x02. -/
def CmdFields.limLegal (f : CmdFields) : Bool := !f.lim || f.op == 0x02

/-- R113: the word is one of the nine commands. -/
def CmdFields.wellFormed (f : CmdFields) : Bool := f.opLegal && f.rsvdZero && f.limLegal

end Sys2Proof
end

