-- ==== Sys2Proof/Decode.lean ====
section
/-! DEFINITION. The decoder of command words (30_encoding.md R110 to R113), total on every 32-bit word and rejecting
an illegal one by name, and after it the encoder, written from the same table R112. A command is one word
(R110: "a decoder needs no length logic"). -/

namespace Sys2Proof

/-- Why a word is illegal, one constructor for each clause of R113. -/
inductive DecodeError where
  /-- RSVD ≠ 0. -/
  | reservedBits (rsvd : BitVec 23)
  /-- OP = 0x00 or OP in 0x0A to 0xFF. -/
  | reservedOpcode (op : BitVec 8)
  /-- LIM = 1 with OP ≠ 0x02. -/
  | limWithoutUnpack (op : BitVec 8)
  deriving DecidableEq, Repr

/-- The fields of a word at the bit places of R110. -/
def fieldsOfWord (w : Word) : CmdFields :=
  { op := w.extractLsb' 0 8, lim := w.getLsbD 8, rsvd := w.extractLsb' 9 23 }

/-- The word with the given fields at the bit places of R110. -/
def wordOfFields (f : CmdFields) : Word := f.rsvd ++ BitVec.ofBool f.lim ++ f.op

/-- OP selects one command (R112); `lim` reaches the command only for UNPACK. -/
def instrOfOp (op : BitVec 8) (lim : Bool) : Option Instr :=
  match op.toNat with
  | 0x01 => some .pack
  | 0x02 => some (.unpack lim)
  | 0x03 => some .lzwEnc
  | 0x04 => some .lzwDec
  | 0x05 => some .blkQuant
  | 0x06 => some .blkRecon
  | 0x07 => some .encLossless
  | 0x08 => some .encLossy
  | 0x09 => some .decode
  | _ => none

/-- A command from its fields, or the clause of R113 that makes them illegal. -/
def decodeFields (f : CmdFields) : Except DecodeError Instr :=
  if f.rsvd ≠ 0 then .error (.reservedBits f.rsvd)
  else match instrOfOp f.op f.lim with
    | none => .error (.reservedOpcode f.op)
    | some i => if f.lim = true ∧ f.op ≠ 0x02 then .error (.limWithoutUnpack f.op) else .ok i

/-- The command a command word stands for (R110 to R113). -/
def decodeCommand (w : Word) : Except DecodeError Instr := decodeFields (fieldsOfWord w)

/-- The OP column of R112. -/
def Instr.opcode : Instr → BitVec 8
  | .pack => 0x01
  | .unpack _ => 0x02
  | .lzwEnc => 0x03
  | .lzwDec => 0x04
  | .blkQuant => 0x05
  | .blkRecon => 0x06
  | .encLossless => 0x07
  | .encLossy => 0x08
  | .decode => 0x09

/-- The LIM bit of a command's word (R110). -/
def Instr.limBit : Instr → Bool
  | .unpack lim => lim
  | .pack | .lzwEnc | .lzwDec | .blkQuant | .blkRecon | .encLossless | .encLossy | .decode => false

/-- The fields of a command's word; RSVD must be 0 (R110). -/
def Instr.fields (i : Instr) : CmdFields := { op := i.opcode, lim := i.limBit, rsvd := 0 }

/-- A command is well formed when the fields of its word are legal (R113). -/
def Instr.wellFormed (i : Instr) : Bool := i.fields.wellFormed

/-- The command word of a command (R110, R112). -/
def encode (i : Instr) : Word := wordOfFields i.fields

/-- The command the decoder reads from the low `nbits` bits of `w`, the bits above them 0 (a command word is 32 bits). -/
def decodeTableWord (nbits w : Nat) : Option Instr :=
  match decodeCommand (BitVec.ofNat 32 (w % 2 ^ min nbits 32)) with
  | .ok i => some i
  | .error _ => none

end Sys2Proof
end

