-- ==== Sys2Proof/Machine/Work.lean ====
section
/-! DEFINITION. The types of the engine's working state (10_state.md R52): the LZW dictionary, the encoder's w, the
decoder's previous and the per-block values of the quantizer and reconstructor. -/

namespace Sys2Proof.Machine

/-- An RGB8 value: a pixel (00_scope.md R15), a palette entry (30_encoding.md R119), a low or high triple (R120). -/
structure Rgb where
  r : Byte
  g : Byte
  b : Byte
  deriving DecidableEq, Repr, Inhabited

/-- One unbounded sum for each channel (43_block.md R256). -/
structure Sums where
  r : Nat
  g : Nat
  b : Nat
  deriving DecidableEq, Repr, Inhabited

/-- A dictionary (42_lzw.md R210): entry `c` is the sequence whose code is `c`; `size` is the length. -/
abbrev Dict := List (List Byte)

/-- The per-block values of R52: sums, counts, mask and triples (43_block.md R255, R256). -/
structure BlockWork where
  /-- S = Σ Yq (R255). -/
  lumaSum : Nat
  /-- The mask bits in the order of R253. -/
  mask : List Bool
  /-- Number of pixels with mask 0. -/
  n0 : Nat
  /-- Number of pixels with mask 1. -/
  n1 : Nat
  /-- Σ0 per channel. -/
  sum0 : Sums
  /-- Σ1 per channel. -/
  sum1 : Sums
  /-- ΣA per channel. -/
  sumAll : Sums
  lo : Rgb
  hi : Rgb
  deriving DecidableEq, Repr, Inhabited

/-- The per-block values before a block is taken (R52: initialised at the start of a command; that they are zeros and an
empty mask is DESIGN CHOICE, log 6). -/
def BlockWork.initial : BlockWork :=
  { lumaSum := 0, mask := [], n0 := 0, n1 := 0, sum0 := ⟨0, 0, 0⟩, sum1 := ⟨0, 0, 0⟩, sumAll := ⟨0, 0, 0⟩,
    lo := ⟨0, 0, 0⟩, hi := ⟨0, 0, 0⟩ }

/-- The working state of R52. The start of a command initialises it (`Work.initial`, Ops.lean). -/
structure Work where
  dict : Dict
  /-- The encoder accumulator `w` (42_lzw.md R213). -/
  acc : List Byte
  /-- The decoder's `previous` (R222). -/
  previous : List Byte
  block : BlockWork
  deriving DecidableEq, Repr, Inhabited

end Sys2Proof.Machine
end

