-- ==== Sys2Proof/Config.lean ====
section
/-! DEFINITION. The parameters of 00_scope.md R8 and R9: constants the spec fixes, the platform's open parameters
(BASE and MEM_BACKED), and the free values, opaque constants of which nothing is known. -/

namespace Sys2Proof

/-- R33: the value of ID, "LZW" and register-map version 1. -/
abbrev Config.idValue : Word := 0x4C5A5701

/-- R8, DIM_MAX: the largest width or height. -/
abbrev Config.dimMax : Nat := 65535

/-- R8, DICT_INIT: the initial dictionary size. -/
abbrev Config.dictInit : Nat := 256

/-- R8, DICT_CAP: the cap on dictionary entries. -/
abbrev Config.dictCap : Nat := 4096

/-- R8, PAL_BYTES: the palette's length in bytes. -/
abbrev Config.palBytes : Nat := 768

/-- R8, QBLOCK: the block edge the quantizer uses. -/
abbrev Config.qblock : Nat := 16

/-- R8, MODE_LOSSLESS. -/
abbrev Config.modeLossless : Byte := 0

/-- R8, MODE_LOSSY. -/
abbrev Config.modeLossy : Byte := 4

/-- R8, HDR_LOSSLESS: header and palette of a lossless stream. -/
abbrev Config.hdrLossless : Nat := 773

/-- R8, HDR_LOSSY: header of a lossy stream. -/
abbrev Config.hdrLossy : Nat := 6

/-- The size of the buffer address space (20_memory.md R80). -/
abbrev Config.addrSpace : Nat := 2 ^ 32

/-- FREE VALUE (log 4): the 32-bit value behind draw number `n` of a PROGRESS read or of an error's PROGRESS. -/
opaque Config.freeWord : Nat → Word

/-- FREE VALUE (log 5): the byte of draw number `n` of an unspecified destination byte. -/
opaque Config.freeByte : Nat → Byte

/-- FREE VALUE (log 6): the unspecified working state after the reset at draw number `n` (10_state.md R54). -/
opaque Config.freeWork : Nat → Machine.Work

/-- Part of the buffer address space that is backed by memory: `size` addresses from `base`. -/
structure Region where
  base : Nat
  size : Nat
  deriving DecidableEq, Repr

/-- The platform's open parameters (R9): BASE, and MEM_BACKED as a list of regions, so that every predicate on the
2^32 addresses is some list (log 2). No step changes them. -/
structure Platform where
  /-- BASE: the physical address of the register block (10_state.md R32). -/
  base : Nat
  /-- MEM_BACKED (20_memory.md R81): an address is backed when some region holds it. -/
  backed : List Region
  deriving DecidableEq, Repr

end Sys2Proof
end

