-- ==== Sys2Proof/Machine/State.lean ====
section
/-! DEFINITION. The state of the core, its memory and its surroundings as plain data, the reasons a step can stop,
and the state after reset (10_state.md R54). -/

namespace Sys2Proof.Machine

/-- The buffer memory (20_memory.md R80): the bytes that differ from what an unlisted address reads as, by rising address. -/
abbrev Memory := List Host.Cell

/-- The engine's control state (10_state.md R49); STATUS.BUSY = 1 exactly when it is `busy`. -/
inductive Engine where
  | idle
  | busy
  deriving DecidableEq, Repr

/-- The error kinds of 30_encoding.md R140, in the order of their codes 1 to 10. -/
inductive ErrorKind where
  | truncatedStream
  | unrecognizedMode
  | invalidCode
  | dimensionOverflow
  | sizeMismatch
  | invalidBlockSize
  | trailingData
  | outputOverflow
  | illegalCommand
  | invalidOperand
  deriving DecidableEq, Repr

/-- One access of the host (60_exceptions.md R354, 30_encoding.md R114). -/
inductive HostOp where
  /-- A read of `width` bytes at physical address `addr`; the register port takes aligned 32-bit words only (R32). -/
  | regRead (addr width : Nat)
  /-- A write of `width` bytes at physical address `addr`. -/
  | regWrite (addr width : Nat) (v : Word)
  /-- A read of one byte of the buffer memory. -/
  | memRead (a : Word)
  /-- A write of one byte of the buffer memory. -/
  | memWrite (a : Word) (v : Byte)
  deriving DecidableEq, Repr

/-- Who moves next (60_exceptions.md R342): a host access, the engine (its completion), or the platform, which drives the
reset input to a level (70_reset_and_hazards.md R370; `true` is asserted). -/
inductive Move where
  | host (op : HostOp)
  | engine
  | rst (level : Bool)
  deriving DecidableEq, Repr

/-- The state. INVENTORY.md, under State, names the rule and the reset value of every field. -/
structure State where
  rst : Bool
  irqEn : Bool
  cmd : Word
  eng : Engine
  done : Bool
  err : Option ErrorKind
  mode : Byte
  srcAddr : Word
  srcLen : Word
  dstAddr : Word
  dstCap : Word
  palAddr : Word
  imgW : Word
  imgH : Word
  block : BitVec 8
  limit : Word
  outLen : Word
  outW : Word
  outH : Word
  progress : Word
  codeCount : Word
  dictSize : Word
  work : Work
  mem : Memory
  platform : Platform
  moves : List Move
  busData : Word
  draws : Nat
  deriving DecidableEq, Repr

/-- The faults of the model. -/
inductive Fault where
  /-- A host access to a range the running command owns (20_memory.md R90, 60_exceptions.md R345 a); raised by the
  host's memory accesses. Safe: the spec gives the state no further meaning. -/
  | hostOwnershipViolation
  deriving DecidableEq, Repr

/-- The refusals of the model. -/
inductive Refusal where
  /-- An instruction without a meaning in the model; raised by `exec` alone. Safe. No arm uses it. -/
  | notModelled (mnemonic : String)
  /-- A command one of whose ranges holds an unbacked address (20_memory.md R81, R345 c); raised by every command's
  meaning. Safe: the spec defines no completion. -/
  | unbackedRange
  /-- A host register access that is not an aligned 32-bit word (10_state.md R32, R345 b); raised by the register port.
  Safe: the spec gives it no meaning. -/
  | notAlignedWord
  /-- A register-port access outside the 256 bytes at BASE; raised by the register port. Safe: it does not reach the core. -/
  | outsideRegisterBlock
  /-- A host access to a buffer address with no memory behind it; raised by the host's memory accesses. Safe: it is the
  platform's. -/
  | unbackedHostAccess
  deriving DecidableEq, Repr

/-- R52's working state as the model's reset leaves it (log 6, DESIGN CHOICE: R54 leaves it unspecified). -/
def Work.atReset : Work := { dict := [], acc := [], previous := [], block := BlockWork.initial }

/-- The platform the reset state stands in (log 2, DESIGN CHOICE: R9 leaves both open). -/
def Platform.atReset : Platform := { base := 0, backed := [{ base := 0, size := Config.addrSpace }] }

/-- The machine right after reset: `rst` released, the reset column of R32, Idle, every status field 0 (R54, R370). -/
def State.reset : State :=
  { rst := false, irqEn := false, cmd := 0, eng := .idle, done := false, err := none, mode := 0,
    srcAddr := 0, srcLen := 0, dstAddr := 0, dstCap := 0, palAddr := 0, imgW := 0, imgH := 0, block := 0x10, limit := 0,
    outLen := 0, outW := 0, outH := 0, progress := 0, codeCount := 0, dictSize := 0,
    work := Work.atReset, mem := [], platform := Platform.atReset, moves := [], busData := 0, draws := 0 }

end Sys2Proof.Machine
end

