-- ==== Sys2Proof/Machine/Ops.lean ====
section
/-! DEFINITION. The named operations over memory and registers: byte and range accesses (20_memory.md R82, R83),
big-endian words (00_scope.md R12), draws, and the start (40_common.md R161), the successful completion and the error
completion (R166) of a command. The core has no traps: an error completion stands where another machine takes an
exception (60_exceptions.md R330, R344), and the acknowledgement where it returns (R346). -/

namespace Sys2Proof.Machine

/-- What an address that is not listed reads as: power-on memory (log 3, DESIGN CHOICE; R372 leaves it to the platform). -/
def Memory.unlisted : Byte := 0

/-- M(a) of R82. -/
def Memory.readByte : Memory → Nat → Byte
  | [], _ => Memory.unlisted
  | (k, v) :: m, a => if a = k then v else Memory.readByte m a

/-- `M(a) <- b` of R83, in canonical form. -/
def Memory.writeByte : Memory → Nat → Byte → Memory
  | [], a, b => if b = Memory.unlisted then [] else [(a, b)]
  | (k, v) :: m, a, b =>
    if a < k then (if b = Memory.unlisted then (k, v) :: m else (a, b) :: (k, v) :: m)
    else if a = k then (if b = Memory.unlisted then m else (a, b) :: m)
    else (k, v) :: Memory.writeByte m a b

/-- `MemRead(a, n)` of R82. -/
def Memory.read (m : Memory) (a n : Nat) : List Byte := (List.range n).map fun i => m.readByte (a + i)

/-- `MemWrite(a, len(bs), bs)` of R83. -/
def Memory.write : Memory → Nat → List Byte → Memory
  | m, _, [] => m
  | m, a, b :: bs => Memory.write (m.writeByte a b) (a + 1) bs

/-- Every listed address is at least `lo` and below 2^32, addresses strictly rise, and no entry equals what an
unlisted address reads as. -/
def Memory.wfFrom : Nat → Memory → Bool
  | _, [] => true
  | lo, (k, v) :: m => decide (lo ≤ k) && decide (k < Config.addrSpace) && decide (v ≠ Memory.unlisted) && Memory.wfFrom (k + 1) m

/-- The canonical form of a memory: equal memories are equal lists. -/
def Memory.wf (m : Memory) : Bool := Memory.wfFrom 0 m

/-- `be16(v)` of R12, for v ≤ 65535. -/
def be16 (v : Nat) : List Byte := [BitVec.ofNat 8 (v / 256), BitVec.ofNat 8 (v % 256)]

/-- `rd16(xs, i)` of R12. -/
def rd16 (xs : List Byte) (i : Nat) : Nat := 256 * (xs.getD i 0).toNat + (xs.getD (i + 1) 0).toNat

/-- A draw in [lo, hi] (93_implementation_defined.md I5, I6): draw number `k` is a free value, brought into the bound. -/
def drawBetween (k : Nat) (lo hi : Word) : Word :=
  BitVec.ofNat 32 (lo.toNat + (Config.freeWord k).toNat % (hi.toNat - lo.toNat + 1))

/-- The initial dictionary (42_lzw.md R211): D[c] = [c] for c = 0 to 255. -/
def Dict.init : Dict := (List.range Config.dictInit).map fun c => [BitVec.ofNat 8 c]

/-- The working state as the start of a command initialises it (10_state.md R52): the initial dictionary (R211), an empty w
(R213), and, DESIGN CHOICE (log 6), an empty `previous` and the block values of `BlockWork.initial`. -/
def Work.initial : Work := { dict := Dict.init, acc := [], previous := [], block := BlockWork.initial }

/-- Start (R161): the host's write of `v` to CMD while the engine is Idle. STATUS.MODE is not changed; nothing of the working
state survives from the command before (10_state.md R52). DST keeps its bytes until the completion step, though 20_memory.md
R91 leaves them any value: DESIGN CHOICE (log 5), which no host can observe. -/
def State.start (s : State) (v : Word) : State :=
  { s with cmd := v, eng := .busy, done := false, err := none, outLen := 0, outW := 0, outH := 0, progress := 0,
           codeCount := 0, dictSize := 0, work := Work.initial }

/-- Acknowledgement (10_state.md R37): the host's write of `v` to STATUS; only bit 1 does anything. -/
def State.acknowledge (s : State) (v : Word) : State :=
  { s with done := if v.getLsbD 1 then false else s.done }

/-- What a transform reports beside its output (the `info` of R165); `none` leaves the register as the start left it. -/
structure Info where
  outW : Option Nat := none
  outH : Option Nat := none
  codeCount : Option Nat := none
  dictSize : Option Nat := none
  deriving DecidableEq, Repr

/-- A result register after a success: the value `info` gives, or the old one. -/
def infoReg (v : Option Nat) (old : Word) : Word :=
  match v with
  | some n => BitVec.ofNat 32 n
  | none => old

/-- Successful completion (R165, R166): the result is written to DST and published, and the engine is Idle. -/
def State.succeed (s : State) (out : List Byte) (info : Info) : State :=
  { s with
    mem := s.mem.write s.dstAddr.toNat out
    outLen := BitVec.ofNat 32 out.length
    outW := infoReg info.outW s.outW
    outH := infoReg info.outH s.outH
    codeCount := infoReg info.codeCount s.codeCount
    dictSize := infoReg info.dictSize s.dictSize
    progress := s.srcLen
    err := none
    done := true
    eng := .idle }

/-- Error completion (R166, R330), shared by every error: ERRCODE is the kind, OUT_LEN is given, PROGRESS is any value
in [0, SRC_LEN], DONE is set and the engine is Idle. -/
def State.raise (s : State) (kind : ErrorKind) (outLen : Word) : State :=
  { s with
    err := some kind
    outLen := outLen
    progress := drawBetween s.draws 0 s.srcLen
    draws := s.draws + 1
    done := true
    eng := .idle }

/-- An early error (R160 to R164): no byte of any range is written (R166). -/
def State.raiseEarly (s : State) (kind : ErrorKind) : State := s.raise kind 0

/-- OUT_LEN of a late error (R166): the required length, saturated, for OUTPUT_OVERFLOW; else 0. -/
def lateOutLen (kind : ErrorKind) (required : Nat) : Word :=
  if kind = .outputOverflow then BitVec.ofNat 32 (min required 0xFFFFFFFF) else 0

end Sys2Proof.Machine
end

