-- ==== Sys2Proof/Machine/Operands.lean ====
section
/-! DEFINITION. The operands of a command: its ranges of buffer memory (20_memory.md R84), their checks
(40_common.md R162), what is backed (R81), who owns what during a command (R90), and the unspecified destination
bytes (R166, R371). -/

namespace Sys2Proof.Machine

/-- A range (a, n) of R84: the addresses a to a + n − 1. -/
structure Range where
  addr : Nat
  len : Nat
  deriving DecidableEq, Repr

/-- R84: a range is valid when a + n ≤ 2^32. -/
def Range.valid (r : Range) : Bool := r.addr + r.len ≤ Config.addrSpace

/-- The range covers address `a` (R84). -/
def Range.holds (r : Range) (a : Nat) : Bool := r.addr ≤ a && a < r.addr + r.len

/-- R162: two ranges share an address. -/
def Range.shares (r q : Range) : Bool :=
  decide (0 < r.len) && decide (0 < q.len) && decide (r.addr < q.addr + q.len) && decide (q.addr < r.addr + r.len)

/-- SRC = (SRC_ADDR, SRC_LEN) of R84. -/
def State.src (s : State) : Range := { addr := s.srcAddr.toNat, len := s.srcLen.toNat }

/-- DST = (DST_ADDR, DST_CAP) of R84. -/
def State.dst (s : State) : Range := { addr := s.dstAddr.toNat, len := s.dstCap.toNat }

/-- PAL = (PAL_ADDR, 768) of R84, used by ENC_LOSSLESS only. -/
def State.pal (s : State) : Range := { addr := s.palAddr.toNat, len := Config.palBytes }

/-- The ranges a command reads: SRC, and PAL for ENC_LOSSLESS. -/
def State.inputs (s : State) (usesPal : Bool) : List Range := if usesPal then [s.src, s.pal] else [s.src]

/-- R162: every used range is valid and DST shares no address with SRC or PAL. -/
def State.rangesOk (s : State) (usesPal : Bool) : Bool :=
  s.dst.valid && (s.inputs usesPal).all fun r => r.valid && !s.dst.shares r

/-- R163: IMG_W and IMG_H fit 16 bits. -/
def State.dimsOk (s : State) : Bool := s.imgW.toNat ≤ Config.dimMax && s.imgH.toNat ≤ Config.dimMax

/-- The region holds the address. -/
def regionHolds (r : Region) (a : Nat) : Bool := r.base ≤ a && a < r.base + r.size

/-- MEM_BACKED(a) of R81. -/
def backedAt (regions : List Region) (a : Nat) : Bool := regions.any fun r => regionHolds r a

/-- Some address of [lo, hi) is in no region. -/
def someUnbacked : List Region → Nat → Nat → Bool
  | [], lo, hi => lo < hi
  | r :: rs, lo, hi => someUnbacked rs lo (min hi r.base) || someUnbacked rs (max lo (r.base + r.size)) hi

/-- Every address of the range that lies in the address space is backed (R81). -/
def State.rangeBacked (s : State) (r : Range) : Bool :=
  !someUnbacked s.platform.backed r.addr (min (r.addr + r.len) Config.addrSpace)

/-- Every range the command uses is backed (R81). -/
def State.rangesBacked (s : State) (usesPal : Bool) : Bool :=
  s.rangeBacked s.dst && (s.inputs usesPal).all fun r => s.rangeBacked r

/-- The running command uses PAL: OP is that of ENC_LOSSLESS (R84, R162). -/
def State.cmdUsesPal (s : State) : Bool := s.cmd.extractLsb' 0 8 == 0x07

/-- The engine owns address `a` for reading (R90): a running command's SRC, or PAL. -/
def State.ownsInput (s : State) (a : Nat) : Bool :=
  s.eng == .busy && (s.inputs s.cmdUsesPal).any fun r => r.holds a

/-- The engine owns address `a` for writing (R90): a running command's DST. -/
def State.ownsOutput (s : State) (a : Nat) : Bool := s.eng == .busy && s.dst.holds a

/-- Each byte of DST becomes any value (R166, R371): byte `i` takes draw number `draws + i`. Addresses past the end of
the space do not exist, and an address of a range in `keep` keeps its byte. -/
def State.scrambleDst (s : State) (keep : List Range) : State :=
  { s with
    mem := (List.range s.dst.len).foldl
      (fun m i =>
        if s.dst.addr + i < Config.addrSpace ∧ ¬ keep.any (fun r => r.holds (s.dst.addr + i)) then
          Memory.writeByte m (s.dst.addr + i) (Config.freeByte (s.draws + i))
        else m) s.mem
    draws := s.draws + s.dst.len }

/-- A late error (R166): every byte of DST is any value, and OUT_LEN is the required length for OUTPUT_OVERFLOW. -/
def State.raiseLate (s : State) (kind : ErrorKind) (required : Nat) : State :=
  (s.scrambleDst []).raise kind (lateOutLen kind required)

end Sys2Proof.Machine
end

