-- ==== Sys2Proof/Machine/Flags.lean ====
section
/-! DEFINITION. The flags: ERRCODE numbers (30_encoding.md R140), the STATUS word (10_state.md R36), the interrupt
output (R51). -/

namespace Sys2Proof.Machine

/-- The code column of R140. -/
def ErrorKind.code : ErrorKind → BitVec 4
  | .truncatedStream => 1
  | .unrecognizedMode => 2
  | .invalidCode => 3
  | .dimensionOverflow => 4
  | .sizeMismatch => 5
  | .invalidBlockSize => 6
  | .trailingData => 7
  | .outputOverflow => 8
  | .illegalCommand => 9
  | .invalidOperand => 10

/-- STATUS.ERRCODE (R36): 0 when the last command raised nothing. -/
def State.errCode (s : State) : BitVec 4 :=
  match s.err with
  | none => 0
  | some k => k.code

/-- STATUS.BUSY (R49). -/
def State.busyBit (s : State) : Bool := s.eng == .busy

/-- STATUS.ERR (R36, R50): ERRCODE ≠ 0. -/
def State.errBit (s : State) : Bool := s.errCode != 0

/-- The STATUS word of R36: MODE in 23:16, ERRCODE in 11:8, ERR in 2, DONE in 1, BUSY in 0, reserved bits 0. -/
def State.statusWord (s : State) : Word :=
  0#8 ++ s.mode ++ 0#4 ++ s.errCode ++ 0#5 ++ BitVec.ofBool s.errBit ++ BitVec.ofBool s.done ++ BitVec.ofBool s.busyBit

/-- The CTRL word of R34: IRQ_EN in bit 0, reserved bits 0. -/
def State.ctrlWord (s : State) : Word := 0#31 ++ BitVec.ofBool s.irqEn

/-- The interrupt output (R51, R343): DONE and IRQ_EN. -/
def State.irq (s : State) : Bool := s.done && s.irqEn

end Sys2Proof.Machine
end

