-- ==== Sys2Proof/Machine/Lifecycle.lean ====
section
/-! DEFINITION. What every command's meaning shares (40_common.md): the early checks and their order (R162 to R164,
R167), the transform, the capacity check and the completion (R165, R166). The command-word check (R160) is the
decoder's, before a meaning is reached (Engine.lean). -/

namespace Sys2Proof.Machine

/-- What a command's transform answers: its result, the STATUS.MODE it leaves (DECODE only, 44_container.md R300), and
the working state it leaves (10_state.md R52). -/
structure Transform where
  result : Except ErrorKind (List Byte × Info)
  mode : Option Byte := none
  work : Work

/-- What the shared lifecycle must know of a command: whether it uses PAL (R162), whether it checks the dimensions
(R163), and the source length the image size fixes, if it does (R164). -/
structure Checks where
  usesPal : Bool
  dims : Bool
  srcLen : Option Nat

/-- The first early check that fails, in the order of R167 after the command-word check. -/
def State.earlyError (s : State) (c : Checks) : Option ErrorKind :=
  if !s.rangesOk c.usesPal then some .invalidOperand
  else if c.dims && !s.dimsOk then some .dimensionOverflow
  else if c.srcLen.any (· != s.srcLen.toNat) then some .sizeMismatch
  else none

/-- The source bytes (R165). -/
def State.srcBytes (s : State) : List Byte := s.mem.read s.srcAddr.toNat s.srcLen.toNat

/-- The palette bytes (R165), read by ENC_LOSSLESS only. -/
def State.palBytes (s : State) : List Byte := s.mem.read s.palAddr.toNat Config.palBytes

/-- What a transform leaves beside its result: the working state, and STATUS.MODE for DECODE (R166). -/
def State.note (s : State) (t : Transform) : State := { s with work := t.work, mode := t.mode.getD s.mode }

/-- Capacity and completion (R165, R166) of a transform that ran: its own error wins over OUTPUT_OVERFLOW. -/
def State.finish (s : State) (t : Transform) : State :=
  match t.result with
  | .error k => (s.note t).raiseLate k 0
  | .ok (out, info) =>
    if out.length ≤ s.dstCap.toNat then (s.note t).succeed out info
    else (s.note t).raiseLate .outputOverflow out.length

/-- The engine's completion step of a started legal command (R165 to R167). A command one of whose ranges holds an
unbacked address has no completion (20_memory.md R81; log 9). -/
def State.complete (s : State) (c : Checks) (f : State → Transform) : Host.Outcome State Fault Refusal :=
  if s.rangesBacked c.usesPal then
    match s.earlyError c with
    | some k => .next (s.raiseEarly k)
    | none => .next (s.finish (f s))
  else .refused .unbackedRange

/-- The checks of a command whose source length is free and that reads no dimensions. -/
def Checks.plain : Checks := { usesPal := false, dims := false, srcLen := none }

end Sys2Proof.Machine
end

