-- ==== Sys2Proof/Machine/BitPack.lean ====
section
/-! DEFINITION. The bit-pack/unpack engine (41_bitpack.md): pack and unpack (R190, R192), and the commands PACK and
UNPACK (R191, R193). -/

namespace Sys2Proof.Machine

/-- Byte `j` of pack(b) (R190): bits b[8j] to b[8j+7], the first in bit 7, missing bits 0. -/
def packByte (b : List Bool) (j : Nat) : Byte :=
  BitVec.ofNat 8 ((List.range 8).map fun i => (b.getD (8 * j + i) false).toNat * 2 ^ (7 - i)).sum

/-- `pack` of R190. -/
def pack (b : List Bool) : List Byte := (List.range (ceilDiv b.length 8)).map (packByte b)

/-- The eight bits of a byte, bit 7 first (R192). -/
def byteBits (x : Byte) : List Bool := (List.range 8).map fun i => x.getLsbD (7 - i)

/-- `unpack` of R192. -/
def unpack (s : List Byte) (limit : Option Nat) : List Bool :=
  match limit with
  | none => s.flatMap byteBits
  | some n => (s.flatMap byteBits).take n

/-- A bit as the byte PACK reads and UNPACK writes (30_encoding.md R118). -/
def bitByte (b : Bool) : Byte := if b then 1 else 0

/-- f_PACK of R191. -/
def packTransform (s : State) : Transform :=
  { result :=
      if s.srcBytes.any fun x => 1 < x.toNat then .error .invalidOperand
      else .ok (pack (s.srcBytes.map fun x => x == 1), {})
    work := s.work }

/-- PACK (R191). -/
def execPack (s : State) : Host.Outcome State Fault Refusal := s.complete Checks.plain packTransform

/-- f_UNPACK of R193; LIMIT is read when LIM = 1. -/
def unpackTransform (lim : Bool) (s : State) : Transform :=
  { result := .ok ((unpack s.srcBytes (if lim then some s.limit.toNat else none)).map bitByte, {})
    work := s.work }

/-- UNPACK (R193). -/
def execUnpack (lim : Bool) (s : State) : Host.Outcome State Fault Refusal :=
  s.complete Checks.plain (unpackTransform lim)

end Sys2Proof.Machine
end

