-- ==== Sys2Proof/Machine/Block.lean ====
section
/-! DEFINITION. The block quantizer and reconstructor (43_block.md) and the commands BLK_QUANT and BLK_RECON. -/

namespace Sys2Proof.Machine

/-- Three bytes R, G, B (00_scope.md R15). -/
def Rgb.bytes (p : Rgb) : List Byte := [p.r, p.g, p.b]

/-- The block grid in row-major order (R250), each block as (by, bx). -/
def grid (w h b : Nat) : List (Nat × Nat) :=
  (List.range (ceilDiv h b)).flatMap fun gy => (List.range (ceilDiv w b)).map fun gx => (gy, gx)

/-- The pixels a block covers: columns x0 to x1 − 1 and rows y0 to y1 − 1 (R250). -/
structure Rect where
  x0 : Nat
  x1 : Nat
  y0 : Nat
  y1 : Nat
  deriving DecidableEq, Repr

/-- Block (by, bx) of the grid, clipped at the right and bottom edge (R250). -/
def blockRect (w h b : Nat) (g : Nat × Nat) : Rect :=
  { x0 := g.2 * b, x1 := min ((g.2 + 1) * b) w, y0 := g.1 * b, y1 := min ((g.1 + 1) * b) h }

/-- bw of R251. -/
def Rect.width (r : Rect) : Nat := r.x1 - r.x0

/-- bh of R251. -/
def Rect.height (r : Rect) : Nat := r.y1 - r.y0

/-- The pixel count pc of R251. -/
def Rect.count (r : Rect) : Nat := r.width * r.height

/-- Pixel `t` of the block (R253). -/
def Rect.pixel (r : Rect) (t : Nat) : Nat × Nat := (r.x0 + t % r.width, r.y0 + t / r.width)

/-- The length of the block's record (R251, 30_encoding.md R120). -/
def Rect.recordLen (r : Rect) : Nat := 6 + ceilDiv r.count 8

/-- The offset of pixel (x, y) in an RGB image of width `w` (00_scope.md R15). -/
def pixelOffset (w : Nat) (p : Nat × Nat) : Nat := 3 * (p.2 * w + p.1)

/-- The three bytes at an offset, as a colour. -/
def rgbAt (img : List Byte) (o : Nat) : Rgb := ⟨img.getD o 0, img.getD (o + 1) 0, img.getD (o + 2) 0⟩

/-- The block's pixels in the order of R253. -/
def blockPixels (img : List Byte) (w : Nat) (r : Rect) : List Rgb :=
  (List.range r.count).map fun t => rgbAt img (pixelOffset w (r.pixel t))

/-- Yq of R254. -/
def luma (p : Rgb) : Nat := 2989 * p.r.toNat + 5870 * p.g.toNat + 1140 * p.b.toNat

/-- Per-channel sum of a list of pixels (R256). -/
def sumPixels (px : List Rgb) : Sums :=
  { r := (px.map fun p => p.r.toNat).sum, g := (px.map fun p => p.g.toNat).sum, b := (px.map fun p => p.b.toNat).sum }

/-- The mask of R255: 1 when pc · Yq ≥ S. -/
def blockMask (px : List Rgb) : List Bool :=
  px.map fun p => decide ((px.map luma).sum ≤ px.length * luma p)

/-- The pixels of the block whose mask bit is `b`. -/
def maskedPixels (px : List Rgb) (b : Bool) : List Rgb :=
  px.filter fun p => decide ((px.map luma).sum ≤ px.length * luma p) == b

/-- A channel's mean, rounded down; the mean of the whole block when the group is empty (R256). -/
def groupMean (sum n sumAll pc : Nat) : Byte := BitVec.ofNat 8 (if n > 0 then sum / n else sumAll / pc)

/-- The triple of a group (R256). -/
def groupTriple (sums : Sums) (n : Nat) (all : Sums) (pc : Nat) : Rgb :=
  { r := groupMean sums.r n all.r pc, g := groupMean sums.g n all.g pc, b := groupMean sums.b n all.b pc }

/-- A block's values (R255, R256). -/
def analyseBlock (px : List Rgb) : BlockWork :=
  { lumaSum := (px.map luma).sum
    mask := blockMask px
    n0 := (maskedPixels px false).length
    n1 := (maskedPixels px true).length
    sum0 := sumPixels (maskedPixels px false)
    sum1 := sumPixels (maskedPixels px true)
    sumAll := sumPixels px
    lo := groupTriple (sumPixels (maskedPixels px false)) (maskedPixels px false).length (sumPixels px) px.length
    hi := groupTriple (sumPixels (maskedPixels px true)) (maskedPixels px true).length (sumPixels px) px.length }

/-- The block record (R258, 30_encoding.md R120). -/
def BlockWork.record (b : BlockWork) : List Byte := b.lo.bytes ++ b.hi.bytes ++ pack b.mask

/-- One block of the quantizer: its values from the image. -/
def quantBlock (img : List Byte) (w h : Nat) (g : Nat × Nat) : BlockWork :=
  analyseBlock (blockPixels img w (blockRect w h Config.qblock g))

/-- `quantize` of R259. -/
def quantize (img : List Byte) (w h : Nat) : List Byte :=
  (grid w h Config.qblock).flatMap fun g => (quantBlock img w h g).record

/-- The working state quantize leaves (10_state.md R52): the values of its last block, or, if it had none, the initial ones. -/
def Work.afterQuantize (wk : Work) (img : List Byte) (w h : Nat) : Work :=
  match (grid w h Config.qblock).getLast? with
  | none => { wk with block := BlockWork.initial }
  | some g => { wk with block := quantBlock img w h g }

/-- Write a colour at an offset. -/
def setRgb (img : List Byte) (o : Nat) (c : Rgb) : List Byte := ((img.set o c.r).set (o + 1) c.g).set (o + 2) c.b

/-- The low triple, the high triple and the mask bits of a record (R262). -/
def recordLo (r : List Byte) : Rgb := rgbAt r 0

/-- The high triple of a record (R262). -/
def recordHi (r : List Byte) : Rgb := rgbAt r 3

/-- Exactly `pc` mask bits of a record (R262). -/
def recordMask (r : List Byte) (pc : Nat) : List Bool := unpack (r.drop 6) (some pc)

/-- `decode_record` of R262, into an image of width `w`. -/
def decodeRecord (r : List Byte) (w : Nat) (rect : Rect) (img : List Byte) : List Byte :=
  (List.range rect.count).foldl
    (fun img t =>
      setRgb img (pixelOffset w (rect.pixel t))
        (if (recordMask r rect.count).getD t false then recordHi r else recordLo r)) img

/-- The per-block values a decoded record leaves (10_state.md R52): its mask and triples. -/
def BlockWork.afterRecord (b : BlockWork) (r : List Byte) (pc : Nat) : BlockWork :=
  { b with mask := recordMask r pc, lo := recordLo r, hi := recordHi r }

/-- The reconstructor's image and per-block values. -/
structure Recon where
  img : List Byte
  block : BlockWork
  deriving DecidableEq, Repr

/-- R261's loop over the blocks that remain, `p` being the payload from `pos` on. -/
def Recon.loop (w h b : Nat) : List (Nat × Nat) → List Byte → Recon → Recon × Option ErrorKind
  | [], p, rc => if p.length = 0 then (rc, none) else (rc, some .trailingData)
  | g :: gs, p, rc =>
    if p.length < (blockRect w h b g).recordLen then (rc, some .truncatedStream)
    else
      Recon.loop w h b gs (p.drop (blockRect w h b g).recordLen)
        { img := decodeRecord (p.take (blockRect w h b g).recordLen) w (blockRect w h b g) rc.img
          block := rc.block.afterRecord (p.take (blockRect w h b g).recordLen) (blockRect w h b g).count }

/-- The reconstructor on a payload (R261), its per-block values initialised (10_state.md R52). -/
def Recon.run (p : List Byte) (w h b : Nat) : Recon × Option ErrorKind :=
  if b = 0 then ({ img := [], block := BlockWork.initial }, some .invalidBlockSize)
  else Recon.loop w h b (grid w h b) p { img := List.replicate (3 * w * h) 0, block := BlockWork.initial }

/-- The result of a reconstructor run. -/
def Recon.result (r : Recon × Option ErrorKind) : Except ErrorKind (List Byte) :=
  match r with
  | (_, some k) => .error k
  | (rc, none) => .ok rc.img

/-- `reconstruct` of R261. -/
def reconstruct (p : List Byte) (w h b : Nat) : Except ErrorKind (List Byte) := Recon.result (Recon.run p w h b)

/-- The working state reconstruct leaves (10_state.md R52). -/
def Work.afterReconstruct (wk : Work) (p : List Byte) (w h b : Nat) : Work :=
  { wk with block := (Recon.run p w h b).1.block }

/-- The checks of a command that takes an RGB image of the size in IMG_W and IMG_H (R163, R164). -/
def State.rgbChecks (s : State) : Checks :=
  { usesPal := false, dims := true, srcLen := some (3 * s.imgW.toNat * s.imgH.toNat) }

/-- f_BLK_QUANT of R260. -/
def blkQuantTransform (s : State) : Transform :=
  { result := .ok (quantize s.srcBytes s.imgW.toNat s.imgH.toNat, {})
    work := s.work.afterQuantize s.srcBytes s.imgW.toNat s.imgH.toNat }

/-- BLK_QUANT (R260). -/
def execBlkQuant (s : State) : Host.Outcome State Fault Refusal := s.complete s.rgbChecks blkQuantTransform

/-- f_BLK_RECON of R266. -/
def blkReconTransform (s : State) : Transform :=
  { result :=
      match reconstruct s.srcBytes s.imgW.toNat s.imgH.toNat s.block.toNat with
      | .error k => .error k
      | .ok img => .ok (img, {})
    work := s.work.afterReconstruct s.srcBytes s.imgW.toNat s.imgH.toNat s.block.toNat }

/-- BLK_RECON (R266): the dimensions are checked, the source length is free. -/
def execBlkRecon (s : State) : Host.Outcome State Fault Refusal :=
  s.complete { usesPal := false, dims := true, srcLen := none } blkReconTransform

end Sys2Proof.Machine
end

