-- ==== Sys2Proof/Machine/Lzw.lean ====
section
/-! DEFINITION. The LZW encoder and decoder (42_lzw.md) and the commands LZW_ENC and LZW_DEC. -/

namespace Sys2Proof.Machine

/-- `insert` of R212: nothing once the cap is reached. -/
def Dict.insert (d : Dict) (s : List Byte) : Dict := if d.length < Config.dictCap then d ++ [s] else d

/-- `code_of(D, s)` of R210, for s in D. -/
def Dict.codeOf (d : Dict) (s : List Byte) : Nat := d.idxOf s

/-- The encoder's working state and the codes it has emitted (R213). -/
structure Enc where
  dict : Dict
  acc : List Byte
  codes : List Nat
  deriving DecidableEq, Repr

/-- The encoder before its first byte (R213). -/
def Enc.init : Enc := { dict := Dict.init, acc := [], codes := [] }

/-- One byte of R213's loop: extend w while w ++ [c] is an entry, else emit, insert and start again from [c]. -/
def Enc.step (e : Enc) (c : Byte) : Enc :=
  if e.acc ++ [c] ∈ e.dict then { e with acc := e.acc ++ [c] }
  else { dict := Dict.insert e.dict (e.acc ++ [c]), acc := [c], codes := e.codes ++ [Dict.codeOf e.dict e.acc] }

/-- The encoder after the bytes of `s` (R213), before the flush. -/
def Enc.run (s : List Byte) : Enc := s.foldl Enc.step Enc.init

/-- The codes with the flush of a non-empty w (R213). -/
def Enc.flush (e : Enc) : List Nat := if e.acc = [] then e.codes else e.codes ++ [Dict.codeOf e.dict e.acc]

/-- `lzw_encode` of R213: the codes and the final dictionary size. -/
def lzwEncode (s : List Byte) : List Nat × Nat := ((Enc.run s).flush, (Enc.run s).dict.length)

/-- `codes_to_bytes` of R215. -/
def codesToBytes (codes : List Nat) : List Byte := codes.flatMap be16

/-- `parse_codes` of R220. -/
def parseCodes (s : List Byte) : Except ErrorKind (List Nat) :=
  if s.length = 0 then .error .truncatedStream
  else if s.length % 2 = 1 then .error .truncatedStream
  else .ok ((List.range (s.length / 2)).map fun i => rd16 s (2 * i))

/-- The three answers of `classify` (R221). -/
inductive CodeClass where
  | known
  | selfRef
  | invalid
  deriving DecidableEq, Repr

/-- `classify` of R221; at the cap no code is self-referencing (90_conflicts.md C1). -/
def classify (k size : Nat) : CodeClass :=
  if k < size then .known
  else if k = size ∧ size < Config.dictCap then .selfRef
  else .invalid

/-- The decoder's working state and its output (R222). -/
structure Dec where
  dict : Dict
  previous : List Byte
  out : List Byte
  deriving DecidableEq, Repr

/-- The entry code `k` stands for (R222), or none when the code is invalid. -/
def Dec.entry (d : Dec) (k : Nat) : Option (List Byte) :=
  match classify k d.dict.length with
  | .known => some (d.dict.getD k [])
  | .selfRef => some (d.previous ++ [d.previous.headD 0])
  | .invalid => none

/-- Output `entry`, insert previous ++ [first(entry)], and make it the previous one (R222). -/
def Dec.take (d : Dec) (entry : List Byte) : Dec :=
  { dict := Dict.insert d.dict (d.previous ++ [entry.headD 0]), previous := entry, out := d.out ++ entry }

/-- R222's loop over the codes after the first; it stops at the first invalid code. -/
def Dec.loop : Dec → List Nat → Dec × Option ErrorKind
  | d, [] => (d, none)
  | d, k :: ks =>
    match d.entry k with
    | none => (d, some .invalidCode)
    | some e => Dec.loop (d.take e) ks

/-- The decoder before its first code (R222). DESIGN CHOICE (log 6): `previous` is empty until a first code is accepted, and
stays empty when it is rejected; R222 gives it no value there. -/
def Dec.init : Dec := { dict := Dict.init, previous := [], out := [] }

/-- The decoder on a code list (R222); the first code must be a byte. The empty list, which parse_codes never
answers, gets parse_codes' error (R220). -/
def Dec.run : List Nat → Dec × Option ErrorKind
  | [] => (Dec.init, some .truncatedStream)
  | k :: ks =>
    if k ≥ 256 then (Dec.init, some .invalidCode)
    else Dec.loop { Dec.init with previous := Dict.init.getD k [], out := Dict.init.getD k [] } ks

/-- `lzw_decode` of R222: the bytes and the final dictionary size. -/
def lzwDecode (codes : List Nat) : Except ErrorKind (List Byte × Nat) :=
  match Dec.run codes with
  | (_, some k) => .error k
  | (d, none) => .ok (d.out, d.dict.length)

/-- The working state an encode leaves (10_state.md R52). -/
def Work.afterEncode (w : Work) (s : List Byte) : Work :=
  { w with dict := (Enc.run s).dict, acc := (Enc.run s).acc }

/-- The working state a decode of a code list leaves (R52). -/
def Work.afterDecode (w : Work) (codes : List Nat) : Work :=
  { w with dict := (Dec.run codes).1.dict, previous := (Dec.run codes).1.previous }

/-- The working state a decode of a code stream leaves; for a stream that does not parse, the decoder's as initialised. -/
def Work.afterParse (w : Work) (s : List Byte) : Work :=
  match parseCodes s with
  | .error _ => w.afterDecode []
  | .ok codes => w.afterDecode codes

/-- f_LZW_ENC of R217. -/
def lzwEncTransform (s : State) : Transform :=
  { result := .ok (codesToBytes (lzwEncode s.srcBytes).1,
      { codeCount := some (lzwEncode s.srcBytes).1.length, dictSize := some (lzwEncode s.srcBytes).2 })
    work := s.work.afterEncode s.srcBytes }

/-- LZW_ENC (R217). -/
def execLzwEnc (s : State) : Host.Outcome State Fault Refusal := s.complete Checks.plain lzwEncTransform

/-- Parse, then decode (R226), with the number of codes read. -/
def decodeCodeStream (s : List Byte) : Except ErrorKind (List Byte × Nat × Nat) :=
  match parseCodes s with
  | .error k => .error k
  | .ok codes =>
    match lzwDecode codes with
    | .error k => .error k
    | .ok (out, size) => .ok (out, codes.length, size)

/-- f_LZW_DEC of R226. -/
def lzwDecTransform (s : State) : Transform :=
  { result :=
      match decodeCodeStream s.srcBytes with
      | .error k => .error k
      | .ok (out, n, size) => .ok (out, { codeCount := some n, dictSize := some size })
    work := s.work.afterParse s.srcBytes }

/-- LZW_DEC (R226). -/
def execLzwDec (s : State) : Host.Outcome State Fault Refusal := s.complete Checks.plain lzwDecTransform

end Sys2Proof.Machine
end

