-- ==== Sys2Proof/Machine/Container.lean ====
section
/-! DEFINITION. The container frame serializer and parser (44_container.md) and the commands ENC_LOSSLESS, ENC_LOSSY
and DECODE. -/

namespace Sys2Proof.Machine

/-- `frame_lossless` of R290. -/
def frameLossless (w h : Nat) (pal : List Byte) (codes : List Nat) : List Byte :=
  [Config.modeLossless] ++ be16 w ++ be16 h ++ pal ++ codesToBytes codes

/-- `frame_lossy` of R291; the block_size byte is always 16. -/
def frameLossy (w h : Nat) (payload : List Byte) : List Byte :=
  [Config.modeLossy] ++ be16 w ++ be16 h ++ [BitVec.ofNat 8 Config.qblock] ++ payload

/-- The checks of ENC_LOSSLESS: PAL is used, and SRC_LEN must be W · H (R162 to R164). -/
def State.indexChecks (s : State) : Checks :=
  { usesPal := true, dims := true, srcLen := some (s.imgW.toNat * s.imgH.toNat) }

/-- f_ENC_LOSSLESS of R292. -/
def encLosslessTransform (s : State) : Transform :=
  { result := .ok (frameLossless s.imgW.toNat s.imgH.toNat s.palBytes (lzwEncode s.srcBytes).1,
      { codeCount := some (lzwEncode s.srcBytes).1.length, dictSize := some (lzwEncode s.srcBytes).2 })
    work := s.work.afterEncode s.srcBytes }

/-- ENC_LOSSLESS (R292). -/
def execEncLossless (s : State) : Host.Outcome State Fault Refusal := s.complete s.indexChecks encLosslessTransform

/-- f_ENC_LOSSY of R293. -/
def encLossyTransform (s : State) : Transform :=
  { result := .ok (frameLossy s.imgW.toNat s.imgH.toNat (quantize s.srcBytes s.imgW.toNat s.imgH.toNat), {})
    work := s.work.afterQuantize s.srcBytes s.imgW.toNat s.imgH.toNat }

/-- ENC_LOSSY (R293). -/
def execEncLossy (s : State) : Host.Outcome State Fault Refusal := s.complete s.rgbChecks encLossyTransform

/-- `recolor` of R296. -/
def recolor (idx pal : List Byte) : List Byte := idx.flatMap fun i => (rgbAt pal (3 * i.toNat)).bytes

/-- The palette of a lossless stream: bytes 5 to 772 (30_encoding.md R121). -/
def streamPalette (s : List Byte) : List Byte := (s.drop 5).take Config.palBytes

/-- `decode_lossless` of R295. -/
def decodeLossless (s : List Byte) : Except ErrorKind (List Byte × Info) :=
  if s.length < Config.hdrLossless then .error .truncatedStream
  else match decodeCodeStream (s.drop Config.hdrLossless) with
    | .error k => .error k
    | .ok (idx, n, size) =>
      if idx.length ≠ rd16 s 1 * rd16 s 3 then .error .sizeMismatch
      else .ok (recolor idx (streamPalette s),
        { outW := some (rd16 s 1), outH := some (rd16 s 3), codeCount := some n, dictSize := some size })

/-- `decode_lossy` of R297. -/
def decodeLossy (s : List Byte) : Except ErrorKind (List Byte × Info) :=
  if s.length < Config.hdrLossy then .error .truncatedStream
  else match reconstruct (s.drop Config.hdrLossy) (rd16 s 1) (rd16 s 3) (s.getD 5 0).toNat with
    | .error k => .error k
    | .ok rgb => .ok (rgb, { outW := some (rd16 s 1), outH := some (rd16 s 3) })

/-- `decode_stream` of R294. -/
def decodeStream (s : List Byte) : Except ErrorKind (List Byte × Info) :=
  match s.head? with
  | none => .error .truncatedStream
  | some m =>
    if m = Config.modeLossless then decodeLossless s
    else if m = Config.modeLossy then decodeLossy s
    else .error .unrecognizedMode

/-- The working state DECODE leaves (10_state.md R52): that of the codec the mode selects, if its header is complete. -/
def Work.afterStream (wk : Work) (s : List Byte) : Work :=
  match s.head? with
  | none => wk
  | some m =>
    if m = Config.modeLossless then
      (if s.length < Config.hdrLossless then wk else wk.afterParse (s.drop Config.hdrLossless))
    else if m = Config.modeLossy then
      (if s.length < Config.hdrLossy then wk
       else wk.afterReconstruct (s.drop Config.hdrLossy) (rd16 s 1) (rd16 s 3) (s.getD 5 0).toNat)
    else wk

/-- f_DECODE of R300: STATUS.MODE becomes the first source byte, or 0 when there is none, on success and on error. -/
def decodeTransform (s : State) : Transform :=
  { result := decodeStream s.srcBytes
    mode := some (s.srcBytes.headD 0)
    work := s.work.afterStream s.srcBytes }

/-- DECODE (R300). -/
def execDecode (s : State) : Host.Outcome State Fault Refusal := s.complete Checks.plain decodeTransform

end Sys2Proof.Machine
end

