-- ==== Sys2Proof/Machine/Dispatch.lean ====
section
/-! DEFINITION. `exec`: one arm per command, each one call of its meaning. -/

namespace Sys2Proof.Machine

def exec (i : Instr) (s : State) : Host.Outcome State Fault Refusal :=
  match i with
  | .pack => Sys2Proof.Machine.execPack s
  | .unpack lim => Sys2Proof.Machine.execUnpack lim s
  | .lzwEnc => Sys2Proof.Machine.execLzwEnc s
  | .lzwDec => Sys2Proof.Machine.execLzwDec s
  | .blkQuant => Sys2Proof.Machine.execBlkQuant s
  | .blkRecon => Sys2Proof.Machine.execBlkRecon s
  | .encLossless => Sys2Proof.Machine.execEncLossless s
  | .encLossy => Sys2Proof.Machine.execEncLossy s
  | .decode => Sys2Proof.Machine.execDecode s

end Sys2Proof.Machine
end

