-- ==== Sys2Proof/Machine/HostPort.lean ====
section
/-! DEFINITION. The host's side: the register map and every register's read and write (10_state.md R32 to R48), the
host's memory accesses under the ownership rule (20_memory.md R90, R93), and the reset input (70_reset_and_hazards.md
R370, R371). -/

namespace Sys2Proof.Machine

/-- The registers of R32's map. -/
inductive Reg where
  | id | ctrl | cmd | status | srcAddr | srcLen | dstAddr | dstCap | palAddr | imgW | imgH | block | limit
  | outLen | outW | outH | progress | codeCount | dictSize
  deriving DecidableEq, Repr

/-- The offset column of R32; `none` is a reserved offset (R47). -/
def regAt (offset : Nat) : Option Reg :=
  match offset with
  | 0x00 => some .id
  | 0x04 => some .ctrl
  | 0x08 => some .cmd
  | 0x0C => some .status
  | 0x10 => some .srcAddr
  | 0x14 => some .srcLen
  | 0x18 => some .dstAddr
  | 0x1C => some .dstCap
  | 0x20 => some .palAddr
  | 0x24 => some .imgW
  | 0x28 => some .imgH
  | 0x2C => some .block
  | 0x30 => some .limit
  | 0x34 => some .outLen
  | 0x38 => some .outW
  | 0x3C => some .outH
  | 0x40 => some .progress
  | 0x44 => some .codeCount
  | 0x48 => some .dictSize
  | _ => none

/-- The value a register holds for a reader (R33 to R46). -/
def State.regValue (s : State) : Reg → Word
  | .id => Config.idValue
  | .ctrl => s.ctrlWord
  | .cmd => s.cmd
  | .status => s.statusWord
  | .srcAddr => s.srcAddr
  | .srcLen => s.srcLen
  | .dstAddr => s.dstAddr
  | .dstCap => s.dstCap
  | .palAddr => s.palAddr
  | .imgW => s.imgW
  | .imgH => s.imgH
  | .block => s.block.setWidth 32
  | .limit => s.limit
  | .outLen => s.outLen
  | .outW => s.outW
  | .outH => s.outH
  | .progress => s.progress
  | .codeCount => s.codeCount
  | .dictSize => s.dictSize

/-- While Busy, PROGRESS takes a drawn value before it is read: at least the one last read, at most SRC_LEN (R45). -/
def State.drawProgress (s : State) : State :=
  match s.eng with
  | .idle => s
  | .busy => { s with progress := drawBetween s.draws s.progress s.srcLen, draws := s.draws + 1 }

/-- A register read: the value goes to the host; a reserved offset reads 0 (R47). -/
def State.readReg (s : State) : Option Reg → State
  | none => { s with busData := 0 }
  | some .progress => { s.drawProgress with busData := s.drawProgress.progress }
  | some r => { s with busData := s.regValue r }

/-- A parameter-register or CMD write, which counts only while Idle (R48). -/
def State.whenIdle (s : State) (t : State) : State :=
  match s.eng with
  | .idle => t
  | .busy => s

/-- A register write (R33 to R48): RO registers and reserved offsets ignore it. -/
def State.writeReg (s : State) (v : Word) : Option Reg → State
  | none => s
  | some .id => s
  | some .ctrl => { s with irqEn := v.getLsbD 0 }
  | some .cmd => s.whenIdle (s.start v)
  | some .status => s.acknowledge v
  | some .srcAddr => s.whenIdle { s with srcAddr := v }
  | some .srcLen => s.whenIdle { s with srcLen := v }
  | some .dstAddr => s.whenIdle { s with dstAddr := v }
  | some .dstCap => s.whenIdle { s with dstCap := v }
  | some .palAddr => s.whenIdle { s with palAddr := v }
  | some .imgW => s.whenIdle { s with imgW := v }
  | some .imgH => s.whenIdle { s with imgH := v }
  | some .block => s.whenIdle { s with block := v.setWidth 8 }
  | some .limit => s.whenIdle { s with limit := v }
  | some .outLen => s
  | some .outW => s
  | some .outH => s
  | some .progress => s
  | some .codeCount => s
  | some .dictSize => s

/-- A write at the register port: while `rst` is asserted every register keeps its reset value, whatever the host writes
(70_reset_and_hazards.md R370). -/
def State.portWrite (s : State) (v : Word) (r : Option Reg) : State := if s.rst then s else s.writeReg v r

/-- An access at physical address `addr` of `width` bytes reaches the register at its offset from BASE only as an
aligned 32-bit word (R32, 60_exceptions.md R345 b). -/
def State.atRegister (s : State) (addr width : Nat) (k : Option Reg → State) : Host.Outcome State Fault Refusal :=
  if addr < s.platform.base ∨ s.platform.base + 256 ≤ addr then .refused .outsideRegisterBlock
  else if width ≠ 4 ∨ (addr - s.platform.base) % 4 ≠ 0 then .refused .notAlignedWord
  else .next (k (regAt (addr - s.platform.base)))

/-- A host read of a buffer byte: a running command's DST may not be read (20_memory.md R90). -/
def State.hostMemRead (s : State) (a : Nat) : Host.Outcome State Fault Refusal :=
  if s.ownsOutput a then .fault .hostOwnershipViolation
  else if backedAt s.platform.backed a then .next { s with busData := (s.mem.readByte a).setWidth 32 }
  else .refused .unbackedHostAccess

/-- A host write of a buffer byte: a running command's SRC, PAL and DST may not be written (20_memory.md R90). -/
def State.hostMemWrite (s : State) (a : Nat) (v : Byte) : Host.Outcome State Fault Refusal :=
  if s.ownsInput a || s.ownsOutput a then .fault .hostOwnershipViolation
  else if backedAt s.platform.backed a then .next { s with mem := s.mem.writeByte a v }
  else .refused .unbackedHostAccess

/-- One host access (60_exceptions.md R354). -/
def hostStep (op : HostOp) (s : State) : Host.Outcome State Fault Refusal :=
  match op with
  | .regRead addr width => s.atRegister addr width s.readReg
  | .regWrite addr width v => s.atRegister addr width (s.portWrite v)
  | .memRead a => s.hostMemRead a.toNat
  | .memWrite a v => s.hostMemWrite a.toNat v

/-- Every register at its reset value, with `rst` at the given level (R370, 10_state.md R54). The buffer memory, the
platform and what is the host's are not the core's; the working state is unspecified (log 6). -/
def State.resetRegisters (s : State) (level : Bool) : State :=
  { State.reset with
    rst := level
    mem := s.mem, platform := s.platform, moves := s.moves, busData := s.busData
    work := Config.freeWork s.draws, draws := s.draws + 1 }

/-- `rst` is asserted (R370); while Busy the command is abandoned: every byte of its DST is any value and its SRC and PAL
are unchanged (R371), also where the command's unchecked ranges share addresses. -/
def State.assertRst (s : State) : State :=
  match s.eng with
  | .idle => s.resetRegisters true
  | .busy => (s.scrambleDst (s.inputs s.cmdUsesPal)).resetRegisters true

/-- `rst` is released: every register takes its reset value (R370). Releasing an input that is not asserted does nothing. -/
def State.releaseRst (s : State) : State := if s.rst then s.resetRegisters false else s

/-- The platform drives `rst` to a level (R370); it may do so at any time. -/
def State.driveRst (s : State) (level : Bool) : State := if level then s.assertRst else s.releaseRst

end Sys2Proof.Machine
end

