-- ==== Sys2Proof/Machine/Engine.lean ====
section
/-! DEFINITION. The engine's move (40_common.md R160, R166): the completion of a running command, whose word is in CMD. -/

namespace Sys2Proof.Machine

/-- An Idle engine does nothing (60_exceptions.md R353). A Busy one completes the command in CMD; an illegal word
raises ILLEGAL_COMMAND as the first early check (R160). -/
def engineTurn (s : State) : Host.Outcome State Fault Refusal :=
  match s.eng with
  | .idle => .next s
  | .busy =>
    match decodeCommand s.cmd with
    | .ok i => exec i s
    | .error _ => .next (s.raiseEarly .illegalCommand)

/-- One move (R342): a host access, the engine's turn, or a level of the reset input. -/
def moveStep (m : Move) (s : State) : Host.Outcome State Fault Refusal :=
  match m with
  | .host op => hostStep op s
  | .engine => engineTurn s
  | .rst level => .next (s.driveRst level)

/-- The word of a table row, its bits above `nbits` 0, started as the command in CMD, with `rst` released. -/
def State.startTableWord (s : State) (nbits w : Nat) : State :=
  { s.start (BitVec.ofNat 32 (w % 2 ^ min nbits 32)) with rst := false }

end Sys2Proof.Machine
end

