-- ==== Sys2Proof/Machine/Step.lean ====
section
/-! DEFINITION. One step of the machine: the first of the moves still to come (60_exceptions.md R342); when none is
left, the engine's, so that a started command completes (40_common.md R168). -/

namespace Sys2Proof.Machine

/-- One step. -/
def step (s : State) : Host.Outcome State Fault Refusal :=
  match s.moves with
  | [] => engineTurn s
  | m :: ms => moveStep m { s with moves := ms }

/-- The core fetches nothing (10_state.md R31): a command comes from the host's CMD write. So the word is started, as
that write starts it (40_common.md R161), and the engine moves next (log 10). -/
def State.withFetchWord (s : State) (nbits w : Nat) : State :=
  { s.startTableWord nbits w with moves := .engine :: s.moves }

end Sys2Proof.Machine
end

