-- ==== Sys2Proof/Safety.lean ====
section
/-! DEFINITION. The terms the claims use: what each command checks and computes, one host access or engine turn as
one step, an illegal word in the words of 30_encoding.md R113, and the invariant of the machine. -/

namespace Sys2Proof

open Sys2Proof.Machine

/-- ENC_LOSSLESS alone uses PAL (20_memory.md R84). -/
def Instr.usesPal : Instr → Bool
  | .encLossless => true
  | .pack | .unpack _ | .lzwEnc | .lzwDec | .blkQuant | .blkRecon | .encLossy | .decode => false

/-- The commands that check IMG_W and IMG_H (40_common.md R163). -/
def Instr.checksDims : Instr → Bool
  | .blkQuant | .blkRecon | .encLossless | .encLossy => true
  | .pack | .unpack _ | .lzwEnc | .lzwDec | .decode => false

/-- The source length the image size fixes (R164). -/
def Instr.requiredLen (i : Instr) (s : State) : Option Nat :=
  match i with
  | .blkQuant | .encLossy => some (3 * s.imgW.toNat * s.imgH.toNat)
  | .encLossless => some (s.imgW.toNat * s.imgH.toNat)
  | .pack | .unpack _ | .lzwEnc | .lzwDec | .blkRecon | .decode => none

/-- What the shared lifecycle checks for a command. -/
def Instr.checks (i : Instr) (s : State) : Checks :=
  { usesPal := i.usesPal, dims := i.checksDims, srcLen := i.requiredLen s }

/-- f_OP of R165. -/
def Instr.transform (i : Instr) (s : State) : Transform :=
  match i with
  | .pack => packTransform s
  | .unpack lim => unpackTransform lim s
  | .lzwEnc => lzwEncTransform s
  | .lzwDec => lzwDecTransform s
  | .blkQuant => blkQuantTransform s
  | .blkRecon => blkReconTransform s
  | .encLossless => encLosslessTransform s
  | .encLossy => encLossyTransform s
  | .decode => decodeTransform s

/-- The ranges a command uses (20_memory.md R84): DST, SRC, and PAL for ENC_LOSSLESS. -/
def Instr.ranges (i : Instr) (s : State) : List Range := s.dst :: s.inputs i.usesPal

/-- Address `a` of the buffer memory is one of the command's ranges' and is unbacked (20_memory.md R81). -/
def Instr.touchesUnbacked (i : Instr) (s : State) (a : Nat) : Prop :=
  a < Config.addrSpace ∧ (∃ r ∈ i.ranges s, r.holds a = true) ∧ backedAt s.platform.backed a = false

/-- A command word is illegal, in the words of R113: OP = word mod 256, LIM = bit 8, RSVD = word div 512. -/
def illegalWord (w : Word) : Prop :=
  w.toNat % 256 = 0 ∨ 10 ≤ w.toNat % 256 ∨ w.toNat / 512 ≠ 0 ∨ (w.toNat / 256 % 2 = 1 ∧ w.toNat % 256 ≠ 2)

namespace Machine

/-- One step in which the host writes `v` to the register at `offset`. -/
def hostWrite (s : State) (offset : Nat) (v : Word) : Host.Outcome State Fault Refusal :=
  step { s with moves := .host (.regWrite (s.platform.base + offset) 4 v) :: s.moves }

/-- One step in which the host reads the register at `offset`. -/
def hostRead (s : State) (offset : Nat) : Host.Outcome State Fault Refusal :=
  step { s with moves := .host (.regRead (s.platform.base + offset) 4) :: s.moves }

/-- One step in which the host writes a byte of the buffer memory. -/
def hostStore (s : State) (a : Word) (v : Byte) : Host.Outcome State Fault Refusal :=
  step { s with moves := .host (.memWrite a v) :: s.moves }

/-- One step in which the host reads a byte of the buffer memory. -/
def hostLoad (s : State) (a : Word) : Host.Outcome State Fault Refusal :=
  step { s with moves := .host (.memRead a) :: s.moves }

/-- One step in which the engine moves. -/
def engineStep (s : State) : Host.Outcome State Fault Refusal := step { s with moves := .engine :: s.moves }

/-- One step in which the platform drives `rst` to a level. -/
def rstStep (s : State) (level : Bool) : Host.Outcome State Fault Refusal := step { s with moves := .rst level :: s.moves }

/-- The offsets of the parameter registers (10_state.md R48). -/
def paramOffsets : List Nat := [0x10, 0x14, 0x18, 0x1C, 0x20, 0x24, 0x28, 0x2C, 0x30]

/-- The parameter registers of two states agree (R48's list). -/
def State.sameParams (s t : State) : Prop :=
  t.srcAddr = s.srcAddr ∧ t.srcLen = s.srcLen ∧ t.dstAddr = s.dstAddr ∧ t.dstCap = s.dstCap ∧ t.palAddr = s.palAddr ∧
  t.imgW = s.imgW ∧ t.imgH = s.imgH ∧ t.block = s.block ∧ t.limit = s.limit

/-- The result registers are as a start leaves them (40_common.md R161). -/
abbrev State.resultsClear (s : State) : Prop :=
  s.outLen = 0 ∧ s.outW = 0 ∧ s.outH = 0 ∧ s.codeCount = 0 ∧ s.dictSize = 0

/-- A started command may run: its ranges are backed and no early check fails (R162 to R164, 20_memory.md R81). -/
def State.ready (s : State) (i : Instr) : Prop :=
  s.rangesBacked i.usesPal = true ∧ s.earlyError (i.checks s) = none

/-- Every register holds its reset value and the engine is Idle (10_state.md R54). -/
abbrev State.registersAtReset (s : State) : Prop :=
  s.irqEn = false ∧ s.cmd = 0 ∧ s.eng = .idle ∧ s.done = false ∧ s.err = none ∧ s.mode = 0 ∧
  s.srcAddr = 0 ∧ s.srcLen = 0 ∧ s.dstAddr = 0 ∧ s.dstCap = 0 ∧ s.palAddr = 0 ∧ s.imgW = 0 ∧ s.imgH = 0 ∧
  s.block = 0x10 ∧ s.limit = 0 ∧ s.outLen = 0 ∧ s.outW = 0 ∧ s.outH = 0 ∧ s.progress = 0 ∧ s.codeCount = 0 ∧ s.dictSize = 0

/-- What holds of every state a run reaches. -/
structure State.Inv (s : State) : Prop where
  /-- Memory keeps its canonical form (log 3). -/
  memWf : s.mem.wf = true
  /-- While `rst` is asserted every register holds its reset value (70_reset_and_hazards.md R370). -/
  rstHolds : s.rst = true → s.registersAtReset
  /-- While Busy, DONE, ERRCODE and the result registers are as the start left them (10_state.md R36, 40_common.md R161). -/
  busyClean : s.eng = .busy → s.done = false ∧ s.err = none ∧ s.outLen = 0 ∧ s.outW = 0 ∧ s.outH = 0 ∧
    s.codeCount = 0 ∧ s.dictSize = 0
  /-- While Busy the working state is as the start initialised it: nothing of a command before survives (10_state.md R52). -/
  workInit : s.eng = .busy → s.work = Work.initial
  /-- While Busy, PROGRESS is at most SRC_LEN (10_state.md R45). -/
  progressBound : s.eng = .busy → s.progress.toNat ≤ s.srcLen.toNat
  /-- After an error the result registers are 0, but for OUT_LEN after OUTPUT_OVERFLOW (R44, R46). -/
  errorClean : s.err ≠ none → s.outW = 0 ∧ s.outH = 0 ∧ s.codeCount = 0 ∧ s.dictSize = 0 ∧
    (s.err ≠ some .outputOverflow → s.outLen = 0)
  /-- DICT_SIZE, when set, is the size CODE_COUNT codes leave, and so lies in [256, 4096] (R46, 42_lzw.md R214 c, R223). -/
  dictSync : s.dictSize = 0 ∨ s.dictSize.toNat = min Config.dictCap (Config.dictInit + (s.codeCount.toNat - 1))
  /-- The decoded dimensions are 16-bit values (R44, 30_encoding.md R121, R122). -/
  outDims : s.outW.toNat ≤ Config.dimMax ∧ s.outH.toNat ≤ Config.dimMax

end Machine

end Sys2Proof
end

