-- ==== Sys2Proof/Certificates/Slice0/Obligations.lean ====
section
/-! DEFINITION. The statements for the provers, in the order of spec/: encoding, registers, lifecycle, invariant,
bit packing, LZW, blocks, containers. `hostWrite s o v`, `hostRead s o`, `hostStore`, `hostLoad`, `engineStep` and
`rstStep s level` (Safety.lean) are one `step` whose move is that one. A premise `s.rst = false` says that the reset input
is not asserted; what a register write does while it is, ResetPutsRegistersAtTheirResetValues says. Where a statement gives
the working state a command leaves (`work`), it rests on log 6. Where one says that a host access leaves a Busy core as it
was, the bytes of DST, which no host can observe then, rest on log 5. -/

open Sys2Proof Sys2Proof.Machine

/-! ## Encoding -/

/-- 30_encoding.md R112: the words of the opcode map, and UNPACK's two words, decode to their commands. -/
def Obligations.CommandWordsDecodeAsTabled : Prop :=
  decodeCommand 0x00000001 = .ok .pack ∧ decodeCommand 0x00000002 = .ok (.unpack false) ∧
  decodeCommand 0x00000102 = .ok (.unpack true) ∧ decodeCommand 0x00000003 = .ok .lzwEnc ∧
  decodeCommand 0x00000004 = .ok .lzwDec ∧ decodeCommand 0x00000005 = .ok .blkQuant ∧
  decodeCommand 0x00000006 = .ok .blkRecon ∧ decodeCommand 0x00000007 = .ok .encLossless ∧
  decodeCommand 0x00000008 = .ok .encLossy ∧ decodeCommand 0x00000009 = .ok .decode

/-- 30_encoding.md section 1: every command is well formed, and exactly one of the 2^32 words decodes to it, the one
the encoder writes. -/
def Obligations.DecodeInvertsEncode : Prop :=
  ∀ i : Instr, i.wellFormed = true ∧ ∀ w : Word, decodeCommand w = .ok i ↔ w = encode i

/-- 30_encoding.md section 1 (R113), 60_exceptions.md section 1 (R339): the decoder rejects exactly the illegal words, and an
illegal word starts a command that completes with ILLEGAL_COMMAND. That the core is Busy after the write and completes in
the engine's own later step is the model's reading of R113's "at once" (log 1). -/
def Obligations.IllegalWordsCompleteWithIllegalCommand : Prop :=
  (∀ w : Word, (∃ e, decodeCommand w = .error e) ↔ illegalWord w) ∧
  ∀ (s : State) (w : Word), illegalWord w → s.rst = false → s.eng = .idle →
    ∃ t u, hostWrite s 0x08 w = .next t ∧ t.eng = .busy ∧ t.cmd = w ∧
      engineStep t = .next u ∧ u.err = some .illegalCommand ∧ u.eng = .idle ∧ u.done = true ∧ u.mem = s.mem

/-! ## The register block -/

/-- R161: a CMD write while Idle is the start step, whatever the word; while Busy it is ignored. What the start
does to the working state and to the bytes of DST, WorkingStateIsNeverRead says. -/
def Obligations.CmdWriteStartsACommand : Prop :=
  ∀ (s : State) (v : Word), s.rst = false →
    (s.eng = .idle → ∃ t, hostWrite s 0x08 v = .next t ∧ t.irq = false ∧
      t = { s with cmd := v, eng := .busy, done := false, err := none, outLen := 0, outW := 0, outH := 0,
                   progress := 0, codeCount := 0, dictSize := 0, work := t.work, mem := t.mem } ∧
      ∀ a : Nat, s.dst.holds a = false → t.mem.readByte a = s.mem.readByte a) ∧
    (s.eng = .busy → hostWrite s 0x08 v = .next s)

/-- R48: while Busy, CMD and parameter writes are ignored, CTRL and STATUS writes take effect, and no host access and no
completion changes a parameter register. -/
def Obligations.BusyCoreKeepsItsParameters : Prop :=
  ∀ s : State, s.rst = false → s.eng = .busy →
    (∀ v : Word, (∀ o ∈ 0x08 :: paramOffsets, hostWrite s o v = .next s) ∧
      hostWrite s 0x04 v = .next { s with irqEn := v.getLsbD 0 } ∧
      hostWrite s 0x0C v = .next { s with done := if v.getLsbD 1 then false else s.done }) ∧
    (∀ (op : HostOp) (ms : List Move) (t : State), step { s with moves := .host op :: ms } = .next t → s.sameParams t) ∧
    (∀ t : State, engineStep s = .next t → s.sameParams t)

/-- R37, R50: a STATUS write clears DONE when bit 1 is set and does nothing else. Besides a reset, BUSY changes only at a start
and at a completion, DONE only at those (to 0 and to 1) and at a STATUS write (to 0), ERRCODE only at a start or a
completion, and MODE only when a DECODE that passed its early checks completes; ERR is (ERRCODE ≠ 0). -/
def Obligations.StatusFieldsHaveTheirWriters : Prop :=
  (∀ s : State, s.statusWord.getLsbD 2 = decide (s.statusWord.extractLsb' 8 4 ≠ 0)) ∧
  (∀ (s : State) (v : Word), s.rst = false → hostWrite s 0x0C v = .next { s with done := if v.getLsbD 1 then false else s.done }) ∧
  ∀ (s : State) (m : Move) (ms : List Move) (t : State), step { s with moves := m :: ms } = .next t → (∀ level, m ≠ .rst level) →
    (t.eng ≠ s.eng → (s.eng = .busy ∧ t.eng = .idle ∧ m = .engine) ∨
      (s.eng = .idle ∧ t.eng = .busy ∧ ∃ v, m = .host (.regWrite (s.platform.base + 0x08) 4 v))) ∧
    (t.done ≠ s.done → (t.done = true ∧ s.eng = .busy ∧ m = .engine) ∨
      (t.done = false ∧ s.eng = .idle ∧ ∃ v, m = .host (.regWrite (s.platform.base + 0x08) 4 v)) ∨
      (t.done = false ∧ ∃ v : Word, v.getLsbD 1 = true ∧ m = .host (.regWrite (s.platform.base + 0x0C) 4 v))) ∧
    (t.err ≠ s.err → (s.eng = .busy ∧ m = .engine) ∨
      (t.err = none ∧ s.eng = .idle ∧ ∃ v, m = .host (.regWrite (s.platform.base + 0x08) 4 v))) ∧
    (t.mode ≠ s.mode → m = .engine ∧ s.eng = .busy ∧ decodeCommand s.cmd = .ok .decode ∧
      s.earlyError (Instr.decode.checks s) = none)

/-- R34: CTRL is IRQ_EN in bit 0; the other bits read 0 and take no write; it may be written while a command runs. -/
def Obligations.CtrlHoldsOnlyIrqEnable : Prop :=
  ∀ (s : State) (v : Word),
    (s.rst = false → hostWrite s 0x04 v = .next { s with irqEn := v.getLsbD 0 }) ∧
    hostRead s 0x04 = .next { s with busData := if s.irqEn then 1 else 0 } ∧
    (s.irqEn = true → s.irq = s.done)

/-- R33, R47: ID reads 0x4C5A5701 at all times and ignores writes; offsets 0x4C to 0xFC read 0 and ignore writes. -/
def Obligations.IdAndReservedOffsetsAreConstant : Prop :=
  ∀ (s : State) (v : Word),
    hostRead s 0x00 = .next { s with busData := 0x4C5A5701 } ∧ hostWrite s 0x00 v = .next s ∧
    ∀ k : Nat, 0x4C ≤ 4 * k → 4 * k ≤ 0xFC →
      hostRead s (4 * k) = .next { s with busData := 0 } ∧ hostWrite s (4 * k) v = .next s

/-- 10_state.md section 2 (R36) and 30_encoding.md section 3 (R140): what a STATUS read shows, bit by bit, the error
numbers, and that the read changes nothing else. -/
def Obligations.StatusReadShowsItsFields : Prop :=
  ∀ s : State, ∃ w : Word, hostRead s 0x0C = .next { s with busData := w } ∧
    w.getLsbD 0 = decide (s.eng = .busy) ∧ w.getLsbD 1 = s.done ∧ w.getLsbD 2 = s.err.isSome ∧
    (w.extractLsb' 8 4).toNat =
      (match s.err with
       | none => 0
       | some .truncatedStream => 1 | some .unrecognizedMode => 2 | some .invalidCode => 3
       | some .dimensionOverflow => 4 | some .sizeMismatch => 5 | some .invalidBlockSize => 6
       | some .trailingData => 7 | some .outputOverflow => 8 | some .illegalCommand => 9 | some .invalidOperand => 10) ∧
    w.extractLsb' 16 8 = s.mode ∧
    ∀ b : Nat, (3 ≤ b ∧ b ≤ 7) ∨ (12 ≤ b ∧ b ≤ 15) ∨ (24 ≤ b ∧ b ≤ 31) → w.getLsbD b = false

/-- R51: irq is DONE and IRQ_EN; it rises at a completion while IRQ_EN = 1 and when IRQ_EN is set while DONE = 1, and falls
when DONE or IRQ_EN is cleared and when a command starts. -/
def Obligations.IrqFollowsDoneAndEnable : Prop :=
  ∀ s : State, (s.irq = true ↔ s.done = true ∧ s.irqEn = true) ∧
    (∀ t, s.eng = .busy → engineStep s = .next t → t.irq = s.irqEn) ∧
    (∀ v : Word, s.rst = false → ∃ t, hostWrite s 0x04 v = .next t ∧ t.irq = (s.done && v.getLsbD 0)) ∧
    (∀ v : Word, s.rst = false → v.getLsbD 1 = true → ∃ t, hostWrite s 0x0C v = .next t ∧ t.irq = false) ∧
    (∀ v : Word, s.rst = false → s.eng = .idle → ∃ t, hostWrite s 0x08 v = .next t ∧ t.irq = false)

/-- 70_reset_and_hazards.md section 1 (R370), 10_state.md section 5 (R54): right after reset, when `rst` is asserted in any state, and when it is released, every register reads its reset
value, eng is Idle and irq 0; the buffer memory of an Idle core is untouched. While it is asserted this stays so: no
register write and no engine's turn does anything (that a write does nothing is the model's inference, log 7). -/
def Obligations.ResetPutsRegistersAtTheirResetValues : Prop :=
  (∀ s : State, s = State.reset ∨ (∃ u, rstStep u true = .next s) ∨ (∃ u, u.rst = true ∧ rstStep u false = .next s) ∨
      (s.Inv ∧ s.rst = true) →
    s.eng = .idle ∧ s.irq = false ∧
    ∀ k : Nat, k < 64 → hostRead s (4 * k) =
      .next { s with busData := if 4 * k = 0x00 then 0x4C5A5701 else if 4 * k = 0x2C then 0x10 else 0 }) ∧
  (∀ s : State, ∃ t, rstStep s true = .next t ∧ t.rst = true ∧ t.platform = s.platform ∧ (s.eng = .idle → t.mem = s.mem)) ∧
  (∀ s : State, s.rst = true → ∃ t, rstStep s false = .next t ∧ t.rst = false ∧ t.platform = s.platform ∧ t.mem = s.mem) ∧
  (∀ s : State, s.rst = true →
    (∀ (k : Nat) (v : Word), k < 64 → hostWrite s (4 * k) v = .next s) ∧ (s.Inv → engineStep s = .next s))

/-- R371: an assertion of `rst` while Busy abandons the command: no DONE, no ERRCODE, SRC and PAL unchanged, and no byte outside DST
changes; the host then reads the reset values. -/
def Obligations.ResetDuringACommandAbandonsIt : Prop :=
  ∀ (s : State) (i : Instr), s.eng = .busy → decodeCommand s.cmd = .ok i →
    ∃ t, rstStep s true = .next t ∧ t.eng = .idle ∧ t.done = false ∧ t.err = none ∧
      (∀ a : Nat, s.src.holds a = true → t.mem.readByte a = s.mem.readByte a) ∧
      (∀ a : Nat, i = .encLossless → s.pal.holds a = true → t.mem.readByte a = s.mem.readByte a) ∧
      (∀ a : Nat, s.dst.holds a = false → t.mem.readByte a = s.mem.readByte a) ∧
      (∀ k : Nat, k < 64 → hostRead t (4 * k) =
        .next { t with busData := if 4 * k = 0x00 then 0x4C5A5701 else if 4 * k = 0x2C then 0x10 else 0 })

/-- 10_state.md section 2 (R30, R35, R38 to R46): a parameter register written while Idle takes what was written, BLOCK its
low eight bits, and nothing else of the state changes; it reads back, and the others read as before. In every state the
offsets of CMD, the parameters and the result registers read the register of their name (PROGRESS is the next statement's)
and a read changes nothing else; a write to a result register does nothing. -/
def Obligations.ParameterRegistersReadBack : Prop :=
  (∀ (s : State) (v : Word), s.rst = false → s.eng = .idle →
    hostWrite s 0x10 v = .next { s with srcAddr := v } ∧ hostWrite s 0x14 v = .next { s with srcLen := v } ∧
    hostWrite s 0x18 v = .next { s with dstAddr := v } ∧ hostWrite s 0x1C v = .next { s with dstCap := v } ∧
    hostWrite s 0x20 v = .next { s with palAddr := v } ∧ hostWrite s 0x24 v = .next { s with imgW := v } ∧
    hostWrite s 0x28 v = .next { s with imgH := v } ∧ hostWrite s 0x2C v = .next { s with block := v.extractLsb' 0 8 } ∧
    hostWrite s 0x30 v = .next { s with limit := v } ∧
    ∀ o ∈ paramOffsets, ∃ t, hostWrite s o v = .next t ∧
      hostRead t o = .next { t with busData := if o = 0x2C then v &&& 0xFF else v } ∧
      ∀ o' ∈ paramOffsets, o' ≠ o → ∃ x : Word, hostRead s o' = .next { s with busData := x } ∧
        hostRead t o' = .next { t with busData := x }) ∧
  (∀ s : State,
    hostRead s 0x08 = .next { s with busData := s.cmd } ∧
    hostRead s 0x10 = .next { s with busData := s.srcAddr } ∧ hostRead s 0x14 = .next { s with busData := s.srcLen } ∧
    hostRead s 0x18 = .next { s with busData := s.dstAddr } ∧ hostRead s 0x1C = .next { s with busData := s.dstCap } ∧
    hostRead s 0x20 = .next { s with busData := s.palAddr } ∧ hostRead s 0x24 = .next { s with busData := s.imgW } ∧
    hostRead s 0x28 = .next { s with busData := s.imgH } ∧ hostRead s 0x2C = .next { s with busData := 0#24 ++ s.block } ∧
    hostRead s 0x30 = .next { s with busData := s.limit } ∧ hostRead s 0x34 = .next { s with busData := s.outLen } ∧
    hostRead s 0x38 = .next { s with busData := s.outW } ∧ hostRead s 0x3C = .next { s with busData := s.outH } ∧
    hostRead s 0x44 = .next { s with busData := s.codeCount } ∧ hostRead s 0x48 = .next { s with busData := s.dictSize }) ∧
  (∀ (s : State) (v : Word), ∀ o ∈ [0x34, 0x38, 0x3C, 0x40, 0x44, 0x48], hostWrite s o v = .next s)

/-- 10_state.md section 2 (R45): while Busy a PROGRESS read gives a value at most SRC_LEN and at least the one last read,
for every draw; while Idle it gives the register. That the register then holds the drawn value is the model's choice (log 4). -/
def Obligations.ProgressReadsAreBoundedAndMonotone : Prop :=
  ∀ s : State,
    (s.eng = .idle → hostRead s 0x40 = .next { s with busData := s.progress }) ∧
    (s.eng = .busy → s.progress.toNat ≤ s.srcLen.toNat → ∃ p : Word,
      hostRead s 0x40 = .next { s with busData := p, progress := p, draws := s.draws + 1 } ∧
      s.progress.toNat ≤ p.toNat ∧ p.toNat ≤ s.srcLen.toNat)

/-- 20_memory.md section 4 (R90, R93): while a command runs, a host write to its SRC, PAL or DST and a host read of its DST
are the fault HostOwnershipViolation, which no run leaves; every other access to backed memory has its ordinary meaning, and
while Idle every one has, whatever CMD holds. PAL is a range of the command when its OP is that of ENC_LOSSLESS. That an
illegal word in CMD owns the ranges its registers give, too, is the model's choice (log 8), and that the fault comes also at
an owned byte that is not backed (log 9). -/
def Obligations.HostAccessesObeyOwnership : Prop :=
  ∀ (s : State) (a : Word) (v : Byte),
    let pal := decide (s.cmd.toNat % 256 = 7)
    (∀ i, decodeCommand s.cmd = .ok i → i.ranges s = s.dst :: s.inputs pal ∧ (pal = true ↔ i = .encLossless)) ∧
    (s.eng = .busy → (∃ r ∈ s.dst :: s.inputs pal, r.holds a.toNat = true) →
      hostStore s a v = .fault .hostOwnershipViolation ∧
      ∀ n : Nat, Sys2Proof.core.run (n + 1) { s with moves := .host (.memWrite a v) :: s.moves } = .fault .hostOwnershipViolation) ∧
    (s.eng = .busy → s.dst.holds a.toNat = true → hostLoad s a = .fault .hostOwnershipViolation ∧
      ∀ n : Nat, Sys2Proof.core.run (n + 1) { s with moves := .host (.memRead a) :: s.moves } = .fault .hostOwnershipViolation) ∧
    (backedAt s.platform.backed a.toNat = true →
      (s.eng = .idle ∨ ∀ r ∈ s.dst :: s.inputs pal, r.holds a.toNat = false) →
      hostStore s a v = .next { s with mem := s.mem.writeByte a.toNat v }) ∧
    (backedAt s.platform.backed a.toNat = true → (s.eng = .idle ∨ s.dst.holds a.toNat = false) →
      hostLoad s a = .next { s with busData := (s.mem.readByte a.toNat).setWidth 32 })

/-- 60_exceptions.md section 3 (R345 b): a register access that is not an aligned 32-bit word is refused. -/
def Obligations.RegisterAccessesAreAlignedWords : Prop :=
  ∀ (s : State) (o width : Nat) (v : Word) (ms : List Move), o < 256 → width ≠ 4 ∨ o % 4 ≠ 0 →
    step { s with moves := .host (.regRead (s.platform.base + o) width) :: ms } = .refused .notAlignedWord ∧
    step { s with moves := .host (.regWrite (s.platform.base + o) width v) :: ms } = .refused .notAlignedWord

/-! ## The life of a command -/

/-- 40_common.md section 3: the engine's step of a Busy core is `exec` of the command CMD holds, at the state as it stands
but for the move taken. 60_exceptions.md section 4 (R353): the engine's step of an Idle core changes nothing. That the engine
also moves when no move is left is the model's choice (log 1), and that a level of `rst` leaves the moves to come and the bus
data is, too (log 7). -/
def Obligations.StepRunsTheCommandInCmd : Prop :=
  (∀ (s : State) (i : Instr), s.eng = .busy → decodeCommand s.cmd = .ok i →
    engineStep s = exec i s ∧ (s.moves = [] → step s = exec i s)) ∧
  (∀ s : State, s.eng = .idle → engineStep s = .next s ∧ (s.moves = [] → step s = .next s)) ∧
  (∀ (s : State) (level : Bool), ∃ t, rstStep s level = .next t ∧ t.moves = s.moves ∧ t.busData = s.busData)

/-- 40_common.md section 3 (R168): a host that only polls STATUS, any number of times, sees a started command complete.
That the engine moves when no move is left is the model's form of "eventually" (log 1). -/
def Obligations.StartedCommandCompletesUnderPolling : Prop :=
  ∀ (s : State) (n : Nat), s.eng = .busy →
    s.moves = List.replicate n (.host (.regRead (s.platform.base + 0x0C) 4)) →
    (∀ i, decodeCommand s.cmd = .ok i → s.rangesBacked i.usesPal = true) →
    ∃ t : State, Sys2Proof.core.run (n + 1) s = .next t ∧ t.eng = .idle ∧ t.done = true ∧ t.moves = [] ∧ s.sameParams t

/-- R81: a command one of whose ranges holds an unbacked address is refused, with no completion; every other command
completes. -/
def Obligations.UnbackedCommandsHaveNoCompletion : Prop :=
  ∀ (i : Instr) (s : State),
    ((∃ a, i.touchesUnbacked s a) → exec i s = .refused .unbackedRange) ∧
    ((∀ a, ¬ i.touchesUnbacked s a) → ∃ t, exec i s = .next t ∧ t.done = true ∧ t.eng = .idle)

/-- R162: two ranges share an address exactly when both are non-empty and each starts below the other's end; a used range
past 2^32, or a DST that shares an address with SRC or (ENC_LOSSLESS) PAL, is INVALID_OPERAND, and nothing else is an early
INVALID_OPERAND (SRC and PAL may overlap). -/
def Obligations.RangeCheckRaisesInvalidOperand : Prop :=
  (∀ r q : Range, (∃ a, r.holds a = true ∧ q.holds a = true) ↔
    0 < r.len ∧ 0 < q.len ∧ r.addr < q.addr + q.len ∧ q.addr < r.addr + r.len) ∧
  ∀ (i : Instr) (s : State), s.rangesBacked i.usesPal = true →
    ((∃ r ∈ i.ranges s, 2 ^ 32 < r.addr + r.len) ∨
      (∃ r ∈ s.inputs i.usesPal, ∃ a, s.dst.holds a = true ∧ r.holds a = true) →
      ∃ t, exec i s = .next t ∧ t.err = some .invalidOperand ∧ t.mem = s.mem ∧ t.outLen = 0) ∧
    ((∀ r ∈ i.ranges s, r.addr + r.len ≤ 2 ^ 32) →
      (∀ r ∈ s.inputs i.usesPal, ∀ a, ¬ (s.dst.holds a = true ∧ r.holds a = true)) →
      s.earlyError (i.checks s) ≠ some .invalidOperand)

/-- R163: the four commands that take an image size raise DIMENSION_OVERFLOW when IMG_W or IMG_H exceeds 65535; the other
commands do not look at them. -/
def Obligations.DimensionCheckRaisesDimensionOverflow : Prop :=
  (∀ (i : Instr) (s : State), i = .blkQuant ∨ i = .blkRecon ∨ i = .encLossless ∨ i = .encLossy →
    s.rangesBacked i.usesPal = true → s.rangesOk i.usesPal = true → 65535 < s.imgW.toNat ∨ 65535 < s.imgH.toNat →
    ∃ t, exec i s = .next t ∧ t.err = some .dimensionOverflow ∧ t.mem = s.mem ∧ t.outLen = 0) ∧
  (∀ (i : Instr) (s : State), s.imgW.toNat ≤ 65535 → s.imgH.toNat ≤ 65535 →
    s.earlyError (i.checks s) ≠ some .dimensionOverflow) ∧
  (∀ (i : Instr) (s : State) (w h : Word), i = .pack ∨ i = .unpack false ∨ i = .unpack true ∨ i = .lzwEnc ∨ i = .lzwDec ∨ i = .decode →
    s.earlyError (i.checks s) = ({ s with imgW := w, imgH := h } : State).earlyError (i.checks { s with imgW := w, imgH := h }))

/-- R164: BLK_QUANT and ENC_LOSSY need SRC_LEN = 3 · W · H and ENC_LOSSLESS needs W · H, else SIZE_MISMATCH; the other
commands take any SRC_LEN. -/
def Obligations.LengthCheckRaisesSizeMismatch : Prop :=
  (∀ (i : Instr) (s : State), s.rangesBacked i.usesPal = true → s.rangesOk i.usesPal = true →
    s.imgW.toNat ≤ 65535 → s.imgH.toNat ≤ 65535 →
    ((i = .blkQuant ∨ i = .encLossy) ∧ s.srcLen.toNat ≠ 3 * s.imgW.toNat * s.imgH.toNat) ∨
      (i = .encLossless ∧ s.srcLen.toNat ≠ s.imgW.toNat * s.imgH.toNat) →
    ∃ t, exec i s = .next t ∧ t.err = some .sizeMismatch ∧ t.mem = s.mem ∧ t.outLen = 0) ∧
  (∀ (i : Instr) (s : State), i ≠ .blkQuant → i ≠ .encLossy → i ≠ .encLossless →
    s.earlyError (i.checks s) ≠ some .sizeMismatch)

/-- R167: a completion reports exactly one error, the first that applies: the command word, the ranges, the dimensions, the
input length, the transform's own error, OUTPUT_OVERFLOW; none of them, and the command succeeds. -/
def Obligations.FirstErrorInOrderIsReported : Prop :=
  (∀ (s t : State), s.eng = .busy → illegalWord s.cmd → engineStep s = .next t → t.err = some .illegalCommand) ∧
  ∀ (i : Instr) (s t : State), s.eng = .busy → decodeCommand s.cmd = .ok i → engineStep s = .next t →
    t.err =
      if s.rangesOk i.usesPal = false then some .invalidOperand
      else if i.checksDims = true ∧ s.dimsOk = false then some .dimensionOverflow
      else if (i.requiredLen s).any (· != s.srcLen.toNat) = true then some .sizeMismatch
      else match (i.transform s).result with
        | .error k => some k
        | .ok (out, _) => if s.dstCap.toNat < out.length then some .outputOverflow else none

/-- R165: a transform's result is a function of the source bytes, the palette bytes (ENC_LOSSLESS only) and the parameter
registers; after the early checks its error is reported; a result longer than DST_CAP is OUTPUT_OVERFLOW with the
required length; else the result is written to DST and no byte past it. -/
def Obligations.ResultIsWrittenOrOverflows : Prop :=
  (∀ (i : Instr) (s s' : State), s.sameParams s' → s.srcBytes = s'.srcBytes → (i = .encLossless → s.palBytes = s'.palBytes) →
    (i.transform s).result = (i.transform s').result) ∧
  ∀ (i : Instr) (s : State), s.mem.wf = true → s.ready i →
    (∀ k, (i.transform s).result = .error k → ∃ t, exec i s = .next t ∧ t.err = some k) ∧
    (∀ out info, (i.transform s).result = .ok (out, info) → s.dstCap.toNat < out.length →
      ∃ t, exec i s = .next t ∧ t.err = some .outputOverflow ∧ t.outLen.toNat = min out.length 0xFFFFFFFF) ∧
    (∀ out info, (i.transform s).result = .ok (out, info) → out.length ≤ s.dstCap.toNat →
      ∃ t, exec i s = .next t ∧ t.err = none ∧ t.outLen.toNat = out.length ∧
        (∀ j (h : j < out.length), t.mem.readByte (s.dstAddr.toNat + j) = out[j]) ∧
        (∀ a, a < s.dstAddr.toNat ∨ s.dstAddr.toNat + out.length ≤ a → t.mem.readByte a = s.mem.readByte a))

/-- 40_common.md section 3 (R166): the state an error completion leaves. An early error changes no byte and not MODE; a
late one changes DST bytes only; OUT_LEN is 0 but for OUTPUT_OVERFLOW; PROGRESS is within SRC_LEN for every draw; the core
is Idle with DONE set. That the result registers with no value of their own stay as found, in every state, is log 11, and that
an early error leaves the working state is log 6. -/
def Obligations.ErrorCompletionsLeaveThis : Prop :=
  ∀ (i : Instr) (s t : State) (k : ErrorKind), exec i s = .next t → t.err = some k →
    t.done = true ∧ t.eng = .idle ∧ t.progress.toNat ≤ s.srcLen.toNat ∧
    t.outW = s.outW ∧ t.outH = s.outH ∧ t.codeCount = s.codeCount ∧ t.dictSize = s.dictSize ∧
    (k ≠ .outputOverflow → t.outLen = 0) ∧
    (s.earlyError (i.checks s) = some k → t.mem = s.mem ∧ t.mode = s.mode ∧ t.work = s.work) ∧
    (∀ a : Nat, s.dst.holds a = false → t.mem.readByte a = s.mem.readByte a)

/-- Frame of the registers, all nine commands: CMD, CTRL and the parameters never change; MODE only by DECODE; OUT_W and
OUT_H only by DECODE; CODE_COUNT and DICT_SIZE only by the commands that run the LZW engine; the working state of an engine
only by its commands; platform, moves and the bus are untouched (10_state.md sections 2 and 4, R30, R44, R46, R48, R52). That an engine's part of the
working state stays as the other commands find it is the model's inference (log 6); the moves and the bus data are its own
fields (log 1). -/
def Obligations.CommandsKeepTheOtherRegisters : Prop :=
  ∀ (i : Instr) (s t : State), exec i s = .next t →
    s.sameParams t ∧ t.cmd = s.cmd ∧ t.rst = s.rst ∧ t.irqEn = s.irqEn ∧ t.platform = s.platform ∧ t.moves = s.moves ∧ t.busData = s.busData ∧
    (i ≠ .decode → t.mode = s.mode ∧ t.outW = s.outW ∧ t.outH = s.outH) ∧
    (i ≠ .lzwEnc → i ≠ .lzwDec → i ≠ .encLossless → i ≠ .decode → t.codeCount = s.codeCount ∧ t.dictSize = s.dictSize ∧
      t.work.dict = s.work.dict ∧ t.work.acc = s.work.acc ∧ t.work.previous = s.work.previous) ∧
    (i ≠ .blkQuant → i ≠ .blkRecon → i ≠ .encLossy → i ≠ .decode → t.work.block = s.work.block)

/-- Frame of the memory, all nine commands: on success every byte outside the OUT_LEN bytes from DST_ADDR reads as before;
on an early error every byte does; on a late one every byte outside DST does (R83, R165, R166, R344). -/
def Obligations.CommandsKeepTheOtherBytes : Prop :=
  ∀ (i : Instr) (s t : State), exec i s = .next t →
    (t.err = none → ∀ a : Nat, a < s.dstAddr.toNat ∨ s.dstAddr.toNat + t.outLen.toNat ≤ a →
      t.mem.readByte a = s.mem.readByte a) ∧
    ((∃ k, s.earlyError (i.checks s) = some k) → t.mem = s.mem) ∧
    (∀ a : Nat, a < s.dstAddr.toNat ∨ s.dstAddr.toNat + s.dstCap.toNat ≤ a → t.mem.readByte a = s.mem.readByte a)

/-- R303: no command changes its source buffer or its palette. -/
def Obligations.CommandsNeverChangeTheirInputs : Prop :=
  ∀ (i : Instr) (s t : State) (a : Nat), exec i s = .next t → (∃ r ∈ s.inputs i.usesPal, r.holds a = true) →
    t.mem.readByte a = s.mem.readByte a

/-- R169: the command, the parameters and the bytes of SRC (and PAL) fix the result registers, and on success PROGRESS and
the bytes written, whatever else the two machines hold, their working state, other memory and draws included; the draws are
not fixed. The two premises on each state hold of every Busy state a run reaches (State.Inv). -/
def Obligations.CompletionIsDeterministic : Prop :=
  ∀ (i : Instr) (s s' t t' : State), s.mem.wf = true → s'.mem.wf = true → s.resultsClear → s'.resultsClear →
    s.sameParams s' → s.srcBytes = s'.srcBytes → (i = .encLossless → s.palBytes = s'.palBytes) →
    exec i s = .next t → exec i s' = .next t' →
    (s.mode = s'.mode ∨ (i = .decode ∧ s.earlyError (i.checks s) = none) → t.mode = t'.mode) ∧
    t.err = t'.err ∧ t.outLen = t'.outLen ∧ t.outW = t'.outW ∧ t.outH = t'.outH ∧
    t.codeCount = t'.codeCount ∧ t.dictSize = t'.dictSize ∧
    (t.err = none → t.progress = t'.progress ∧
      ∀ a : Nat, s.dstAddr.toNat ≤ a → a < s.dstAddr.toNat + t.outLen.toNat → t.mem.readByte a = t'.mem.readByte a)

/-- 10_state.md section 4 (R52), section 5 (R54): a start initialises the working state, whatever it held, so that nothing of
it survives to the next command: the 256 single-byte entries, an empty w, and (log 6, the model's choice) an empty `previous`
and zero block values. No result depends on the working state a command finds, and a command that runs an engine leaves
nothing of what it found in that engine's part. That a start keeps the bytes of DST too is the model's choice (log 5). -/
def Obligations.WorkingStateIsNeverRead : Prop :=
  (∀ (s : State) (v : Word), s.rst = false → s.eng = .idle → ∃ t, hostWrite s 0x08 v = .next t ∧
    t.work.dict = (List.range 256).map (fun c => [BitVec.ofNat 8 c]) ∧ t.work.acc = [] ∧ t.work.previous = [] ∧
    t.work.block = BlockWork.initial ∧ t.mem = s.mem ∧ ∀ w : Work, hostWrite { s with work := w } 0x08 v = .next t) ∧
  (∀ (i : Instr) (s t : State) (w : Work), exec i s = .next t →
    ∃ w', exec i { s with work := w } = .next { t with work := w' } ∧
      (s.earlyError (i.checks s) = none →
        (i = .lzwEnc ∨ i = .encLossless → w'.dict = t.work.dict ∧ w'.acc = t.work.acc) ∧
        (i = .lzwDec → w'.dict = t.work.dict ∧ w'.previous = t.work.previous) ∧
        (i = .blkQuant ∨ i = .blkRecon ∨ i = .encLossy → w'.block = t.work.block)))

/-! ## The invariant -/

/-- Tier 1: the reset state meets the invariant (its empty memory is the model's choice, log 3). -/
def Obligations.ResetStateMeetsTheInvariant : Prop := State.reset.Inv

/-- Every step, whatever the move, keeps the invariant (Safety.lean, State.Inv); the canonical form of memory
(log 3) and the values a start gives `previous` and the block values (log 6) are the model's. -/
def Obligations.EveryStepKeepsTheInvariant : Prop :=
  ∀ s t : State, s.Inv → step s = .next t → t.Inv

/-! ## Bit packing -/

/-- R190: pack's length, and every bit of every byte: bit 8j + i stands in bit 7 − i of byte j, missing bits are 0. -/
def Obligations.PackPutsBitsMsbFirst : Prop :=
  ∀ b : List Bool, (pack b).length = ceilDiv b.length 8 ∧ pack [] = [] ∧
    ∀ j i : Nat, j < ceilDiv b.length 8 → i < 8 →
      ((pack b).getD j 0).getLsbD (7 - i) = b.getD (8 * j + i) false

/-- R192, R194: unpack expands each byte bit 7 first and cuts at min(limit, 8 · len) bits; the two round trips of pack and
unpack, and unpack's length. -/
def Obligations.UnpackExpandsAndInvertsPack : Prop :=
  (∀ s : List Byte, (∀ j i : Nat, j < s.length → i < 8 →
      (unpack s none).getD (8 * j + i) false = (s.getD j 0).getLsbD (7 - i)) ∧
    ∀ n : Nat, (unpack s (some n)).length = min n (8 * s.length) ∧
      ∀ k, k < min n (8 * s.length) → (unpack s (some n)).getD k false = (unpack s none).getD k false) ∧
  (∀ b : List Bool, unpack (pack b) (some b.length) = b) ∧
  (∀ s : List Byte, pack (unpack s none) = s ∧ (unpack s none).length = 8 * s.length)

/-- 41_bitpack.md section 1 (R191): PACK of bytes 0 and 1 that fit completes with the packed bits in DST; a source byte
above 1 is a late INVALID_OPERAND.
That it leaves the working state as it was is the model's inference (log 6). -/
def Obligations.PackCompletes : Prop :=
  (∀ s : State, s.rangesBacked false = true → s.rangesOk false = true → (∀ x ∈ s.srcBytes, x = 0 ∨ x = 1) →
    ceilDiv s.srcLen.toNat 8 ≤ s.dstCap.toNat →
    exec .pack s = .next { s with
      mem := s.mem.write s.dstAddr.toNat (pack (s.srcBytes.map fun x => decide (x = 1)))
      outLen := BitVec.ofNat 32 (ceilDiv s.srcLen.toNat 8), progress := s.srcLen, err := none, done := true, eng := .idle }) ∧
  (∀ s : State, s.rangesBacked false = true → s.rangesOk false = true → (∃ x ∈ s.srcBytes, x ≠ 0 ∧ x ≠ 1) →
    ∃ t, exec .pack s = .next t ∧ t.err = some .invalidOperand ∧ t.outLen = 0 ∧ t.done = true ∧ t.eng = .idle)

/-- 41_bitpack.md section 2 (R193): UNPACK that fits completes with one byte 0 or 1 for each bit, cut to LIMIT bits when
LIM = 1.
That it leaves the working state as it was is the model's inference (log 6). -/
def Obligations.UnpackCompletes : Prop :=
  ∀ (s : State) (lim : Bool), s.rangesBacked false = true → s.rangesOk false = true →
    (if lim then min s.limit.toNat (8 * s.srcLen.toNat) else 8 * s.srcLen.toNat) ≤ s.dstCap.toNat →
    exec (.unpack lim) s = .next { s with
      mem := s.mem.write s.dstAddr.toNat
        ((unpack s.srcBytes (if lim then some s.limit.toNat else none)).map fun b => if b then 1 else 0)
      outLen := BitVec.ofNat 32 (if lim then min s.limit.toNat (8 * s.srcLen.toNat) else 8 * s.srcLen.toNat)
      progress := s.srcLen, err := none, done := true, eng := .idle }

/-! ## LZW -/

/-- R214: the encoder's invariants at every point, (a) w is an entry, (b) entries are distinct, (c) the counts, (d) the codes
are below the size, (e) the codes expand back to the input. -/
def Obligations.EncoderInvariantsHold : Prop :=
  ∀ s : List Byte,
    (s ≠ [] → (Enc.run s).acc ≠ [] ∧ (Enc.run s).acc ∈ (Enc.run s).dict) ∧
    (Enc.run s).dict.Nodup ∧
    (s ≠ [] → (lzwEncode s).1.length = 1 + (Enc.run s).codes.length ∧
      (lzwEncode s).2 = min 4096 (256 + (lzwEncode s).1.length - 1)) ∧
    (∀ c k, (Enc.run (s ++ [c])).codes = (Enc.run s).codes ++ [k] → k < (Enc.run s).dict.length) ∧
    (∀ k ∈ (lzwEncode s).1, k < (lzwEncode s).2 ∧ k ≤ 4095) ∧
    ((lzwEncode s).1.flatMap fun k => (Enc.run s).dict.getD k []) = s

/-- R224, R228: at every point of an encode and of a decode the dictionary has 256 to 4096 entries; every entry from 256 on
is an earlier entry plus one byte, so entry c has at most c − 254 ≤ 3841 bytes; the encoder's w and the decoder's
previous have at most 3841 bytes; an emitted code is at most 4095. -/
def Obligations.DictionariesStayInBounds : Prop :=
  (∀ s : List Byte, 256 ≤ (Enc.run s).dict.length ∧ (Enc.run s).dict.length ≤ 4096 ∧
    (∀ k ∈ (lzwEncode s).1, k ≤ 4095) ∧ (Enc.run s).acc.length ≤ 3841 ∧
    ∀ c e, (Enc.run s).dict[c]? = some e → 256 ≤ c →
      (∃ p x, p ∈ (Enc.run s).dict.take c ∧ e = p ++ [x]) ∧ e.length ≤ c - 254 ∧ c - 254 ≤ 3841) ∧
  (∀ ks : List Nat, 256 ≤ (Dec.run ks).1.dict.length ∧ (Dec.run ks).1.dict.length ≤ 4096 ∧
    (Dec.run ks).1.previous.length ≤ 3841 ∧
    ∀ c e, (Dec.run ks).1.dict[c]? = some e → 256 ≤ c →
      (∃ p x, p ∈ (Dec.run ks).1.dict.take c ∧ e = p ++ [x]) ∧ e.length ≤ c - 254 ∧ c - 254 ≤ 3841)

/-- R227: what the encoder writes, the decoder reads back exactly, for every non-empty input, with the same code count
and dictionary size; the empty input's stream is TRUNCATED_STREAM. -/
def Obligations.LzwRoundTrip : Prop :=
  (∀ s : List Byte, s ≠ [] →
    decodeCodeStream (codesToBytes (lzwEncode s).1) = .ok (s, (lzwEncode s).1.length, (lzwEncode s).2)) ∧
  decodeCodeStream (codesToBytes (lzwEncode []).1) = .error .truncatedStream

/-- 42_lzw.md section 2 (R217): LZW_ENC that fits completes with the code stream in DST, the code count and the dictionary
size.
The working state it leaves (`work`) is the model's inference (log 6). -/
def Obligations.LzwEncCompletes : Prop :=
  ∀ s : State, s.rangesBacked false = true → s.rangesOk false = true →
    2 * (lzwEncode s.srcBytes).1.length ≤ s.dstCap.toNat →
    exec .lzwEnc s = .next { s with
      mem := s.mem.write s.dstAddr.toNat (codesToBytes (lzwEncode s.srcBytes).1)
      outLen := BitVec.ofNat 32 (2 * (lzwEncode s.srcBytes).1.length)
      codeCount := BitVec.ofNat 32 (lzwEncode s.srcBytes).1.length
      dictSize := BitVec.ofNat 32 (lzwEncode s.srcBytes).2
      progress := s.srcLen, err := none, done := true, eng := .idle, work := s.work.afterEncode s.srcBytes }

/-- 42_lzw.md section 3 (R226): LZW_DEC of a stream of even length ≥ 2 whose codes decode, and whose result fits, completes
with the bytes in DST, CODE_COUNT = SRC_LEN / 2 and DICT_SIZE = min(4096, 256 + CODE_COUNT − 1).
The working state it leaves (`work`) is the model's inference (log 6). -/
def Obligations.LzwDecCompletes : Prop :=
  ∀ (s : State) (codes : List Nat) (out : List Byte) (size : Nat), s.rangesBacked false = true → s.rangesOk false = true →
    parseCodes s.srcBytes = .ok codes → lzwDecode codes = .ok (out, size) → out.length ≤ s.dstCap.toNat →
    exec .lzwDec s = .next { s with
      mem := s.mem.write s.dstAddr.toNat out
      outLen := BitVec.ofNat 32 out.length
      codeCount := BitVec.ofNat 32 (s.srcLen.toNat / 2)
      dictSize := BitVec.ofNat 32 (min 4096 (256 + s.srcLen.toNat / 2 - 1))
      progress := s.srcLen, err := none, done := true, eng := .idle, work := s.work.afterDecode codes }

/-- 42_lzw.md section 3 (R220, R221, R222): a stream parses exactly when its length is even and not 0, each code the
big-endian word of its two bytes; a first code below 256 is taken as its byte;
decoding fails exactly at a first code ≥ 256 or at a later code above the size, or equal
to it at the cap, and then with INVALID_CODE. -/
def Obligations.DecoderRejectsBadStreams : Prop :=
  (∀ s : List Byte, (s.length = 0 ∨ s.length % 2 = 1 → parseCodes s = .error .truncatedStream) ∧
    (s.length ≠ 0 → s.length % 2 = 0 → ∃ codes, parseCodes s = .ok codes ∧ codes.length = s.length / 2 ∧
      ∀ j, j < codes.length → codes.getD j 0 = 256 * (s.getD (2 * j) 0).toNat + (s.getD (2 * j + 1) 0).toNat)) ∧
  (∀ (k : Nat) (ks : List Nat), 256 ≤ k → lzwDecode (k :: ks) = .error .invalidCode) ∧
  (∀ k : Nat, k < 256 → lzwDecode [k] = .ok ([BitVec.ofNat 8 k], 256)) ∧
  (∀ (ks : List Nat) (k : Nat) (out : List Byte) (size : Nat), lzwDecode ks = .ok (out, size) →
    (size < k ∨ (k = size ∧ size = 4096) → ∀ more, lzwDecode (ks ++ k :: more) = .error .invalidCode) ∧
    (k < size ∨ (k = size ∧ size < 4096) → ∃ out' size', lzwDecode (ks ++ [k]) = .ok (out ++ out', size') ∧ out' ≠ [] ∧
      size' = min 4096 (size + 1)))

/-! ## Blocks -/

/-- R254, R255, R256: the luma; the mask compares pc · Yq with the sum S; the counts and sums are those of the pixels with mask bit 0 and 1
and add up to the block's; each triple is its group's floored mean, or the block's when the group is empty; the bounds for
a block of at most 256 pixels. -/
def Obligations.TriplesAreFlooredGroupMeans : Prop :=
  (∀ p : Rgb, luma p = 2989 * p.r.toNat + 5870 * p.g.toNat + 1140 * p.b.toNat ∧ luma p ≤ 2549745) ∧
  ∀ px : List Rgb, px ≠ [] →
    let b := analyseBlock px
    let group := fun bit : Bool => ((px.zip b.mask).filter fun q => q.2 == bit).map fun q => q.1
    b.lumaSum = (px.map luma).sum ∧ b.mask.length = px.length ∧
    (∀ t (h : t < px.length), b.mask.getD t false = decide (b.lumaSum ≤ px.length * luma px[t])) ∧
    b.n0 = (group false).length ∧ b.n1 = (group true).length ∧ b.n0 + b.n1 = px.length ∧
    b.sum0 = sumPixels (group false) ∧ b.sum1 = sumPixels (group true) ∧ b.sumAll = sumPixels px ∧
    b.sum0.r + b.sum1.r = b.sumAll.r ∧ b.sum0.g + b.sum1.g = b.sumAll.g ∧ b.sum0.b + b.sum1.b = b.sumAll.b ∧
    b.hi.r.toNat = (if 0 < b.n1 then b.sum1.r / b.n1 else b.sumAll.r / px.length) ∧
    b.hi.g.toNat = (if 0 < b.n1 then b.sum1.g / b.n1 else b.sumAll.g / px.length) ∧
    b.hi.b.toNat = (if 0 < b.n1 then b.sum1.b / b.n1 else b.sumAll.b / px.length) ∧
    b.lo.r.toNat = (if 0 < b.n0 then b.sum0.r / b.n0 else b.sumAll.r / px.length) ∧
    b.lo.g.toNat = (if 0 < b.n0 then b.sum0.g / b.n0 else b.sumAll.g / px.length) ∧
    b.lo.b.toNat = (if 0 < b.n0 then b.sum0.b / b.n0 else b.sumAll.b / px.length) ∧
    (px.length ≤ 256 → b.sumAll.r ≤ 65280 ∧ b.sumAll.g ≤ 65280 ∧ b.sumAll.b ≤ 65280 ∧ b.lumaSum ≤ 652734720 ∧
      ∀ p ∈ px, px.length * luma p ≤ 652734720)

/-- R257: (a) the high group is never empty; (b) the low group is empty exactly when all pixels have one luma, and then
lo = hi = the block mean; (c) a block of one colour has lo = hi = that colour and every mask bit 1, 32 bytes of 0xFF for a
16 × 16 block. -/
def Obligations.GroupFactsHold : Prop :=
  ∀ px : List Rgb, px ≠ [] →
    let b := analyseBlock px
    1 ≤ b.n1 ∧
    (b.n0 = 0 ↔ ∀ p ∈ px, ∀ q ∈ px, luma p = luma q) ∧
    (b.n0 = 0 → b.lo = b.hi ∧ b.lo.r.toNat = b.sumAll.r / px.length ∧ b.lo.g.toNat = b.sumAll.g / px.length ∧
      b.lo.b.toNat = b.sumAll.b / px.length) ∧
    ∀ c : Rgb, (∀ p ∈ px, p = c) → b.lo = c ∧ b.hi = c ∧ b.mask = List.replicate px.length true ∧
      (px.length = 256 → pack b.mask = List.replicate 32 0xFF)

/-- 43_block.md section 1 (R250, R251, R253, R264): the blocks of the grid partition the image's pixels: every pixel is
pixel t of exactly one block, for exactly one t, and a block has between 1 and B · B pixels. -/
def Obligations.GridPartitionsTheImage : Prop :=
  ∀ w h b : Nat, 0 < b →
    (grid w h b).Nodup ∧
    (∀ g ∈ grid w h b, 1 ≤ (blockRect w h b g).width ∧ (blockRect w h b g).width ≤ b ∧
      1 ≤ (blockRect w h b g).height ∧ (blockRect w h b g).height ≤ b ∧
      ∀ t, t < (blockRect w h b g).count → ((blockRect w h b g).pixel t).1 < w ∧ ((blockRect w h b g).pixel t).2 < h) ∧
    (∀ x y : Nat, x < w → y < h → ∃ g ∈ grid w h b, ∃ t, t < (blockRect w h b g).count ∧
      (blockRect w h b g).pixel t = (x, y) ∧
      ∀ g' ∈ grid w h b, ∀ t', t' < (blockRect w h b g').count → (blockRect w h b g').pixel t' = (x, y) → g' = g ∧ t' = t)

/-- R258, R267: a quantized payload is its blocks' records in grid order, each the low triple, the high triple and the packed
mask; its length, and the closed form for W and H multiples of 16. -/
def Obligations.QuantizedLength : Prop :=
  ∀ (img : List Byte) (w h : Nat),
    (quantize img w h = (grid w h 16).flatMap fun g =>
      [(quantBlock img w h g).lo.r, (quantBlock img w h g).lo.g, (quantBlock img w h g).lo.b,
       (quantBlock img w h g).hi.r, (quantBlock img w h g).hi.g, (quantBlock img w h g).hi.b] ++ pack (quantBlock img w h g).mask) ∧
    (quantize img w h).length = ((grid w h 16).map fun g => 6 + ceilDiv (blockRect w h 16 g).count 8).sum ∧
    (w % 16 = 0 → h % 16 = 0 → (quantize img w h).length = (w / 16) * (h / 16) * 38)

/-- R263: the reconstructor's errors, in order: B = 0; a payload shorter than the records of the grid; a longer one. A
payload of just that length reconstructs, to 3 · W · H bytes. -/
def Obligations.ReconstructorErrorsInOrder : Prop :=
  ∀ (p : List Byte) (w h b : Nat),
    (b = 0 → reconstruct p w h b = .error .invalidBlockSize) ∧
    (b ≠ 0 → p.length < ((grid w h b).map fun g => (blockRect w h b g).recordLen).sum →
      reconstruct p w h b = .error .truncatedStream) ∧
    (b ≠ 0 → ((grid w h b).map fun g => (blockRect w h b g).recordLen).sum < p.length →
      reconstruct p w h b = .error .trailingData) ∧
    (b ≠ 0 → p.length = ((grid w h b).map fun g => (blockRect w h b g).recordLen).sum →
      ∃ img, reconstruct p w h b = .ok img ∧ img.length = 3 * w * h)

/-- 43_block.md section 3 (R261, R262): record j of a payload colours the pixels of block j: pixel t gets the record's high
triple if mask bit t is 1, else the low one. -/
def Obligations.RecordsColourTheirBlocks : Prop :=
  ∀ (w h b : Nat) (recs : List (List Byte)), b ≠ 0 →
    recs.map List.length = (grid w h b).map (fun g => (blockRect w h b g).recordLen) →
    ∃ img, reconstruct recs.flatten w h b = .ok img ∧
      ∀ (j : Nat) (g : Nat × Nat) (r : List Byte), (grid w h b)[j]? = some g → recs[j]? = some r →
        ∀ t, t < (blockRect w h b g).count →
          rgbAt img (pixelOffset w ((blockRect w h b g).pixel t)) =
            if (r.getD (6 + t / 8) 0).getLsbD (7 - t % 8) then ⟨r.getD 3 0, r.getD 4 0, r.getD 5 0⟩
            else ⟨r.getD 0 0, r.getD 1 0, r.getD 2 0⟩

/-- R268: what the quantizer writes, the reconstructor reads: pixel t of each block gets hi if its mask bit is 1, else lo,
and exactly its colour in a block of one colour. -/
def Obligations.PayloadRoundTrip : Prop :=
  ∀ (img : List Byte) (w h : Nat), ∃ out, reconstruct (quantize img w h) w h 16 = .ok out ∧
    ∀ g ∈ grid w h 16, ∀ t, t < (blockRect w h 16 g).count →
      (rgbAt out (pixelOffset w ((blockRect w h 16 g).pixel t)) =
        if (quantBlock img w h g).mask.getD t false then (quantBlock img w h g).hi else (quantBlock img w h g).lo) ∧
      ∀ c : Rgb, (∀ p ∈ blockPixels img w (blockRect w h 16 g), p = c) →
        rgbAt out (pixelOffset w ((blockRect w h 16 g).pixel t)) = c

/-- R269: quantizing and reconstructing twice gives what doing it once gave, in every block in which hi = lo or the two
lumas differ; in a block with hi ≠ lo of equal luma the second pass has every mask bit 1 and one colour, and so differs;
and such a block exists. -/
def Obligations.SecondPassDiffersOnlyOnLumaTies : Prop :=
  (∀ (img : List Byte) (w h : Nat), ∃ r1 r2, reconstruct (quantize img w h) w h 16 = .ok r1 ∧
    reconstruct (quantize r1 w h) w h 16 = .ok r2 ∧
    ∀ g ∈ grid w h 16,
      ((quantBlock img w h g).hi = (quantBlock img w h g).lo ∨ luma (quantBlock img w h g).hi ≠ luma (quantBlock img w h g).lo →
        blockPixels r2 w (blockRect w h 16 g) = blockPixels r1 w (blockRect w h 16 g)) ∧
      ((quantBlock img w h g).hi ≠ (quantBlock img w h g).lo → luma (quantBlock img w h g).hi = luma (quantBlock img w h g).lo →
        (quantBlock r1 w h g).mask = List.replicate (blockRect w h 16 g).count true ∧
        (∀ p ∈ blockPixels r2 w (blockRect w h 16 g),
          p.r.toNat = (quantBlock r1 w h g).sumAll.r / (blockRect w h 16 g).count ∧
          p.g.toNat = (quantBlock r1 w h g).sumAll.g / (blockRect w h 16 g).count ∧
          p.b.toNat = (quantBlock r1 w h g).sumAll.b / (blockRect w h 16 g).count) ∧
        blockPixels r2 w (blockRect w h 16 g) ≠ blockPixels r1 w (blockRect w h 16 g))) ∧
  (quantBlock [40, 1, 29, 41, 0, 30, 0, 26, 0] 3 1 (0, 0)).hi = ⟨40, 0, 29⟩ ∧
  (quantBlock [40, 1, 29, 41, 0, 30, 0, 26, 0] 3 1 (0, 0)).lo = ⟨0, 26, 0⟩ ∧
  luma ⟨40, 0, 29⟩ = 152620 ∧ luma ⟨0, 26, 0⟩ = 152620

/-- 43_block.md section 2 (R260): BLK_QUANT of an image of the right length that fits completes with its records in DST.
The working state it leaves (`work`) is the model's inference (log 6). -/
def Obligations.BlkQuantCompletes : Prop :=
  ∀ s : State, s.rangesBacked false = true → s.rangesOk false = true → s.imgW.toNat ≤ 65535 → s.imgH.toNat ≤ 65535 →
    s.srcLen.toNat = 3 * s.imgW.toNat * s.imgH.toNat →
    ((grid s.imgW.toNat s.imgH.toNat 16).map fun g => 6 + ceilDiv (blockRect s.imgW.toNat s.imgH.toNat 16 g).count 8).sum
      ≤ s.dstCap.toNat →
    exec .blkQuant s = .next { s with
      mem := s.mem.write s.dstAddr.toNat (quantize s.srcBytes s.imgW.toNat s.imgH.toNat)
      outLen := BitVec.ofNat 32
        ((grid s.imgW.toNat s.imgH.toNat 16).map fun g => 6 + ceilDiv (blockRect s.imgW.toNat s.imgH.toNat 16 g).count 8).sum
      progress := s.srcLen, err := none, done := true, eng := .idle
      work := s.work.afterQuantize s.srcBytes s.imgW.toNat s.imgH.toNat }

/-- 43_block.md section 3 (R266): BLK_RECON of a payload that reconstructs and fits completes with the 3 · W · H bytes of the
image in DST.
The working state it leaves (`work`) is the model's inference (log 6). -/
def Obligations.BlkReconCompletes : Prop :=
  ∀ (s : State) (img : List Byte), s.rangesBacked false = true → s.rangesOk false = true → s.imgW.toNat ≤ 65535 →
    s.imgH.toNat ≤ 65535 → reconstruct s.srcBytes s.imgW.toNat s.imgH.toNat s.block.toNat = .ok img →
    3 * s.imgW.toNat * s.imgH.toNat ≤ s.dstCap.toNat →
    exec .blkRecon s = .next { s with
      mem := s.mem.write s.dstAddr.toNat img
      outLen := BitVec.ofNat 32 (3 * s.imgW.toNat * s.imgH.toNat)
      progress := s.srcLen, err := none, done := true, eng := .idle
      work := s.work.afterReconstruct s.srcBytes s.imgW.toNat s.imgH.toNat s.block.toNat }

/-! ## Containers -/

/-- 44_container.md section 1 (R292): ENC_LOSSLESS of an index image of W · H bytes that fits completes with the mode-0
stream in DST: mode 0, W, H, the palette as given, the codes.
The working state it leaves (`work`) is the model's inference (log 6). -/
def Obligations.EncLosslessCompletes : Prop :=
  ∀ s : State, s.rangesBacked true = true → s.rangesOk true = true → s.imgW.toNat ≤ 65535 → s.imgH.toNat ≤ 65535 →
    s.srcLen.toNat = s.imgW.toNat * s.imgH.toNat → 773 + 2 * (lzwEncode s.srcBytes).1.length ≤ s.dstCap.toNat →
    exec .encLossless s = .next { s with
      mem := s.mem.write s.dstAddr.toNat
        ([0, BitVec.ofNat 8 (s.imgW.toNat / 256), BitVec.ofNat 8 (s.imgW.toNat % 256),
          BitVec.ofNat 8 (s.imgH.toNat / 256), BitVec.ofNat 8 (s.imgH.toNat % 256)] ++ s.palBytes ++
          codesToBytes (lzwEncode s.srcBytes).1)
      outLen := BitVec.ofNat 32 (773 + 2 * (lzwEncode s.srcBytes).1.length)
      codeCount := BitVec.ofNat 32 (lzwEncode s.srcBytes).1.length
      dictSize := BitVec.ofNat 32 (lzwEncode s.srcBytes).2
      progress := s.srcLen, err := none, done := true, eng := .idle, work := s.work.afterEncode s.srcBytes }

/-- 44_container.md section 1 (R293): ENC_LOSSY of an RGB image of 3 · W · H bytes that fits completes with the mode-4 stream
in DST: mode 4, W, H, block size 16, the records.
The working state it leaves (`work`) is the model's inference (log 6). -/
def Obligations.EncLossyCompletes : Prop :=
  ∀ s : State, s.rangesBacked false = true → s.rangesOk false = true → s.imgW.toNat ≤ 65535 → s.imgH.toNat ≤ 65535 →
    s.srcLen.toNat = 3 * s.imgW.toNat * s.imgH.toNat →
    6 + (quantize s.srcBytes s.imgW.toNat s.imgH.toNat).length ≤ s.dstCap.toNat →
    exec .encLossy s = .next { s with
      mem := s.mem.write s.dstAddr.toNat
        ([4, BitVec.ofNat 8 (s.imgW.toNat / 256), BitVec.ofNat 8 (s.imgW.toNat % 256),
          BitVec.ofNat 8 (s.imgH.toNat / 256), BitVec.ofNat 8 (s.imgH.toNat % 256), 16] ++
          quantize s.srcBytes s.imgW.toNat s.imgH.toNat)
      outLen := BitVec.ofNat 32 (6 + (quantize s.srcBytes s.imgW.toNat s.imgH.toNat).length)
      progress := s.srcLen, err := none, done := true, eng := .idle
      work := s.work.afterQuantize s.srcBytes s.imgW.toNat s.imgH.toNat }

/-- 44_container.md section 2 (R295, R296, R300): DECODE of a mode-0 stream whose codes decode to W · H indices that fit
completes with the recoloured image in DST, OUT_W, OUT_H, CODE_COUNT, DICT_SIZE and MODE = 0.
The working state it leaves (`work`) is the model's inference (log 6). -/
def Obligations.DecodeLosslessCompletes : Prop :=
  ∀ (s : State) (idx : List Byte) (n size : Nat), s.rangesBacked false = true → s.rangesOk false = true →
    773 ≤ s.srcLen.toNat → s.srcBytes.headD 0 = 0 →
    decodeCodeStream (s.srcBytes.drop 773) = .ok (idx, n, size) →
    idx.length = rd16 s.srcBytes 1 * rd16 s.srcBytes 3 → 3 * idx.length ≤ s.dstCap.toNat →
    exec .decode s = .next { s with
      mem := s.mem.write s.dstAddr.toNat (idx.flatMap fun i =>
        [s.srcBytes.getD (5 + 3 * i.toNat) 0, s.srcBytes.getD (5 + 3 * i.toNat + 1) 0, s.srcBytes.getD (5 + 3 * i.toNat + 2) 0])
      outLen := BitVec.ofNat 32 (3 * rd16 s.srcBytes 1 * rd16 s.srcBytes 3)
      outW := BitVec.ofNat 32 (rd16 s.srcBytes 1), outH := BitVec.ofNat 32 (rd16 s.srcBytes 3)
      codeCount := BitVec.ofNat 32 n, dictSize := BitVec.ofNat 32 size, mode := 0
      progress := s.srcLen, err := none, done := true, eng := .idle
      work := s.work.afterParse (s.srcBytes.drop 773) }

/-- 44_container.md section 2 (R297, R300): DECODE of a mode-4 stream whose records reconstruct an image that fits completes
with the image in DST, OUT_W, OUT_H and MODE = 4.
The working state it leaves (`work`) is the model's inference (log 6). -/
def Obligations.DecodeLossyCompletes : Prop :=
  ∀ (s : State) (rgb : List Byte), s.rangesBacked false = true → s.rangesOk false = true →
    6 ≤ s.srcLen.toNat → s.srcBytes.headD 0 = 4 →
    reconstruct (s.srcBytes.drop 6) (rd16 s.srcBytes 1) (rd16 s.srcBytes 3) (s.srcBytes.getD 5 0).toNat = .ok rgb →
    3 * rd16 s.srcBytes 1 * rd16 s.srcBytes 3 ≤ s.dstCap.toNat →
    exec .decode s = .next { s with
      mem := s.mem.write s.dstAddr.toNat rgb
      outLen := BitVec.ofNat 32 (3 * rd16 s.srcBytes 1 * rd16 s.srcBytes 3)
      outW := BitVec.ofNat 32 (rd16 s.srcBytes 1), outH := BitVec.ofNat 32 (rd16 s.srcBytes 3), mode := 4
      progress := s.srcLen, err := none, done := true, eng := .idle
      work := s.work.afterReconstruct (s.srcBytes.drop 6) (rd16 s.srcBytes 1) (rd16 s.srcBytes 3)
        (s.srcBytes.getD 5 0).toNat }

/-- R298: DECODE's errors in their order, and OUTPUT_OVERFLOW last. -/
def Obligations.DecodeErrorsInOrder : Prop :=
  (∀ s : List Byte, s.length = 0 → decodeStream s = .error .truncatedStream) ∧
  (∀ (m : Byte) (r : List Byte), m ≠ 0 → m ≠ 4 → decodeStream (m :: r) = .error .unrecognizedMode) ∧
  (∀ r : List Byte, let s : List Byte := 0 :: r
    (s.length < 773 → decodeStream s = .error .truncatedStream) ∧
    (773 ≤ s.length → s.length - 773 = 0 ∨ (s.length - 773) % 2 = 1 → decodeStream s = .error .truncatedStream) ∧
    (∀ codes, 773 ≤ s.length → parseCodes (s.drop 773) = .ok codes → lzwDecode codes = .error .invalidCode →
      decodeStream s = .error .invalidCode) ∧
    (∀ codes out size, 773 ≤ s.length → parseCodes (s.drop 773) = .ok codes → lzwDecode codes = .ok (out, size) →
      out.length ≠ rd16 s 1 * rd16 s 3 → decodeStream s = .error .sizeMismatch)) ∧
  (∀ r : List Byte, let s : List Byte := 4 :: r
    (s.length < 6 → decodeStream s = .error .truncatedStream) ∧
    (6 ≤ s.length → s.getD 5 0 = 0 → decodeStream s = .error .invalidBlockSize) ∧
    (6 ≤ s.length → s.getD 5 0 ≠ 0 →
      (s.length - 6 < ((grid (rd16 s 1) (rd16 s 3) (s.getD 5 0).toNat).map fun g =>
        (blockRect (rd16 s 1) (rd16 s 3) (s.getD 5 0).toNat g).recordLen).sum → decodeStream s = .error .truncatedStream) ∧
      (((grid (rd16 s 1) (rd16 s 3) (s.getD 5 0).toNat).map fun g =>
        (blockRect (rd16 s 1) (rd16 s 3) (s.getD 5 0).toNat g).recordLen).sum < s.length - 6 →
        decodeStream s = .error .trailingData))) ∧
  (∀ (s : State) (out : List Byte) (info : Info), s.ready .decode → decodeStream s.srcBytes = .ok (out, info) →
    out.length = 3 * rd16 s.srcBytes 1 * rd16 s.srcBytes 3 ∧
    (s.dstCap.toNat < 3 * rd16 s.srcBytes 1 * rd16 s.srcBytes 3 →
      ∃ t, exec .decode s = .next t ∧ t.err = some .outputOverflow))

/-- 44_container.md section 2 (R300): a DECODE whose early checks pass leaves in STATUS.MODE the first source byte, or 0 when
there is none, on success and on error; one that fails an early check leaves MODE. -/
def Obligations.DecodeRecordsTheModeByte : Prop :=
  ∀ (s t : State), exec .decode s = .next t →
    (s.earlyError (Instr.decode.checks s) = none →
      t.mode = if 1 ≤ s.srcLen.toNat then s.mem.readByte s.srcAddr.toNat else 0) ∧
    (∀ k, s.earlyError (Instr.decode.checks s) = some k → t.mode = s.mode ∧ t.err = some k)

/-- R301: the lossless stream is 773 + 2 · CODE_COUNT bytes long, the lossy one 6 + Σ (6 + ceil(pc / 8)). -/
def Obligations.ContainerLengths : Prop :=
  (∀ s t : State, exec .encLossless s = .next t → t.err = none → t.outLen.toNat = 773 + 2 * t.codeCount.toNat) ∧
  (∀ s t : State, exec .encLossy s = .next t → t.err = none →
    t.outLen.toNat = 6 + ((grid s.imgW.toNat s.imgH.toNat 16).map fun g =>
      6 + ceilDiv (blockRect s.imgW.toNat s.imgH.toNat 16 g).count 8).sum)

/-- R302: what ENC_LOSSLESS frames DECODE parses to the recoloured image, for W · H ≥ 1; for W · H = 0 it is
TRUNCATED_STREAM; what ENC_LOSSY frames DECODE parses to the reconstruction. -/
def Obligations.ContainerRoundTrips : Prop :=
  (∀ (w h : Nat) (idx pal : List Byte), w ≤ 65535 → h ≤ 65535 → idx.length = w * h → pal.length = 768 →
    (1 ≤ w * h → decodeStream (frameLossless w h pal (lzwEncode idx).1) =
      .ok (recolor idx pal, { outW := some w, outH := some h, codeCount := some (lzwEncode idx).1.length,
                              dictSize := some (lzwEncode idx).2 })) ∧
    (w * h = 0 → decodeStream (frameLossless w h pal (lzwEncode idx).1) = .error .truncatedStream)) ∧
  (∀ (w h : Nat) (img : List Byte), w ≤ 65535 → h ≤ 65535 →
    ∃ rgb, reconstruct (quantize img w h) w h 16 = .ok rgb ∧
      decodeStream (frameLossy w h (quantize img w h)) = .ok (rgb, { outW := some w, outH := some h }))
end

