-- ==== Sys2Proof/Laws/Memory.lean ====
section
/-! SUPPORT. The laws of the buffer memory: read after write, a write leaves every other address alone, every
operation keeps the canonical form, and canonical memories that read alike are equal. -/

namespace Sys2Proof.Machine

@[simp] theorem Memory.readByte_nil (a : Nat) : Memory.readByte [] a = Memory.unlisted := rfl

theorem Memory.readByte_cons (k : Nat) (v : Byte) (m : Memory) (a : Nat) :
    Memory.readByte ((k, v) :: m) a = if a = k then v else Memory.readByte m a := rfl

/-- A canonical memory that starts at or above `lo` also starts at or above anything lower. -/
theorem Memory.wfFrom_mono {lo lo' : Nat} {m : Memory} (h : lo' ≤ lo) (hm : Memory.wfFrom lo m = true) :
    Memory.wfFrom lo' m = true := by
  cases m with
  | nil => rfl
  | cons kv m =>
    obtain ⟨k, v⟩ := kv
    simp only [Memory.wfFrom, Bool.and_eq_true, decide_eq_true_eq] at hm ⊢
    exact ⟨⟨⟨by omega, hm.1.1.2⟩, hm.1.2⟩, hm.2⟩

/-- Below its first listed address a canonical memory reads as unlisted. -/
theorem Memory.readByte_below {lo a : Nat} {m : Memory} (hm : Memory.wfFrom lo m = true) (ha : a < lo) :
    Memory.readByte m a = Memory.unlisted := by
  induction m generalizing lo with
  | nil => rfl
  | cons kv m ih =>
    obtain ⟨k, v⟩ := kv
    simp only [Memory.wfFrom, Bool.and_eq_true, decide_eq_true_eq] at hm
    rw [Memory.readByte_cons, if_neg (by omega)]
    exact ih hm.2 (by omega)

/-- A write leaves every other address alone, in any memory. -/
theorem Memory.readByte_writeByte_ne {m : Memory} {a a' : Nat} {b : Byte} (h : a' ≠ a) :
    (m.writeByte a b).readByte a' = m.readByte a' := by
  induction m with
  | nil => by_cases hb : b = Memory.unlisted <;> simp [Memory.writeByte, hb, Memory.readByte, h]
  | cons kv m ih =>
    obtain ⟨k, v⟩ := kv
    simp only [Memory.writeByte]
    split
    · split
      · rfl
      · rw [Memory.readByte_cons, if_neg h]
    · split
      · rename_i hk; subst hk
        split
        · rw [Memory.readByte_cons, if_neg h]
        · simp only [Memory.readByte_cons, if_neg h]
      · simp only [Memory.readByte_cons, ih]

/-- A canonical memory reads back what was written. -/
theorem Memory.readByte_writeByte_self {lo : Nat} {m : Memory} {a : Nat} {b : Byte} (hm : Memory.wfFrom lo m = true) :
    (m.writeByte a b).readByte a = b := by
  induction m generalizing lo with
  | nil => by_cases hb : b = Memory.unlisted <;> simp [Memory.writeByte, hb, Memory.readByte]
  | cons kv m ih =>
    obtain ⟨k, v⟩ := kv
    simp only [Memory.wfFrom, Bool.and_eq_true, decide_eq_true_eq] at hm
    simp only [Memory.writeByte]
    split
    · split
      · rename_i hk hb
        rw [Memory.readByte_cons, if_neg (by omega), Memory.readByte_below hm.2 (by omega), hb]
      · rw [Memory.readByte_cons, if_pos rfl]
    · split
      · rename_i hk; subst hk
        split
        · rename_i hb; rw [Memory.readByte_below hm.2 (by omega), hb]
        · rw [Memory.readByte_cons, if_pos rfl]
      · rename_i hk hk'
        rw [Memory.readByte_cons, if_neg (Ne.symm (by omega)), ih hm.2]

theorem Memory.writeByte_wfFrom {lo : Nat} {m : Memory} {a : Nat} {b : Byte} (hm : Memory.wfFrom lo m = true) (hlo : lo ≤ a)
    (ha : a < Config.addrSpace) : Memory.wfFrom lo (m.writeByte a b) = true := by
  induction m generalizing lo with
  | nil => by_cases hb : b = Memory.unlisted <;> simp_all [Memory.writeByte, Memory.wfFrom]
  | cons kv m ih =>
    obtain ⟨k, v⟩ := kv
    have hm' := hm
    simp only [Memory.wfFrom, Bool.and_eq_true, decide_eq_true_eq] at hm
    obtain ⟨⟨⟨h1, h2⟩, h3⟩, h4⟩ := hm
    simp only [Memory.writeByte]
    split
    · split
      · exact hm'
      · rename_i hk hb
        simp only [Memory.wfFrom, Bool.and_eq_true, decide_eq_true_eq]
        exact ⟨⟨⟨hlo, ha⟩, hb⟩, ⟨⟨by omega, h2⟩, h3⟩, h4⟩
    · split
      · rename_i hk; subst hk
        split
        · exact Memory.wfFrom_mono (by omega) h4
        · rename_i hb
          simp only [Memory.wfFrom, Bool.and_eq_true, decide_eq_true_eq]
          exact ⟨⟨⟨h1, h2⟩, hb⟩, h4⟩
      · simp only [Memory.wfFrom, Bool.and_eq_true, decide_eq_true_eq]
        exact ⟨⟨⟨h1, h2⟩, h3⟩, ih h4 (by omega)⟩

/-- A byte write inside the address space keeps the canonical form. -/
theorem Memory.writeByte_wf {m : Memory} {a : Nat} {b : Byte} (hm : m.wf = true) (ha : a < Config.addrSpace) :
    (m.writeByte a b).wf = true := Memory.writeByte_wfFrom hm (Nat.zero_le _) ha

/-- Read after write of one byte, in a canonical memory. -/
theorem Memory.readByte_writeByte {m : Memory} {a a' : Nat} {b : Byte} (hm : m.wf = true) :
    (m.writeByte a b).readByte a' = if a' = a then b else m.readByte a' := by
  split
  · rename_i h; subst h; exact Memory.readByte_writeByte_self hm
  · exact Memory.readByte_writeByte_ne ‹_›

@[simp] theorem Memory.write_nil (m : Memory) (a : Nat) : m.write a [] = m := rfl

@[simp] theorem Memory.write_cons (m : Memory) (a : Nat) (b : Byte) (bs : List Byte) :
    m.write a (b :: bs) = (m.writeByte a b).write (a + 1) bs := rfl

/-- A range write inside the address space keeps the canonical form. -/
theorem Memory.write_wf {m : Memory} {a : Nat} {bs : List Byte} (hm : m.wf = true) (h : a + bs.length ≤ Config.addrSpace) :
    (m.write a bs).wf = true := by
  induction bs generalizing m a with
  | nil => exact hm
  | cons b bs ih =>
    rw [List.length_cons] at h
    exact ih (Memory.writeByte_wf hm (by omega)) (by omega)

/-- A range write changes no other address, in any memory (20_memory.md R83). -/
theorem Memory.readByte_write_outside {m : Memory} {a a' : Nat} {bs : List Byte} (h : a' < a ∨ a + bs.length ≤ a') :
    (m.write a bs).readByte a' = m.readByte a' := by
  induction bs generalizing m a with
  | nil => rfl
  | cons b bs ih =>
    rw [List.length_cons] at h
    rw [Memory.write_cons, ih (by omega), Memory.readByte_writeByte_ne (by omega)]

/-- A range write puts byte `i` at address `a + i`, in a canonical memory (R83). -/
theorem Memory.readByte_write_inside {m : Memory} {a i : Nat} {bs : List Byte} (hm : m.wf = true)
    (h : a + bs.length ≤ Config.addrSpace) (hi : i < bs.length) : (m.write a bs).readByte (a + i) = bs[i] := by
  induction bs generalizing m a i with
  | nil => simp at hi
  | cons b bs ih =>
    rw [List.length_cons] at h hi
    have hw := Memory.writeByte_wf (b := b) hm (show a < Config.addrSpace by omega)
    cases i with
    | zero =>
      rw [Memory.write_cons, Memory.readByte_write_outside (by omega), Nat.add_zero, Memory.readByte_writeByte_self hm]
      rfl
    | succ i =>
      rw [Memory.write_cons, show a + (i + 1) = a + 1 + i by omega, ih hw (by omega) (by omega)]
      rfl

@[simp] theorem Memory.read_length (m : Memory) (a n : Nat) : (m.read a n).length = n := by simp [Memory.read]

@[simp] theorem Memory.read_zero (m : Memory) (a : Nat) : m.read a 0 = [] := rfl

theorem Memory.read_getElem (m : Memory) (a n i : Nat) (h : i < (m.read a n).length) :
    (m.read a n)[i] = m.readByte (a + i) := by simp [Memory.read]

/-- A range reads alike in two memories that agree on its addresses. -/
theorem Memory.read_congr {m m' : Memory} {a n : Nat} (h : ∀ i, i < n → m.readByte (a + i) = m'.readByte (a + i)) :
    m.read a n = m'.read a n := by
  unfold Memory.read
  exact List.map_congr_left fun i hi => h i (List.mem_range.1 hi)

/-- `MemRead` of what `MemWrite` wrote (R82, R83). -/
theorem Memory.read_write {m : Memory} {a : Nat} {bs : List Byte} (hm : m.wf = true) (h : a + bs.length ≤ Config.addrSpace) :
    (m.write a bs).read a bs.length = bs := by
  apply List.ext_getElem (by simp)
  intro i h1 h2
  rw [Memory.read_getElem, Memory.readByte_write_inside hm h h2]

theorem Memory.ext_from {lo : Nat} {m m' : Memory} (hm : Memory.wfFrom lo m = true) (hm' : Memory.wfFrom lo m' = true)
    (h : ∀ a, m.readByte a = m'.readByte a) : m = m' := by
  induction m generalizing lo m' with
  | nil =>
    cases m' with
    | nil => rfl
    | cons kv m' =>
      obtain ⟨k, v⟩ := kv
      have := h k
      rw [Memory.readByte_cons, if_pos rfl] at this
      simp only [Memory.wfFrom, Bool.and_eq_true, decide_eq_true_eq] at hm'
      exact absurd this.symm hm'.1.2
  | cons kv m ih =>
    obtain ⟨k, v⟩ := kv
    simp only [Memory.wfFrom, Bool.and_eq_true, decide_eq_true_eq] at hm
    cases m' with
    | nil =>
      have := h k
      rw [Memory.readByte_cons, if_pos rfl] at this
      exact absurd this hm.1.2
    | cons kv' m' =>
      obtain ⟨k', v'⟩ := kv'
      simp only [Memory.wfFrom, Bool.and_eq_true, decide_eq_true_eq] at hm'
      have hk : k = k' := by
        rcases Nat.lt_trichotomy k k' with hlt | heq | hgt
        · have := h k
          rw [Memory.readByte_cons, if_pos rfl, Memory.readByte_cons, if_neg (by omega),
            Memory.readByte_below hm'.2 (by omega)] at this
          exact absurd this hm.1.2
        · exact heq
        · have := h k'
          rw [Memory.readByte_cons, if_neg (by omega), Memory.readByte_below hm.2 (by omega), Memory.readByte_cons,
            if_pos rfl] at this
          exact absurd this.symm hm'.1.2
      subst hk
      have hv : v = v' := by simpa [Memory.readByte] using h k
      subst hv
      refine congrArg _ (ih hm.2 hm'.2 fun a => ?_)
      by_cases ha : a = k
      · subst ha; rw [Memory.readByte_below hm.2 (by omega), Memory.readByte_below hm'.2 (by omega)]
      · simpa [Memory.readByte, ha] using h a

/-- Canonical memories that read alike at every address are equal. -/
theorem Memory.ext_of_wf {m m' : Memory} (hm : m.wf = true) (hm' : m'.wf = true)
    (h : ∀ a, m.readByte a = m'.readByte a) : m = m' := Memory.ext_from hm hm' h

end Sys2Proof.Machine
end

