-- ==== Sys2Proof/Laws/State.lean ====
section
/-! SUPPORT. One lemma for each field after each named update of the state, true by rfl, so that no later proof unfolds
a record update. -/

namespace Sys2Proof.Machine

/-! The fields after a start (40_common.md R161). -/

@[simp] theorem State.start_rst (s : State) (v : Word) : (s.start v).rst = s.rst := rfl
@[simp] theorem State.start_irqEn (s : State) (v : Word) : (s.start v).irqEn = s.irqEn := rfl
@[simp] theorem State.start_cmd (s : State) (v : Word) : (s.start v).cmd = v := rfl
@[simp] theorem State.start_eng (s : State) (v : Word) : (s.start v).eng = .busy := rfl
@[simp] theorem State.start_done (s : State) (v : Word) : (s.start v).done = false := rfl
@[simp] theorem State.start_err (s : State) (v : Word) : (s.start v).err = none := rfl
@[simp] theorem State.start_mode (s : State) (v : Word) : (s.start v).mode = s.mode := rfl
@[simp] theorem State.start_srcAddr (s : State) (v : Word) : (s.start v).srcAddr = s.srcAddr := rfl
@[simp] theorem State.start_srcLen (s : State) (v : Word) : (s.start v).srcLen = s.srcLen := rfl
@[simp] theorem State.start_dstAddr (s : State) (v : Word) : (s.start v).dstAddr = s.dstAddr := rfl
@[simp] theorem State.start_dstCap (s : State) (v : Word) : (s.start v).dstCap = s.dstCap := rfl
@[simp] theorem State.start_palAddr (s : State) (v : Word) : (s.start v).palAddr = s.palAddr := rfl
@[simp] theorem State.start_imgW (s : State) (v : Word) : (s.start v).imgW = s.imgW := rfl
@[simp] theorem State.start_imgH (s : State) (v : Word) : (s.start v).imgH = s.imgH := rfl
@[simp] theorem State.start_block (s : State) (v : Word) : (s.start v).block = s.block := rfl
@[simp] theorem State.start_limit (s : State) (v : Word) : (s.start v).limit = s.limit := rfl
@[simp] theorem State.start_outLen (s : State) (v : Word) : (s.start v).outLen = 0 := rfl
@[simp] theorem State.start_outW (s : State) (v : Word) : (s.start v).outW = 0 := rfl
@[simp] theorem State.start_outH (s : State) (v : Word) : (s.start v).outH = 0 := rfl
@[simp] theorem State.start_progress (s : State) (v : Word) : (s.start v).progress = 0 := rfl
@[simp] theorem State.start_codeCount (s : State) (v : Word) : (s.start v).codeCount = 0 := rfl
@[simp] theorem State.start_dictSize (s : State) (v : Word) : (s.start v).dictSize = 0 := rfl
@[simp] theorem State.start_work (s : State) (v : Word) : (s.start v).work = Work.initial := rfl
@[simp] theorem State.start_mem (s : State) (v : Word) : (s.start v).mem = s.mem := rfl
@[simp] theorem State.start_platform (s : State) (v : Word) : (s.start v).platform = s.platform := rfl
@[simp] theorem State.start_moves (s : State) (v : Word) : (s.start v).moves = s.moves := rfl
@[simp] theorem State.start_busData (s : State) (v : Word) : (s.start v).busData = s.busData := rfl
@[simp] theorem State.start_draws (s : State) (v : Word) : (s.start v).draws = s.draws := rfl

/-! The fields after the write to STATUS (10_state.md R37). -/

@[simp] theorem State.acknowledge_rst (s : State) (v : Word) : (s.acknowledge v).rst = s.rst := rfl
@[simp] theorem State.acknowledge_irqEn (s : State) (v : Word) : (s.acknowledge v).irqEn = s.irqEn := rfl
@[simp] theorem State.acknowledge_cmd (s : State) (v : Word) : (s.acknowledge v).cmd = s.cmd := rfl
@[simp] theorem State.acknowledge_eng (s : State) (v : Word) : (s.acknowledge v).eng = s.eng := rfl
@[simp] theorem State.acknowledge_done (s : State) (v : Word) : (s.acknowledge v).done = if v.getLsbD 1 then false else s.done := rfl
@[simp] theorem State.acknowledge_err (s : State) (v : Word) : (s.acknowledge v).err = s.err := rfl
@[simp] theorem State.acknowledge_mode (s : State) (v : Word) : (s.acknowledge v).mode = s.mode := rfl
@[simp] theorem State.acknowledge_srcAddr (s : State) (v : Word) : (s.acknowledge v).srcAddr = s.srcAddr := rfl
@[simp] theorem State.acknowledge_srcLen (s : State) (v : Word) : (s.acknowledge v).srcLen = s.srcLen := rfl
@[simp] theorem State.acknowledge_dstAddr (s : State) (v : Word) : (s.acknowledge v).dstAddr = s.dstAddr := rfl
@[simp] theorem State.acknowledge_dstCap (s : State) (v : Word) : (s.acknowledge v).dstCap = s.dstCap := rfl
@[simp] theorem State.acknowledge_palAddr (s : State) (v : Word) : (s.acknowledge v).palAddr = s.palAddr := rfl
@[simp] theorem State.acknowledge_imgW (s : State) (v : Word) : (s.acknowledge v).imgW = s.imgW := rfl
@[simp] theorem State.acknowledge_imgH (s : State) (v : Word) : (s.acknowledge v).imgH = s.imgH := rfl
@[simp] theorem State.acknowledge_block (s : State) (v : Word) : (s.acknowledge v).block = s.block := rfl
@[simp] theorem State.acknowledge_limit (s : State) (v : Word) : (s.acknowledge v).limit = s.limit := rfl
@[simp] theorem State.acknowledge_outLen (s : State) (v : Word) : (s.acknowledge v).outLen = s.outLen := rfl
@[simp] theorem State.acknowledge_outW (s : State) (v : Word) : (s.acknowledge v).outW = s.outW := rfl
@[simp] theorem State.acknowledge_outH (s : State) (v : Word) : (s.acknowledge v).outH = s.outH := rfl
@[simp] theorem State.acknowledge_progress (s : State) (v : Word) : (s.acknowledge v).progress = s.progress := rfl
@[simp] theorem State.acknowledge_codeCount (s : State) (v : Word) : (s.acknowledge v).codeCount = s.codeCount := rfl
@[simp] theorem State.acknowledge_dictSize (s : State) (v : Word) : (s.acknowledge v).dictSize = s.dictSize := rfl
@[simp] theorem State.acknowledge_work (s : State) (v : Word) : (s.acknowledge v).work = s.work := rfl
@[simp] theorem State.acknowledge_mem (s : State) (v : Word) : (s.acknowledge v).mem = s.mem := rfl
@[simp] theorem State.acknowledge_platform (s : State) (v : Word) : (s.acknowledge v).platform = s.platform := rfl
@[simp] theorem State.acknowledge_moves (s : State) (v : Word) : (s.acknowledge v).moves = s.moves := rfl
@[simp] theorem State.acknowledge_busData (s : State) (v : Word) : (s.acknowledge v).busData = s.busData := rfl
@[simp] theorem State.acknowledge_draws (s : State) (v : Word) : (s.acknowledge v).draws = s.draws := rfl

/-! The fields after a successful completion (R166). -/

@[simp] theorem State.succeed_rst (s : State) (out : List Byte) (info : Info) : (s.succeed out info).rst = s.rst := rfl
@[simp] theorem State.succeed_irqEn (s : State) (out : List Byte) (info : Info) : (s.succeed out info).irqEn = s.irqEn := rfl
@[simp] theorem State.succeed_cmd (s : State) (out : List Byte) (info : Info) : (s.succeed out info).cmd = s.cmd := rfl
@[simp] theorem State.succeed_eng (s : State) (out : List Byte) (info : Info) : (s.succeed out info).eng = .idle := rfl
@[simp] theorem State.succeed_done (s : State) (out : List Byte) (info : Info) : (s.succeed out info).done = true := rfl
@[simp] theorem State.succeed_err (s : State) (out : List Byte) (info : Info) : (s.succeed out info).err = none := rfl
@[simp] theorem State.succeed_mode (s : State) (out : List Byte) (info : Info) : (s.succeed out info).mode = s.mode := rfl
@[simp] theorem State.succeed_srcAddr (s : State) (out : List Byte) (info : Info) : (s.succeed out info).srcAddr = s.srcAddr := rfl
@[simp] theorem State.succeed_srcLen (s : State) (out : List Byte) (info : Info) : (s.succeed out info).srcLen = s.srcLen := rfl
@[simp] theorem State.succeed_dstAddr (s : State) (out : List Byte) (info : Info) : (s.succeed out info).dstAddr = s.dstAddr := rfl
@[simp] theorem State.succeed_dstCap (s : State) (out : List Byte) (info : Info) : (s.succeed out info).dstCap = s.dstCap := rfl
@[simp] theorem State.succeed_palAddr (s : State) (out : List Byte) (info : Info) : (s.succeed out info).palAddr = s.palAddr := rfl
@[simp] theorem State.succeed_imgW (s : State) (out : List Byte) (info : Info) : (s.succeed out info).imgW = s.imgW := rfl
@[simp] theorem State.succeed_imgH (s : State) (out : List Byte) (info : Info) : (s.succeed out info).imgH = s.imgH := rfl
@[simp] theorem State.succeed_block (s : State) (out : List Byte) (info : Info) : (s.succeed out info).block = s.block := rfl
@[simp] theorem State.succeed_limit (s : State) (out : List Byte) (info : Info) : (s.succeed out info).limit = s.limit := rfl
@[simp] theorem State.succeed_outLen (s : State) (out : List Byte) (info : Info) : (s.succeed out info).outLen = BitVec.ofNat 32 out.length := rfl
@[simp] theorem State.succeed_outW (s : State) (out : List Byte) (info : Info) : (s.succeed out info).outW = infoReg info.outW s.outW := rfl
@[simp] theorem State.succeed_outH (s : State) (out : List Byte) (info : Info) : (s.succeed out info).outH = infoReg info.outH s.outH := rfl
@[simp] theorem State.succeed_progress (s : State) (out : List Byte) (info : Info) : (s.succeed out info).progress = s.srcLen := rfl
@[simp] theorem State.succeed_codeCount (s : State) (out : List Byte) (info : Info) : (s.succeed out info).codeCount = infoReg info.codeCount s.codeCount := rfl
@[simp] theorem State.succeed_dictSize (s : State) (out : List Byte) (info : Info) : (s.succeed out info).dictSize = infoReg info.dictSize s.dictSize := rfl
@[simp] theorem State.succeed_work (s : State) (out : List Byte) (info : Info) : (s.succeed out info).work = s.work := rfl
@[simp] theorem State.succeed_mem (s : State) (out : List Byte) (info : Info) : (s.succeed out info).mem = s.mem.write s.dstAddr.toNat out := rfl
@[simp] theorem State.succeed_platform (s : State) (out : List Byte) (info : Info) : (s.succeed out info).platform = s.platform := rfl
@[simp] theorem State.succeed_moves (s : State) (out : List Byte) (info : Info) : (s.succeed out info).moves = s.moves := rfl
@[simp] theorem State.succeed_busData (s : State) (out : List Byte) (info : Info) : (s.succeed out info).busData = s.busData := rfl
@[simp] theorem State.succeed_draws (s : State) (out : List Byte) (info : Info) : (s.succeed out info).draws = s.draws := rfl

/-! The fields after an error completion (R166). -/

@[simp] theorem State.raise_rst (s : State) (k : ErrorKind) (n : Word) : (s.raise k n).rst = s.rst := rfl
@[simp] theorem State.raise_irqEn (s : State) (k : ErrorKind) (n : Word) : (s.raise k n).irqEn = s.irqEn := rfl
@[simp] theorem State.raise_cmd (s : State) (k : ErrorKind) (n : Word) : (s.raise k n).cmd = s.cmd := rfl
@[simp] theorem State.raise_eng (s : State) (k : ErrorKind) (n : Word) : (s.raise k n).eng = .idle := rfl
@[simp] theorem State.raise_done (s : State) (k : ErrorKind) (n : Word) : (s.raise k n).done = true := rfl
@[simp] theorem State.raise_err (s : State) (k : ErrorKind) (n : Word) : (s.raise k n).err = some k := rfl
@[simp] theorem State.raise_mode (s : State) (k : ErrorKind) (n : Word) : (s.raise k n).mode = s.mode := rfl
@[simp] theorem State.raise_srcAddr (s : State) (k : ErrorKind) (n : Word) : (s.raise k n).srcAddr = s.srcAddr := rfl
@[simp] theorem State.raise_srcLen (s : State) (k : ErrorKind) (n : Word) : (s.raise k n).srcLen = s.srcLen := rfl
@[simp] theorem State.raise_dstAddr (s : State) (k : ErrorKind) (n : Word) : (s.raise k n).dstAddr = s.dstAddr := rfl
@[simp] theorem State.raise_dstCap (s : State) (k : ErrorKind) (n : Word) : (s.raise k n).dstCap = s.dstCap := rfl
@[simp] theorem State.raise_palAddr (s : State) (k : ErrorKind) (n : Word) : (s.raise k n).palAddr = s.palAddr := rfl
@[simp] theorem State.raise_imgW (s : State) (k : ErrorKind) (n : Word) : (s.raise k n).imgW = s.imgW := rfl
@[simp] theorem State.raise_imgH (s : State) (k : ErrorKind) (n : Word) : (s.raise k n).imgH = s.imgH := rfl
@[simp] theorem State.raise_block (s : State) (k : ErrorKind) (n : Word) : (s.raise k n).block = s.block := rfl
@[simp] theorem State.raise_limit (s : State) (k : ErrorKind) (n : Word) : (s.raise k n).limit = s.limit := rfl
@[simp] theorem State.raise_outLen (s : State) (k : ErrorKind) (n : Word) : (s.raise k n).outLen = n := rfl
@[simp] theorem State.raise_outW (s : State) (k : ErrorKind) (n : Word) : (s.raise k n).outW = s.outW := rfl
@[simp] theorem State.raise_outH (s : State) (k : ErrorKind) (n : Word) : (s.raise k n).outH = s.outH := rfl
@[simp] theorem State.raise_progress (s : State) (k : ErrorKind) (n : Word) : (s.raise k n).progress = drawBetween s.draws 0 s.srcLen := rfl
@[simp] theorem State.raise_codeCount (s : State) (k : ErrorKind) (n : Word) : (s.raise k n).codeCount = s.codeCount := rfl
@[simp] theorem State.raise_dictSize (s : State) (k : ErrorKind) (n : Word) : (s.raise k n).dictSize = s.dictSize := rfl
@[simp] theorem State.raise_work (s : State) (k : ErrorKind) (n : Word) : (s.raise k n).work = s.work := rfl
@[simp] theorem State.raise_mem (s : State) (k : ErrorKind) (n : Word) : (s.raise k n).mem = s.mem := rfl
@[simp] theorem State.raise_platform (s : State) (k : ErrorKind) (n : Word) : (s.raise k n).platform = s.platform := rfl
@[simp] theorem State.raise_moves (s : State) (k : ErrorKind) (n : Word) : (s.raise k n).moves = s.moves := rfl
@[simp] theorem State.raise_busData (s : State) (k : ErrorKind) (n : Word) : (s.raise k n).busData = s.busData := rfl
@[simp] theorem State.raise_draws (s : State) (k : ErrorKind) (n : Word) : (s.raise k n).draws = s.draws + 1 := rfl

/-! The fields after what a transform leaves (R166, R300). -/

@[simp] theorem State.note_rst (s : State) (t : Transform) : (s.note t).rst = s.rst := rfl
@[simp] theorem State.note_irqEn (s : State) (t : Transform) : (s.note t).irqEn = s.irqEn := rfl
@[simp] theorem State.note_cmd (s : State) (t : Transform) : (s.note t).cmd = s.cmd := rfl
@[simp] theorem State.note_eng (s : State) (t : Transform) : (s.note t).eng = s.eng := rfl
@[simp] theorem State.note_done (s : State) (t : Transform) : (s.note t).done = s.done := rfl
@[simp] theorem State.note_err (s : State) (t : Transform) : (s.note t).err = s.err := rfl
@[simp] theorem State.note_mode (s : State) (t : Transform) : (s.note t).mode = t.mode.getD s.mode := rfl
@[simp] theorem State.note_srcAddr (s : State) (t : Transform) : (s.note t).srcAddr = s.srcAddr := rfl
@[simp] theorem State.note_srcLen (s : State) (t : Transform) : (s.note t).srcLen = s.srcLen := rfl
@[simp] theorem State.note_dstAddr (s : State) (t : Transform) : (s.note t).dstAddr = s.dstAddr := rfl
@[simp] theorem State.note_dstCap (s : State) (t : Transform) : (s.note t).dstCap = s.dstCap := rfl
@[simp] theorem State.note_palAddr (s : State) (t : Transform) : (s.note t).palAddr = s.palAddr := rfl
@[simp] theorem State.note_imgW (s : State) (t : Transform) : (s.note t).imgW = s.imgW := rfl
@[simp] theorem State.note_imgH (s : State) (t : Transform) : (s.note t).imgH = s.imgH := rfl
@[simp] theorem State.note_block (s : State) (t : Transform) : (s.note t).block = s.block := rfl
@[simp] theorem State.note_limit (s : State) (t : Transform) : (s.note t).limit = s.limit := rfl
@[simp] theorem State.note_outLen (s : State) (t : Transform) : (s.note t).outLen = s.outLen := rfl
@[simp] theorem State.note_outW (s : State) (t : Transform) : (s.note t).outW = s.outW := rfl
@[simp] theorem State.note_outH (s : State) (t : Transform) : (s.note t).outH = s.outH := rfl
@[simp] theorem State.note_progress (s : State) (t : Transform) : (s.note t).progress = s.progress := rfl
@[simp] theorem State.note_codeCount (s : State) (t : Transform) : (s.note t).codeCount = s.codeCount := rfl
@[simp] theorem State.note_dictSize (s : State) (t : Transform) : (s.note t).dictSize = s.dictSize := rfl
@[simp] theorem State.note_work (s : State) (t : Transform) : (s.note t).work = t.work := rfl
@[simp] theorem State.note_mem (s : State) (t : Transform) : (s.note t).mem = s.mem := rfl
@[simp] theorem State.note_platform (s : State) (t : Transform) : (s.note t).platform = s.platform := rfl
@[simp] theorem State.note_moves (s : State) (t : Transform) : (s.note t).moves = s.moves := rfl
@[simp] theorem State.note_busData (s : State) (t : Transform) : (s.note t).busData = s.busData := rfl
@[simp] theorem State.note_draws (s : State) (t : Transform) : (s.note t).draws = s.draws := rfl

/-! The fields after the reset input (10_state.md R54). -/

@[simp] theorem State.resetRegisters_rst (s : State) (level : Bool) : (s.resetRegisters level).rst = level := rfl
@[simp] theorem State.resetRegisters_irqEn (s : State) (level : Bool) : (s.resetRegisters level).irqEn = false := rfl
@[simp] theorem State.resetRegisters_cmd (s : State) (level : Bool) : (s.resetRegisters level).cmd = 0 := rfl
@[simp] theorem State.resetRegisters_eng (s : State) (level : Bool) : (s.resetRegisters level).eng = .idle := rfl
@[simp] theorem State.resetRegisters_done (s : State) (level : Bool) : (s.resetRegisters level).done = false := rfl
@[simp] theorem State.resetRegisters_err (s : State) (level : Bool) : (s.resetRegisters level).err = none := rfl
@[simp] theorem State.resetRegisters_mode (s : State) (level : Bool) : (s.resetRegisters level).mode = 0 := rfl
@[simp] theorem State.resetRegisters_srcAddr (s : State) (level : Bool) : (s.resetRegisters level).srcAddr = 0 := rfl
@[simp] theorem State.resetRegisters_srcLen (s : State) (level : Bool) : (s.resetRegisters level).srcLen = 0 := rfl
@[simp] theorem State.resetRegisters_dstAddr (s : State) (level : Bool) : (s.resetRegisters level).dstAddr = 0 := rfl
@[simp] theorem State.resetRegisters_dstCap (s : State) (level : Bool) : (s.resetRegisters level).dstCap = 0 := rfl
@[simp] theorem State.resetRegisters_palAddr (s : State) (level : Bool) : (s.resetRegisters level).palAddr = 0 := rfl
@[simp] theorem State.resetRegisters_imgW (s : State) (level : Bool) : (s.resetRegisters level).imgW = 0 := rfl
@[simp] theorem State.resetRegisters_imgH (s : State) (level : Bool) : (s.resetRegisters level).imgH = 0 := rfl
@[simp] theorem State.resetRegisters_block (s : State) (level : Bool) : (s.resetRegisters level).block = 0x10 := rfl
@[simp] theorem State.resetRegisters_limit (s : State) (level : Bool) : (s.resetRegisters level).limit = 0 := rfl
@[simp] theorem State.resetRegisters_outLen (s : State) (level : Bool) : (s.resetRegisters level).outLen = 0 := rfl
@[simp] theorem State.resetRegisters_outW (s : State) (level : Bool) : (s.resetRegisters level).outW = 0 := rfl
@[simp] theorem State.resetRegisters_outH (s : State) (level : Bool) : (s.resetRegisters level).outH = 0 := rfl
@[simp] theorem State.resetRegisters_progress (s : State) (level : Bool) : (s.resetRegisters level).progress = 0 := rfl
@[simp] theorem State.resetRegisters_codeCount (s : State) (level : Bool) : (s.resetRegisters level).codeCount = 0 := rfl
@[simp] theorem State.resetRegisters_dictSize (s : State) (level : Bool) : (s.resetRegisters level).dictSize = 0 := rfl
@[simp] theorem State.resetRegisters_work (s : State) (level : Bool) : (s.resetRegisters level).work = Config.freeWork s.draws := rfl
@[simp] theorem State.resetRegisters_mem (s : State) (level : Bool) : (s.resetRegisters level).mem = s.mem := rfl
@[simp] theorem State.resetRegisters_platform (s : State) (level : Bool) : (s.resetRegisters level).platform = s.platform := rfl
@[simp] theorem State.resetRegisters_moves (s : State) (level : Bool) : (s.resetRegisters level).moves = s.moves := rfl
@[simp] theorem State.resetRegisters_busData (s : State) (level : Bool) : (s.resetRegisters level).busData = s.busData := rfl
@[simp] theorem State.resetRegisters_draws (s : State) (level : Bool) : (s.resetRegisters level).draws = s.draws + 1 := rfl

/-! The fields after the destination bytes became unspecified (R166, R371); the memory's own lemmas are in Laws/Operands.lean. -/

@[simp] theorem State.scrambleDst_rst (s : State) (keep : List Range) : (s.scrambleDst keep).rst = s.rst := rfl
@[simp] theorem State.scrambleDst_irqEn (s : State) (keep : List Range) : (s.scrambleDst keep).irqEn = s.irqEn := rfl
@[simp] theorem State.scrambleDst_cmd (s : State) (keep : List Range) : (s.scrambleDst keep).cmd = s.cmd := rfl
@[simp] theorem State.scrambleDst_eng (s : State) (keep : List Range) : (s.scrambleDst keep).eng = s.eng := rfl
@[simp] theorem State.scrambleDst_done (s : State) (keep : List Range) : (s.scrambleDst keep).done = s.done := rfl
@[simp] theorem State.scrambleDst_err (s : State) (keep : List Range) : (s.scrambleDst keep).err = s.err := rfl
@[simp] theorem State.scrambleDst_mode (s : State) (keep : List Range) : (s.scrambleDst keep).mode = s.mode := rfl
@[simp] theorem State.scrambleDst_srcAddr (s : State) (keep : List Range) : (s.scrambleDst keep).srcAddr = s.srcAddr := rfl
@[simp] theorem State.scrambleDst_srcLen (s : State) (keep : List Range) : (s.scrambleDst keep).srcLen = s.srcLen := rfl
@[simp] theorem State.scrambleDst_dstAddr (s : State) (keep : List Range) : (s.scrambleDst keep).dstAddr = s.dstAddr := rfl
@[simp] theorem State.scrambleDst_dstCap (s : State) (keep : List Range) : (s.scrambleDst keep).dstCap = s.dstCap := rfl
@[simp] theorem State.scrambleDst_palAddr (s : State) (keep : List Range) : (s.scrambleDst keep).palAddr = s.palAddr := rfl
@[simp] theorem State.scrambleDst_imgW (s : State) (keep : List Range) : (s.scrambleDst keep).imgW = s.imgW := rfl
@[simp] theorem State.scrambleDst_imgH (s : State) (keep : List Range) : (s.scrambleDst keep).imgH = s.imgH := rfl
@[simp] theorem State.scrambleDst_block (s : State) (keep : List Range) : (s.scrambleDst keep).block = s.block := rfl
@[simp] theorem State.scrambleDst_limit (s : State) (keep : List Range) : (s.scrambleDst keep).limit = s.limit := rfl
@[simp] theorem State.scrambleDst_outLen (s : State) (keep : List Range) : (s.scrambleDst keep).outLen = s.outLen := rfl
@[simp] theorem State.scrambleDst_outW (s : State) (keep : List Range) : (s.scrambleDst keep).outW = s.outW := rfl
@[simp] theorem State.scrambleDst_outH (s : State) (keep : List Range) : (s.scrambleDst keep).outH = s.outH := rfl
@[simp] theorem State.scrambleDst_progress (s : State) (keep : List Range) : (s.scrambleDst keep).progress = s.progress := rfl
@[simp] theorem State.scrambleDst_codeCount (s : State) (keep : List Range) : (s.scrambleDst keep).codeCount = s.codeCount := rfl
@[simp] theorem State.scrambleDst_dictSize (s : State) (keep : List Range) : (s.scrambleDst keep).dictSize = s.dictSize := rfl
@[simp] theorem State.scrambleDst_work (s : State) (keep : List Range) : (s.scrambleDst keep).work = s.work := rfl
@[simp] theorem State.scrambleDst_platform (s : State) (keep : List Range) : (s.scrambleDst keep).platform = s.platform := rfl
@[simp] theorem State.scrambleDst_moves (s : State) (keep : List Range) : (s.scrambleDst keep).moves = s.moves := rfl
@[simp] theorem State.scrambleDst_busData (s : State) (keep : List Range) : (s.scrambleDst keep).busData = s.busData := rfl
@[simp] theorem State.scrambleDst_draws (s : State) (keep : List Range) : (s.scrambleDst keep).draws = s.draws + s.dst.len := rfl

end Sys2Proof.Machine
end

