-- ==== Sys2Proof/Laws/Operands.lean ====
section
/-! SUPPORT. The laws of ranges (20_memory.md R84, R81, 40_common.md R162) and of the unspecified destination bytes. -/

namespace Sys2Proof.Machine

theorem Range.holds_iff (r : Range) (a : Nat) : r.holds a = true ↔ r.addr ≤ a ∧ a < r.addr + r.len := by
  simp [Range.holds]

theorem Range.valid_iff (r : Range) : r.valid = true ↔ r.addr + r.len ≤ Config.addrSpace := by simp [Range.valid]

/-- Ranges that share no address hold no address in common (R162). -/
theorem Range.shares_false {r q : Range} (h : r.shares q = false) {a : Nat} (hr : r.holds a = true) : q.holds a = false := by
  rw [Range.holds_iff] at hr
  cases hq : q.holds a with
  | false => rfl
  | true =>
    rw [Range.holds_iff] at hq
    have : r.shares q = true := by
      simp only [Range.shares, Bool.and_eq_true, decide_eq_true_eq]
      omega
    rw [this] at h
    exact h

/-- The interval test finds exactly the unbacked addresses (R81). -/
theorem someUnbacked_iff (rs : List Region) (lo hi : Nat) :
    someUnbacked rs lo hi = true ↔ ∃ a, lo ≤ a ∧ a < hi ∧ backedAt rs a = false := by
  induction rs generalizing lo hi with
  | nil =>
    simp only [someUnbacked, decide_eq_true_eq, backedAt, List.any_nil, and_true]
    exact ⟨fun h => ⟨lo, le_refl _, h⟩, fun ⟨a, h1, h2⟩ => by omega⟩
  | cons r rs ih =>
    simp only [someUnbacked, Bool.or_eq_true, ih]
    constructor
    · rintro (⟨a, h1, h2, h3⟩ | ⟨a, h1, h2, h3⟩)
      · refine ⟨a, h1, by omega, ?_⟩
        have : regionHolds r a = false := by simp [regionHolds]; omega
        simpa [backedAt, this] using h3
      · refine ⟨a, by omega, h2, ?_⟩
        have : regionHolds r a = false := by simp [regionHolds]; omega
        simpa [backedAt, this] using h3
    · rintro ⟨a, h1, h2, h3⟩
      have hr : regionHolds r a = false ∧ backedAt rs a = false := by simpa [backedAt] using h3
      have : ¬ (r.base ≤ a ∧ a < r.base + r.size) := by simpa [regionHolds] using hr.1
      rcases Nat.lt_or_ge a r.base with hlt | hge
      · exact .inl ⟨a, h1, by omega, hr.2⟩
      · exact .inr ⟨a, by omega, h2, hr.2⟩

theorem State.rangeBacked_iff (s : State) (r : Range) :
    s.rangeBacked r = true ↔ ∀ a, a < Config.addrSpace → r.holds a = true → backedAt s.platform.backed a = true := by
  unfold State.rangeBacked
  rw [Bool.not_eq_true', ← Bool.not_eq_true, someUnbacked_iff]
  simp only [Range.holds_iff]
  constructor
  · intro h a ha hr
    by_contra hb
    exact h ⟨a, hr.1, by omega, by simpa using hb⟩
  · rintro h ⟨a, h1, h2, h3⟩
    rw [h a (by omega) (by omega)] at h3
    exact Bool.noConfusion h3

theorem State.rangesBacked_iff (s : State) (i : Instr) :
    s.rangesBacked i.usesPal = true ↔
      ∀ r ∈ i.ranges s, ∀ a, a < Config.addrSpace → r.holds a = true → backedAt s.platform.backed a = true := by
  simp only [State.rangesBacked, Instr.ranges, Bool.and_eq_true, List.all_eq_true, State.rangeBacked_iff,
    List.forall_mem_cons]

/-- What the range check passes (R162), in numbers. -/
theorem State.rangesOk_iff (s : State) (usesPal : Bool) :
    s.rangesOk usesPal = true ↔
      s.dst.addr + s.dst.len ≤ Config.addrSpace ∧
      (s.src.addr + s.src.len ≤ Config.addrSpace ∧ s.dst.shares s.src = false) ∧
      (usesPal = true → s.pal.addr + s.pal.len ≤ Config.addrSpace ∧ s.dst.shares s.pal = false) := by
  cases usesPal <;> simp [State.rangesOk, State.inputs, Range.valid_iff]

/-- The memory writes of `scrambleDst` up to byte `n`, as a fold. -/
theorem scramble_foldl_wf (p : Nat → Prop) [DecidablePred p] (b : Nat → Byte) (base : Nat) {m : Memory} (hm : m.wf = true)
    (l : List Nat) (hp : ∀ i, p i → base + i < Config.addrSpace) :
    (l.foldl (fun m i => if p i then Memory.writeByte m (base + i) (b i) else m) m).wf = true := by
  induction l generalizing m with
  | nil => exact hm
  | cons i l ih =>
    rw [List.foldl_cons]
    apply ih
    split
    · exact Memory.writeByte_wf hm (hp i ‹_›)
    · exact hm

theorem scramble_foldl_outside (p : Nat → Prop) [DecidablePred p] (b : Nat → Byte) (base : Nat) {m : Memory} (l : List Nat)
    {a : Nat} (ha : ∀ i ∈ l, p i → a ≠ base + i) :
    (l.foldl (fun m i => if p i then Memory.writeByte m (base + i) (b i) else m) m).readByte a = m.readByte a := by
  induction l generalizing m with
  | nil => rfl
  | cons i l ih =>
    rw [List.foldl_cons, ih fun j hj => ha j (List.mem_cons_of_mem _ hj)]
    split
    · exact Memory.readByte_writeByte_ne (ha i (List.mem_cons_self ..) ‹_›)
    · rfl

/-- The unspecified destination bytes keep the canonical form. -/
theorem State.scrambleDst_wf {s : State} {keep : List Range} (h : s.mem.wf = true) : (s.scrambleDst keep).mem.wf = true :=
  scramble_foldl_wf (fun i => s.dst.addr + i < Config.addrSpace ∧
    ¬ keep.any (fun r => r.holds (s.dst.addr + i)) = true) _ _ h _ fun _ hp => hp.1

/-- Only bytes of DST become unspecified (R166, R371). -/
theorem State.scrambleDst_outside {s : State} {keep : List Range} {a : Nat} (h : s.dst.holds a = false) :
    (s.scrambleDst keep).mem.readByte a = s.mem.readByte a := by
  refine scramble_foldl_outside (fun i => s.dst.addr + i < Config.addrSpace ∧
    ¬ keep.any (fun r => r.holds (s.dst.addr + i)) = true) _ _ _ fun i hi _ => ?_
  have hd : ¬ (s.dst.addr ≤ a ∧ a < s.dst.addr + s.dst.len) := by
    rw [← Range.holds_iff]; simp [h]
  have := List.mem_range.1 hi
  omega

/-- No byte of a kept range becomes unspecified (R371). -/
theorem State.scrambleDst_kept {s : State} {keep : List Range} {a : Nat} (h : keep.any (fun r => r.holds a) = true) :
    (s.scrambleDst keep).mem.readByte a = s.mem.readByte a := by
  refine scramble_foldl_outside (fun i => s.dst.addr + i < Config.addrSpace ∧
    ¬ keep.any (fun r => r.holds (s.dst.addr + i)) = true) _ _ _ fun i _ hp he => ?_
  exact hp.2 (he ▸ h)

/-- A draw lies in its bound (93_implementation_defined.md I5, I6). -/
theorem drawBetween_bounds (k : Nat) {lo hi : Word} (h : lo.toNat ≤ hi.toNat) :
    lo.toNat ≤ (drawBetween k lo hi).toNat ∧ (drawBetween k lo hi).toNat ≤ hi.toNat := by
  have hm : (Config.freeWord k).toNat % (hi.toNat - lo.toNat + 1) < hi.toNat - lo.toNat + 1 := Nat.mod_lt _ (by omega)
  have hh := hi.isLt
  simp only [drawBetween, BitVec.toNat_ofNat]
  rw [Nat.mod_eq_of_lt (by omega)]
  omega

theorem drawBetween_zero_le (k : Nat) (hi : Word) : (drawBetween k 0 hi).toNat ≤ hi.toNat :=
  (drawBetween_bounds k (lo := 0) (by simp)).2

end Sys2Proof.Machine
end

