-- ==== Sys2Proof/Laws/Lifecycle.lean ====
section
/-! SUPPORT. What a command's completion can do, said once (40_common.md R165 to R167), and what one move can do. -/

namespace Sys2Proof.Machine

/-- Every meaning is the shared lifecycle over the command's checks and transform. -/
theorem exec_eq_complete (i : Instr) (s : State) : exec i s = s.complete (i.checks s) i.transform := by
  cases i <;> rfl

@[simp] theorem Instr_checks_usesPal (i : Instr) (s : State) : (i.checks s).usesPal = i.usesPal := rfl
@[simp] theorem Instr_checks_dims (i : Instr) (s : State) : (i.checks s).dims = i.checksDims := rfl
theorem Instr_checks_srcLen (i : Instr) (s : State) : (i.checks s).srcLen = i.requiredLen s := rfl

@[simp] theorem State.note_srcBytes (s : State) (t : Transform) : (s.note t).srcBytes = s.srcBytes := rfl
@[simp] theorem State.note_dst (s : State) (t : Transform) : (s.note t).dst = s.dst := rfl

/-- The completion of a command whose ranges are backed and whose early checks pass. -/
theorem exec_ready {i : Instr} {s : State} (h : s.ready i) : exec i s = .next (s.finish (i.transform s)) := by
  rw [exec_eq_complete]
  unfold State.complete
  rw [Instr_checks_usesPal, h.1, h.2, if_pos rfl]

/-- The completion of a command that fails an early check. -/
theorem exec_early {i : Instr} {s : State} {k : ErrorKind} (hb : s.rangesBacked i.usesPal = true)
    (h : s.earlyError (i.checks s) = some k) : exec i s = .next (s.raiseEarly k) := by
  rw [exec_eq_complete]
  unfold State.complete
  rw [Instr_checks_usesPal, hb, h, if_pos rfl]

/-- A command one of whose ranges is not backed. -/
theorem exec_unbacked {i : Instr} {s : State} (h : s.rangesBacked i.usesPal = false) : exec i s = .refused .unbackedRange := by
  rw [exec_eq_complete]
  unfold State.complete
  rw [Instr_checks_usesPal, h]
  rfl

/-- When a command answers a next state, its ranges are backed, and the state is that of an early error or of a
transform that ran. -/
theorem exec_next {i : Instr} {s t : State} (h : exec i s = .next t) :
    s.rangesBacked i.usesPal = true ∧
      ((∃ k, s.earlyError (i.checks s) = some k ∧ t = s.raiseEarly k) ∨
        (s.earlyError (i.checks s) = none ∧ t = s.finish (i.transform s))) := by
  cases hb : s.rangesBacked i.usesPal with
  | false => rw [exec_unbacked hb] at h; cases h
  | true =>
    refine ⟨rfl, ?_⟩
    cases he : s.earlyError (i.checks s) with
    | some k => rw [exec_early hb he] at h; cases h; exact .inl ⟨k, rfl, rfl⟩
    | none => rw [exec_ready ⟨hb, he⟩] at h; cases h; exact .inr ⟨rfl, rfl⟩

theorem State.finish_error {s : State} {t : Transform} {k : ErrorKind} (h : t.result = .error k) :
    s.finish t = (s.note t).raiseLate k 0 := by unfold State.finish; rw [h]

theorem State.finish_overflow {s : State} {t : Transform} {out : List Byte} {info : Info} (h : t.result = .ok (out, info))
    (hc : s.dstCap.toNat < out.length) : s.finish t = (s.note t).raiseLate .outputOverflow out.length := by
  unfold State.finish
  rw [h]
  exact if_neg (by omega)

theorem State.finish_ok {s : State} {t : Transform} {out : List Byte} {info : Info} (h : t.result = .ok (out, info))
    (hc : out.length ≤ s.dstCap.toNat) : s.finish t = (s.note t).succeed out info := by
  unfold State.finish
  rw [h]
  exact if_pos hc

/-- A transform that ran ends in its own error, an overflow, or a success. -/
theorem State.finish_cases (s : State) (t : Transform) :
    (∃ k, t.result = .error k ∧ s.finish t = (s.note t).raiseLate k 0) ∨
    (∃ out info, t.result = .ok (out, info) ∧ s.dstCap.toNat < out.length ∧
      s.finish t = (s.note t).raiseLate .outputOverflow out.length) ∨
    (∃ out info, t.result = .ok (out, info) ∧ out.length ≤ s.dstCap.toNat ∧ s.finish t = (s.note t).succeed out info) := by
  cases h : t.result with
  | error k => exact .inl ⟨k, rfl, State.finish_error h⟩
  | ok r =>
    obtain ⟨out, info⟩ := r
    rcases Nat.lt_or_ge s.dstCap.toNat out.length with hc | hc
    · exact .inr (.inl ⟨out, info, rfl, hc, State.finish_overflow h hc⟩)
    · exact .inr (.inr ⟨out, info, rfl, hc, State.finish_ok h hc⟩)

/-- No early error: the ranges, the dimensions and the source length are in order. -/
theorem State.earlyError_none_iff (s : State) (c : Checks) :
    s.earlyError c = none ↔ s.rangesOk c.usesPal = true ∧ (c.dims = true → s.dimsOk = true) ∧
      (∀ n, c.srcLen = some n → n = s.srcLen.toNat) := by
  unfold State.earlyError
  cases h1 : s.rangesOk c.usesPal <;> cases h2 : c.dims <;> cases h3 : s.dimsOk <;> cases h4 : c.srcLen <;> simp

theorem State.dimsOk_iff (s : State) : s.dimsOk = true ↔ s.imgW.toNat ≤ 65535 ∧ s.imgH.toNat ≤ 65535 := by
  simp [State.dimsOk]

/-- A command that checks neither dimensions nor length is ready when its ranges are in order. -/
theorem State.ready_plain {s : State} {i : Instr} (hd : i.checksDims = false) (hl : i.requiredLen s = none)
    (hb : s.rangesBacked i.usesPal = true) (hr : s.rangesOk i.usesPal = true) : s.ready i := by
  refine ⟨hb, (State.earlyError_none_iff ..).2 ⟨hr, ?_, ?_⟩⟩
  · rw [Instr_checks_dims, hd]; exact fun h => Bool.noConfusion h
  · rw [Instr_checks_srcLen, hl]; exact fun n h => by cases h

/-- The ranges a ready command uses lie in the address space. -/
theorem State.ready_rangesOk {s : State} {i : Instr} (h : s.ready i) : s.rangesOk i.usesPal = true :=
  ((State.earlyError_none_iff ..).1 h.2).1

/-- An engine's step of an Idle core only takes the move. -/
theorem engineTurn_idle {s : State} (h : s.eng = .idle) : engineTurn s = .next s := by
  unfold engineTurn; rw [h]

theorem engineTurn_busy_ok {s : State} {i : Instr} (h : s.eng = .busy) (hd : decodeCommand s.cmd = .ok i) :
    engineTurn s = exec i s := by
  unfold engineTurn; rw [h]; simp only [hd]

theorem engineTurn_busy_error {s : State} {e : DecodeError} (h : s.eng = .busy) (hd : decodeCommand s.cmd = .error e) :
    engineTurn s = .next (s.raiseEarly .illegalCommand) := by
  unfold engineTurn; rw [h]; simp only [hd]

theorem engineStep_eq (s : State) : engineStep s = engineTurn s := rfl
theorem rstStep_eq (s : State) (level : Bool) : rstStep s level = .next (s.driveRst level) := rfl
theorem hostWrite_eq (s : State) (o : Nat) (v : Word) : hostWrite s o v = s.atRegister (s.platform.base + o) 4 (s.portWrite v) := rfl
theorem hostRead_eq (s : State) (o : Nat) : hostRead s o = s.atRegister (s.platform.base + o) 4 s.readReg := rfl
theorem hostStore_eq (s : State) (a : Word) (v : Byte) : hostStore s a v = s.hostMemWrite a.toNat v := rfl
theorem hostLoad_eq (s : State) (a : Word) : hostLoad s a = s.hostMemRead a.toNat := rfl

/-- A step is the first of the moves still to come, at the state without it. -/
theorem step_cons (s : State) (m : Move) (ms : List Move) : step { s with moves := m :: ms } = moveStep m { s with moves := ms } := rfl

/-- A run of `n + 1` steps takes the first one and runs on. -/
theorem core_run_succ {n : Nat} {s t : State} (h : step s = .next t) : Sys2Proof.core.run (n + 1) s = Sys2Proof.core.run n t := by
  have run_succ : ∀ (M : Host.Core) (k : Nat) (x y : M.State), M.step x = .next y → M.run (k + 1) x = M.run k y := by
    intro M k x y hxy
    show (match M.step x with | .next s' => M.run k s' | .fault r => .fault r | .refused r => .refused r) = _
    rw [hxy]
  exact run_succ Sys2Proof.core n s t h

/-- A run ends at a first step that faults. -/
theorem core_run_fault {n : Nat} {s : State} {r : Fault} (h : step s = .fault r) : Sys2Proof.core.run (n + 1) s = .fault r := by
  have run_fault : ∀ (M : Host.Core) (k : Nat) (x : M.State) (e : M.Fault), M.step x = .fault e → M.run (k + 1) x = .fault e := by
    intro M k x e hxe
    show (match M.step x with | .next s' => M.run k s' | .fault r => .fault r | .refused r => .refused r) = _
    rw [hxe]
  exact run_fault Sys2Proof.core n s r h

/-- An aligned word access inside the block reaches the register at its offset (10_state.md R32). -/
theorem State.atRegister_offset (s : State) {o : Nat} (k : Option Reg → State) (ho : o < 256) (ha : o % 4 = 0) :
    s.atRegister (s.platform.base + o) 4 k = .next (k (regAt o)) := by
  unfold State.atRegister
  rw [if_neg (by omega), Nat.add_sub_cancel_left, if_neg (by omega)]

/-- When a register access answers a next state, it was an aligned word at some offset of the block. -/
theorem State.atRegister_next {s t : State} {addr width : Nat} {k : Option Reg → State} (h : s.atRegister addr width k = .next t) :
    ∃ o, addr = s.platform.base + o ∧ width = 4 ∧ o < 256 ∧ t = k (regAt o) := by
  unfold State.atRegister at h
  split at h
  · cases h
  · split at h
    · cases h
    · cases h
      exact ⟨addr - s.platform.base, by omega, by omega, by omega, rfl⟩

/-- Each register has one offset (R32). -/
theorem regAt_cmd {o : Nat} (h : regAt o = some .cmd) : o = 0x08 := by
  unfold regAt at h; split at h <;> simp_all

theorem regAt_status {o : Nat} (h : regAt o = some .status) : o = 0x0C := by
  unfold regAt at h; split at h <;> simp_all

/-- What one host access can do when it answers a next state. -/
theorem hostStep_next {op : HostOp} {s t : State} (h : hostStep op s = .next t) :
    (∃ o, op = .regRead (s.platform.base + o) 4 ∧ o < 256 ∧ t = s.readReg (regAt o)) ∨
    (∃ o v, op = .regWrite (s.platform.base + o) 4 v ∧ o < 256 ∧ t = s.portWrite v (regAt o)) ∨
    (∃ a, op = .memRead a ∧ t = { s with busData := (s.mem.readByte a.toNat).setWidth 32 }) ∨
    (∃ a v, op = .memWrite a v ∧ s.ownsInput a.toNat = false ∧ s.ownsOutput a.toNat = false ∧
      t = { s with mem := s.mem.writeByte a.toNat v }) := by
  cases op with
  | regRead addr width =>
    obtain ⟨o, rfl, rfl, ho, rfl⟩ := State.atRegister_next h
    exact .inl ⟨o, rfl, ho, rfl⟩
  | regWrite addr width v =>
    obtain ⟨o, rfl, rfl, ho, rfl⟩ := State.atRegister_next h
    exact .inr (.inl ⟨o, v, rfl, ho, rfl⟩)
  | memRead a =>
    simp only [hostStep, State.hostMemRead] at h
    split at h
    · cases h
    · split at h
      · cases h; exact .inr (.inr (.inl ⟨a, rfl, rfl⟩))
      · cases h
  | memWrite a v =>
    simp only [hostStep, State.hostMemWrite] at h
    split at h
    · cases h
    · rename_i ho
      simp only [Bool.or_eq_true, not_or, Bool.not_eq_true] at ho
      split at h
      · cases h; exact .inr (.inr (.inr ⟨a, v, rfl, ho.1, ho.2, rfl⟩))
      · cases h

/-- While `rst` is asserted a register write does nothing; else it is the register's own (70_reset_and_hazards.md R370). -/
theorem State.portWrite_held {s : State} (h : s.rst = true) (v : Word) (r : Option Reg) : s.portWrite v r = s := if_pos h

theorem State.portWrite_released {s : State} (h : s.rst = false) (v : Word) (r : Option Reg) :
    s.portWrite v r = s.writeReg v r := by unfold State.portWrite; rw [h]; rfl

/-- What a level of `rst` does, said once: an assertion or a release puts every register at its reset value, an assertion
while Busy having made DST unspecified; a release of what is not asserted does nothing. -/
theorem State.driveRst_cases (s : State) (level : Bool) :
    (s.driveRst level = s.resetRegisters level ∧ (level = true → s.eng = .idle) ∧ (level = false → s.rst = true)) ∨
    (level = true ∧ s.eng = .busy ∧ s.driveRst level = (s.scrambleDst (s.inputs s.cmdUsesPal)).resetRegisters true) ∨
    (level = false ∧ s.rst = false ∧ s.driveRst level = s) := by
  unfold State.driveRst State.assertRst State.releaseRst
  cases level <;> cases he : s.eng <;> cases hr : s.rst <;> simp

/-- After a reset the registers hold their reset values (10_state.md R54). -/
theorem State.resetRegisters_atReset (s : State) (level : Bool) : (s.resetRegisters level).registersAtReset := by
  simp [State.registersAtReset]

theorem State.busy_or_idle (s : State) : s.eng = .busy ∨ s.eng = .idle := by
  cases s.eng <;> simp

theorem State.whenIdle_idle {s t : State} (h : s.eng = .idle) : s.whenIdle t = t := by
  unfold State.whenIdle; rw [h]

theorem State.whenIdle_busy {s t : State} (h : s.eng = .busy) : s.whenIdle t = s := by
  unfold State.whenIdle; rw [h]

theorem State.drawProgress_idle {s : State} (h : s.eng = .idle) : s.drawProgress = s := by
  unfold State.drawProgress; rw [h]

theorem State.drawProgress_busy {s : State} (h : s.eng = .busy) :
    s.drawProgress = { s with progress := drawBetween s.draws s.progress s.srcLen, draws := s.draws + 1 } := by
  unfold State.drawProgress; rw [h]

/-- What a register write does, register by register, said once: nothing, CTRL, a start, an acknowledgement, or a
parameter while Idle. -/
theorem State.writeReg_cases (s : State) (v : Word) (r : Option Reg) :
    s.writeReg v r = s ∨ s.writeReg v r = { s with irqEn := v.getLsbD 0 } ∨
    (r = some .cmd ∧ s.eng = .idle ∧ s.writeReg v r = s.start v) ∨
    (r = some .status ∧ s.writeReg v r = s.acknowledge v) ∨
    (s.eng = .idle ∧ ∃ a b c d e f g h k, s.writeReg v r =
      { s with srcAddr := a, srcLen := b, dstAddr := c, dstCap := d, palAddr := e, imgW := f, imgH := g, block := h, limit := k }) := by
  cases r with
  | none => exact .inl rfl
  | some r =>
    rcases State.busy_or_idle s with he | he
    · cases r <;> first
        | exact .inl rfl
        | exact .inr (.inl rfl)
        | exact .inl (State.whenIdle_busy he)
        | exact .inr (.inr (.inr (.inl ⟨rfl, rfl⟩)))
    · cases r <;> first
        | exact .inl rfl
        | exact .inr (.inl rfl)
        | exact .inr (.inr (.inl ⟨rfl, he, State.whenIdle_idle he⟩))
        | exact .inr (.inr (.inr (.inl ⟨rfl, rfl⟩)))
        | exact .inr (.inr (.inr (.inr ⟨he, _, _, _, _, _, _, _, _, _, State.whenIdle_idle he⟩)))

/-- What a register read does: it moves the bus data, and while Busy a PROGRESS read also moves PROGRESS and the draws. -/
theorem State.readReg_cases (s : State) (r : Option Reg) :
    (∃ x, s.readReg r = { s with busData := x }) ∨
    (s.eng = .busy ∧ r = some .progress ∧ s.readReg r =
      { s with progress := drawBetween s.draws s.progress s.srcLen, draws := s.draws + 1
               busData := drawBetween s.draws s.progress s.srcLen }) := by
  cases r with
  | none => exact .inl ⟨_, rfl⟩
  | some r =>
    rcases State.busy_or_idle s with he | he
    · cases r <;> first
        | exact .inl ⟨_, rfl⟩
        | exact .inr ⟨he, rfl, by rw [State.readReg, State.drawProgress_busy he]⟩
    · cases r <;> first
        | exact .inl ⟨_, rfl⟩
        | exact .inl ⟨s.progress, by rw [State.readReg, State.drawProgress_idle he]⟩

end Sys2Proof.Machine
end

