-- ==== Sys2Proof/Laws/PerInstr.lean ====
section
/-! SUPPORT. The family WordFields, instruction by instruction: the word a command is written as carries the command's
fields at the bit places of 30_encoding.md R110, and nothing else. -/

namespace Sys2Proof.Laws.WordFields

/-- The fields of the command's word are the command's fields. -/
def Statement (i : Instr) : Prop := fieldsOfWord (encode i) = i.fields

theorem pack : Statement .pack := by unfold Statement; decide
theorem unpack (lim : Bool) : Statement (.unpack lim) := by unfold Statement; cases lim <;> decide
theorem lzwEnc : Statement .lzwEnc := by unfold Statement; decide
theorem lzwDec : Statement .lzwDec := by unfold Statement; decide
theorem blkQuant : Statement .blkQuant := by unfold Statement; decide
theorem blkRecon : Statement .blkRecon := by unfold Statement; decide
theorem encLossless : Statement .encLossless := by unfold Statement; decide
theorem encLossy : Statement .encLossy := by unfold Statement; decide
theorem decode : Statement .decode := by unfold Statement; decide

end Sys2Proof.Laws.WordFields
end

