-- ==== Sys2Proof/Laws/Transforms.lean ====
section
/-! SUPPORT. The small lemmas of the transforms' own operations (41_bitpack.md to 44_container.md): lengths, what an
insertion does, what the decoder's loop does over two lists, and which blocks a grid has. -/

namespace Sys2Proof.Machine

/-! Bits. -/

@[simp] theorem pack_length (b : List Bool) : (pack b).length = ceilDiv b.length 8 := by simp [pack]

@[simp] theorem byteBits_length (x : Byte) : (byteBits x).length = 8 := by simp [byteBits]

theorem flatMap_byteBits_length (s : List Byte) : (s.flatMap byteBits).length = 8 * s.length := by
  induction s with
  | nil => rfl
  | cons x s ih => rw [List.flatMap_cons, List.length_append, ih, byteBits_length, List.length_cons]; omega

@[simp] theorem unpack_none_length (s : List Byte) : (unpack s none).length = 8 * s.length := flatMap_byteBits_length s

@[simp] theorem unpack_some (s : List Byte) (n : Nat) : unpack s (some n) = (unpack s none).take n := rfl

/-! Codes. -/

@[simp] theorem be16_length (v : Nat) : (be16 v).length = 2 := rfl

@[simp] theorem codesToBytes_cons (k : Nat) (ks : List Nat) : codesToBytes (k :: ks) = be16 k ++ codesToBytes ks := by
  simp [codesToBytes]

@[simp] theorem codesToBytes_length (ks : List Nat) : (codesToBytes ks).length = 2 * ks.length := by
  induction ks with
  | nil => rfl
  | cons k ks ih => rw [codesToBytes_cons, List.length_append, ih, be16_length, List.length_cons]; omega

/-- A 16-bit word reads back from its big-endian bytes (00_scope.md R12). -/
theorem rd16_be16 {v : Nat} (h : v < 65536) (xs : List Byte) : rd16 (be16 v ++ xs) 0 = v := by
  simp [rd16, be16]; omega

/-- A stream parses exactly when it has an even, non-zero number of bytes (42_lzw.md R220). -/
theorem parseCodes_even {s : List Byte} (h0 : s.length ≠ 0) (h : s.length % 2 = 0) :
    parseCodes s = .ok ((List.range (s.length / 2)).map fun i => rd16 s (2 * i)) := by
  unfold parseCodes; rw [if_neg h0, if_neg (by omega)]

theorem parseCodes_bad {s : List Byte} (h : s.length = 0 ∨ s.length % 2 = 1) : parseCodes s = .error .truncatedStream := by
  unfold parseCodes
  split
  · rfl
  · rw [if_pos (by omega)]

/-! The dictionary. -/

@[simp] theorem Dict.init_length : Dict.init.length = 256 := by simp [Dict.init]

theorem Dict.init_getElem? {c : Nat} (h : c < 256) : Dict.init[c]? = some [BitVec.ofNat 8 c] := by
  simp [Dict.init, h]

/-- An insertion adds one entry below the cap and nothing at it (R212). -/
theorem Dict.insert_below {d : Dict} (h : d.length < 4096) (s : List Byte) : Dict.insert d s = d ++ [s] := if_pos h

theorem Dict.insert_atCap {d : Dict} (h : 4096 ≤ d.length) (s : List Byte) : Dict.insert d s = d :=
  if_neg (Nat.not_lt.2 h)

theorem Dict.insert_length (d : Dict) (s : List Byte) (h : d.length ≤ 4096) :
    (Dict.insert d s).length = min 4096 (d.length + 1) := by
  rcases Nat.lt_or_ge d.length 4096 with h' | h'
  · rw [Dict.insert_below h', List.length_append, List.length_singleton]; omega
  · rw [Dict.insert_atCap h']; omega

/-- An insertion moves no entry (R212). -/
theorem Dict.insert_getElem? {d : Dict} {s : List Byte} {c : Nat} (h : c < d.length) : (Dict.insert d s)[c]? = d[c]? := by
  unfold Dict.insert
  split
  · exact List.getElem?_append_left h
  · rfl

/-- A code stands for the entry it was looked up from (R210). -/
theorem Dict.getElem?_codeOf {d : Dict} {s : List Byte} (h : s ∈ d) : d[Dict.codeOf d s]? = some s := by
  rw [Dict.codeOf, List.getElem?_eq_getElem (List.idxOf_lt_length_of_mem h), List.getElem_idxOf]

/-! The encoder and the decoder, byte by byte and code by code. -/

/-- The encoder takes its bytes one after another (R213). -/
theorem Enc.run_snoc (s : List Byte) (c : Byte) : Enc.run (s ++ [c]) = (Enc.run s).step c := by
  simp [Enc.run]

theorem classify_known {k size : Nat} (h : k < size) : classify k size = .known := if_pos h

theorem classify_selfRef {size : Nat} (h : size < 4096) : classify size size = .selfRef := by
  unfold classify; rw [if_neg (by omega), if_pos ⟨rfl, h⟩]

theorem classify_invalid {k size : Nat} (h : size < k ∨ (k = size ∧ 4096 ≤ size)) : classify k size = .invalid := by
  unfold classify; rw [if_neg (by omega), if_neg (by simp only [Config.dictCap]; omega)]

/-- A decode of two lists of codes is the decode of the second from where the first left off (R222). -/
theorem Dec.loop_append {d d' : Dec} {ks : List Nat} (h : Dec.loop d ks = (d', none)) (ks' : List Nat) :
    Dec.loop d (ks ++ ks') = Dec.loop d' ks' := by
  induction ks generalizing d with
  | nil => cases h; rfl
  | cons k ks ih =>
    unfold Dec.loop at h
    rw [List.cons_append]
    conv => lhs; unfold Dec.loop
    cases he : d.entry k with
    | none => rw [he] at h; cases h
    | some e => rw [he] at h; exact ih h

/-! Images and blocks. -/

@[simp] theorem setRgb_length (img : List Byte) (o : Nat) (c : Rgb) : (setRgb img o c).length = img.length := by
  simp [setRgb]

@[simp] theorem decodeRecord_length (r : List Byte) (w : Nat) (rect : Rect) (img : List Byte) :
    (decodeRecord r w rect img).length = img.length := by
  unfold decodeRecord
  generalize List.range rect.count = l
  induction l generalizing img with
  | nil => rfl
  | cons t l ih => rw [List.foldl_cons, ih, setRgb_length]

/-- The blocks of the grid (43_block.md R250). -/
theorem mem_grid {w h b : Nat} {g : Nat × Nat} : g ∈ grid w h b ↔ g.1 < ceilDiv h b ∧ g.2 < ceilDiv w b := by
  obtain ⟨gy, gx⟩ := g
  simp [grid]

/-- The block row or column `q` exists exactly when it starts inside the image (R250). -/
theorem lt_ceilDiv {a b q : Nat} (hb : 0 < b) : q < ceilDiv a b ↔ q * b < a := by
  rw [ceilDiv, Nat.lt_div_iff_mul_lt hb]
  omega

@[simp] theorem blockPixels_length (img : List Byte) (w : Nat) (r : Rect) : (blockPixels img w r).length = r.count := by
  simp [blockPixels]

@[simp] theorem blockMask_length (px : List Rgb) : (blockMask px).length = px.length := by simp [blockMask]

/-- A record has six triple bytes and its packed mask (30_encoding.md R120). -/
theorem quantBlock_record_length (img : List Byte) (w h : Nat) (g : Nat × Nat) :
    (quantBlock img w h g).record.length = (blockRect w h Config.qblock g).recordLen := by
  simp [quantBlock, BlockWork.record, analyseBlock, Rgb.bytes, Rect.recordLen]
  omega

end Sys2Proof.Machine
end

