-- ==== Sys2Proof/Tests/Slice0.lean ====
section
/-! SUPPORT. Tests on fixed values: ill-formed field triples, command words written out from 30_encoding.md R110 and R112,
single steps with the expected results of 95_test_vectors.md, and for each obligation with hypotheses a state that meets
them. -/

namespace Sys2Proof.Tests

open Sys2Proof.Machine

set_option maxRecDepth 10000

/-! ## Well-formedness: each check refuses an ill-formed term (R113) -/

theorem test_wf_opcode_zero : CmdFields.wellFormed { op := 0x00, lim := false, rsvd := 0 } = false := by decide
theorem test_wf_opcode_ten : CmdFields.wellFormed { op := 0x0A, lim := false, rsvd := 0 } = false := by decide
theorem test_wf_reserved_bit : CmdFields.wellFormed { op := 0x01, lim := false, rsvd := 1 } = false := by decide
theorem test_wf_lim_on_pack : CmdFields.wellFormed { op := 0x01, lim := true, rsvd := 0 } = false := by decide
theorem test_wf_lim_on_unpack : CmdFields.wellFormed { op := 0x02, lim := true, rsvd := 0 } = true := by decide

/-! ## Decoding: RSVD, LIM, OP, bit 31 first (R110, R112) -/

theorem test_decode_pack : decodeCommand 0b00000000000000000000000_0_00000001#32 = .ok .pack := rfl
theorem test_decode_unpack : decodeCommand 0b00000000000000000000000_0_00000010#32 = .ok (.unpack false) := rfl
theorem test_decode_unpack_lim : decodeCommand 0b00000000000000000000000_1_00000010#32 = .ok (.unpack true) := rfl
theorem test_decode_lzwEnc : decodeCommand 0b00000000000000000000000_0_00000011#32 = .ok .lzwEnc := rfl
theorem test_decode_lzwDec : decodeCommand 0b00000000000000000000000_0_00000100#32 = .ok .lzwDec := rfl
theorem test_decode_blkQuant : decodeCommand 0b00000000000000000000000_0_00000101#32 = .ok .blkQuant := rfl
theorem test_decode_blkRecon : decodeCommand 0b00000000000000000000000_0_00000110#32 = .ok .blkRecon := rfl
theorem test_decode_encLossless : decodeCommand 0b00000000000000000000000_0_00000111#32 = .ok .encLossless := rfl
theorem test_decode_encLossy : decodeCommand 0b00000000000000000000000_0_00001000#32 = .ok .encLossy := rfl
theorem test_decode_decode : decodeCommand 0b00000000000000000000000_0_00001001#32 = .ok .decode := rfl
/-- V-CMN-1, V-CMN-2, V-CMN-3, V-BP-14. -/
theorem test_decode_illegal :
    decodeCommand 0x00000000 = .error (.reservedOpcode 0) ∧ decodeCommand 0x0000000A = .error (.reservedOpcode 0x0A) ∧
    decodeCommand 0x00000201 = .error (.reservedBits 1) ∧ decodeCommand 0x00000101 = .error (.limWithoutUnpack 1) :=
  ⟨rfl, rfl, rfl, rfl⟩
/-- What `decodeTableWord` reads of a table row. -/
theorem test_decodeTableWord : decodeTableWord 32 0x00000102 = some (.unpack true) ∧ decodeTableWord 32 0 = none := ⟨rfl, rfl⟩

/-! ## One step: the vectors of 95_test_vectors.md -/

/-- Reset, with the source at 0x1000, the destination at 0x8000, and the parameters of a vector. -/
def before (src : List Byte) (cap w h : Word) : State :=
  { State.reset with
    mem := Memory.write [] 0x1000 src, srcAddr := 0x1000, srcLen := BitVec.ofNat 32 src.length
    dstAddr := 0x8000, dstCap := cap, imgW := w, imgH := h }

/-- The step that runs command word `w`: STATUS, OUT_LEN, CODE_COUNT, DICT_SIZE and the first `n` destination bytes. -/
def ran (s : State) (w n : Nat) : Option (Word × Word × Word × Word × List Byte) :=
  match step (s.withFetchWord 32 w) with
  | .next t => some (t.statusWord, t.outLen, t.codeCount, t.dictSize, t.mem.read 0x8000 n)
  | .fault _ => none
  | .refused _ => none

/-- V-BP-1. -/
theorem test_pack : ran (before [1, 0, 1, 1, 0, 0, 0, 1] 0x10000 0 0) 1 2 = some (0x2, 1, 0, 0, [0xB1, 0]) := by decide +kernel
/-- V-BP-7: a late error. -/
theorem test_pack_overflow : (ran (before [1, 1, 1, 1, 1, 1, 1, 1, 1] 1 0 0) 1 0).map (fun r => (r.1, r.2.1)) = some (0x806, 2) := by
  decide +kernel
/-- V-BP-9. -/
theorem test_unpack_limit : ran { before [0xB1] 0x10000 0 0 with limit := 5 } 0x102 6 = some (0x2, 5, 0, 0, [1, 0, 1, 1, 0, 0]) := by
  decide +kernel
/-- V-BP-8 (LIMIT is not read). -/
theorem test_unpack_all : ran (before [0xB1] 0x10000 0 0) 2 8 = some (0x2, 8, 0, 0, [1, 0, 1, 1, 0, 0, 0, 1]) := by decide +kernel
/-- V-LZW-1. -/
theorem test_lzwEnc : ran (before [0x41, 0x41, 0x41, 0x41] 0x10000 0 0) 3 6 =
    some (0x2, 6, 3, 258, [0, 0x41, 1, 0, 0, 0x41]) := by decide +kernel
/-- V-LZW-6: the self-referencing code. -/
theorem test_lzwDec_selfRef : ran (before [0, 0x41, 0, 0x42, 1, 0, 1, 2] 0x10000 0 0) 4 7 =
    some (0x2, 7, 4, 259, [0x41, 0x42, 0x41, 0x42, 0x41, 0x42, 0x41]) := by decide +kernel
/-- V-LZW-10: the first code must be a byte. -/
theorem test_lzwDec_firstCode : (ran (before [1, 0] 0 0 0) 4 0).map (fun r => r.1) = some 0x306 := by decide +kernel
/-- V-BLK-4: means are rounded down. -/
theorem test_blkQuant : ran (before [0, 0, 0, 0x64, 0x64, 0x64, 0x65, 0x65, 0x65] 0x10000 3 1) 5 7 =
    some (0x2, 7, 0, 0, [0, 0, 0, 0x64, 0x64, 0x64, 0x60]) := by decide +kernel
/-- V-BLK-5: a luma tie. -/
theorem test_blkQuant_tie : ran (before [0x28, 0, 0x1D, 0, 0x1A, 0] 0x10000 2 1) 5 7 =
    some (0x2, 7, 0, 0, [0x14, 0x0D, 0x0E, 0x14, 0x0D, 0x0E, 0xC0]) := by decide +kernel
/-- V-BLK-13: pad bits are ignored. -/
theorem test_blkRecon : ran (before [0, 0, 0, 0xFF, 0xFF, 0xFF, 0x7F] 0x10000 2 1) 6 6 =
    some (0x2, 6, 0, 0, [0, 0, 0, 0xFF, 0xFF, 0xFF]) := by decide +kernel
/-- V-CON-22: an empty image, and a palette of zeros. -/
theorem test_encLossless : ran { before [] 0x10000 0 0 with palAddr := 0x4000 } 7 6 =
    some (0x2, 773, 0, 256, [0, 0, 0, 0, 0, 0]) := by decide +kernel
/-- V-CON-2. -/
theorem test_encLossy : ran (before [0x0A, 0x14, 0x1E] 0x10000 1 1) 8 13 =
    some (0x2, 13, 0, 0, [4, 0, 1, 0, 1, 0x10, 0x0A, 0x14, 0x1E, 0x0A, 0x14, 0x1E, 0x80]) := by decide +kernel
/-- V-CON-20: the block size of the stream is used, and MODE is 4. -/
theorem test_decode_lossy : ran (before [4, 0, 2, 0, 1, 1, 1, 2, 3, 9, 9, 9, 0, 9, 9, 9, 4, 5, 6, 0x80] 0x10000 0 0) 9 6 =
    some (0x00040002, 6, 0, 0, [1, 2, 3, 4, 5, 6]) := by decide +kernel
/-- V-CON-17: BLOCK size 0 in the stream. -/
theorem test_decode_blockSize : (ran (before [4, 0, 1, 0, 1, 0, 1, 2, 3, 1, 2, 3, 0x80] 0 0 0) 9 0).map (fun r => r.1) = some 0x00040606 := by
  decide +kernel
/-- V-CMN-3: a reserved bit set. -/
theorem test_illegal_word : (ran (before [1] 0x10000 0 0) 0x201 0).map (fun r => r.1) = some 0x906 := by decide +kernel
/-- Every word of the table runs as the first command after reset, where every parameter is at its reset value: the ranges
are empty, so the four image commands and the codecs see an empty source. -/
theorem test_first_after_reset : (ran State.reset 1 0).map (fun r => r.1) = some 0x2 ∧ (ran State.reset 2 0).map (fun r => r.1) = some 0x2 ∧
    (ran State.reset 3 0).map (fun r => r.1) = some 0x2 ∧ (ran State.reset 4 0).map (fun r => r.1) = some 0x106 ∧
    (ran State.reset 5 0).map (fun r => r.1) = some 0x2 ∧ (ran State.reset 6 0).map (fun r => r.1) = some 0x2 ∧
    (ran State.reset 7 0).map (fun r => r.1) = some 0x806 ∧ (ran State.reset 8 0).map (fun r => r.1) = some 0x806 ∧
    (ran State.reset 9 0).map (fun r => r.1) = some 0x106 := by decide +kernel

/-! ## Witnesses: states and operands that meet the hypotheses of the obligations -/

/-- A started command: CMD holds `w` and the core is Busy. -/
def started (w : Word) (src : List Byte) (cap imgW imgH : Word) : State := (before src cap imgW imgH).start w

/-- A started PACK of the bits 1, 0 with room for one byte. -/
def packing : State := started 1 [1, 0] 1 0 0

/-- A state with memory at no address. -/
def unbacked (s : State) : State := { s with platform := { base := 0, backed := [] } }

/-- O3. -/
theorem test_witness_IllegalWords : State.reset.rst = false ∧ State.reset.eng = .idle ∧ illegalWord 0 ∧ illegalWord 0x0A ∧ illegalWord 0xFF ∧
    illegalWord 0x201 ∧ illegalWord 0x101 ∧ ¬ illegalWord 0x102 ∧ ¬ illegalWord 9 := by unfold illegalWord; decide

/-- O4, O13, O17: an Idle core, and a Busy one whose command decodes and whose moves are none. -/
theorem test_witness_idle_and_busy : State.reset.rst = false ∧ State.reset.eng = .idle ∧ State.reset.moves = [] ∧
    packing.rst = false ∧ packing.eng = .busy ∧ decodeCommand packing.cmd = .ok .pack ∧ packing.moves = [] :=
  ⟨rfl, rfl, rfl, rfl, rfl, rfl, rfl⟩

/-- O5: a Busy core, a host access and a completion that answer next states. -/
theorem test_witness_BusyCore : packing.rst = false ∧ packing.eng = .busy ∧ 0x30 ∈ paramOffsets ∧
    (∃ t, step { packing with moves := [.host (.regWrite 0x10 4 7)] } = .next t) ∧ ∃ t, engineStep packing = .next t :=
  ⟨rfl, rfl, by decide, ⟨_, rfl⟩, ⟨_, rfl⟩⟩

/-- O6: moves that change BUSY and DONE, DONE and ERRCODE at a start, DONE at an acknowledgement, ERRCODE at an error, MODE. -/
theorem test_witness_StatusFields :
    (∃ t, step { packing with moves := [.engine] } = .next t ∧ t.eng ≠ packing.eng ∧ t.done ≠ packing.done) ∧
    (∃ t, step { State.reset with done := true, err := some .invalidCode, moves := [.host (.regWrite 0x08 4 1)] } = .next t ∧
      t.eng ≠ .idle ∧ t.done ≠ true ∧ t.err ≠ some .invalidCode) ∧
    (∃ t, step { State.reset with done := true, moves := [.host (.regWrite 0x0C 4 2)] } = .next t ∧ t.done ≠ true) ∧
    (∃ t, step { State.reset.start 0 with moves := [.engine] } = .next t ∧ t.err ≠ none) ∧
    (∃ t, step { started 9 [9] 0 0 0 with moves := [.engine] } = .next t ∧ t.mode ≠ 0) :=
  ⟨⟨_, rfl, by decide, by decide⟩, ⟨_, rfl, by decide, by decide, by decide⟩, ⟨_, rfl, by decide⟩, ⟨_, rfl, by decide⟩,
    ⟨_, rfl, by decide⟩⟩

/-- O7, O8, O9: IRQ_EN set; the first and last reserved offsets; the edges of the reserved STATUS bits. -/
theorem test_witness_registers : ({ State.reset with irqEn := true } : State).irqEn = true ∧
    (0x4C ≤ 4 * 19 ∧ 4 * 19 ≤ 0xFC) ∧ (0x4C ≤ 4 * 63 ∧ 4 * 63 ≤ 0xFC) ∧
    ∀ b ∈ [3, 7, 12, 15, 24, 31], (3 ≤ b ∧ b ≤ 7) ∨ (12 ≤ b ∧ b ≤ 15) ∨ (24 ≤ b ∧ b ≤ 31) := by decide

/-- O10: a completion of a Busy core; a STATUS word with bit 1. -/
theorem test_witness_IrqFollows : State.reset.rst = false ∧ packing.eng = .busy ∧ (∃ t, engineStep packing = .next t) ∧ (2 : Word).getLsbD 1 = true ∧
    State.reset.eng = .idle := ⟨rfl, rfl, ⟨_, rfl⟩, rfl, rfl⟩

/-- A core whose `rst` is asserted. -/
def held : State := { State.reset with rst := true }

/-- While `rst` is asserted a CMD write starts nothing; once it is released it does. -/
theorem test_rst_held : (∃ t, hostWrite held 0x08 1 = .next t ∧ t.eng = .idle ∧ t.cmd = 0) ∧
    (∃ t, hostWrite { held with rst := false } 0x08 1 = .next t ∧ t.eng = .busy ∧ t.cmd = 1) :=
  ⟨⟨_, rfl, rfl, rfl⟩, ⟨_, rfl, rfl, rfl⟩⟩

/-- O11: an asserted `rst` in a state with the invariant, its release, and an assertion in an Idle core. -/
theorem test_witness_rst : held.Inv ∧ held.rst = true ∧ (∃ t, rstStep held false = .next t) ∧ (∃ t, rstStep State.reset true = .next t) := by
  refine ⟨?_, rfl, ⟨_, rfl⟩, ⟨_, rfl⟩⟩
  constructor <;> decide

/-- O12: an assertion of `rst` in a Busy core answers; SRC and PAL addresses at their ends, and DST's neighbours. -/
theorem test_witness_reset : (∃ t, rstStep packing true = .next t) ∧ packing.src.holds 0x1000 = true ∧ packing.src.holds 0x1001 = true ∧
    packing.dst.holds 0x7FFF = false ∧ packing.dst.holds 0x8001 = false ∧
    ({ started 7 [] 0 0 0 with palAddr := 0x4000 } : State).pal.holds 0x4000 = true ∧
    ({ started 7 [] 0 0 0 with palAddr := 0x4000 } : State).pal.holds 0x42FF = true ∧
    (started 7 [] 0 0 0).eng = .busy ∧ decodeCommand (started 7 [] 0 0 0).cmd = .ok .encLossless :=
  ⟨⟨_, rfl⟩, rfl, rfl, rfl, rfl, rfl, rfl, rfl, rfl⟩

/-- O13, O14: two parameter offsets; PROGRESS at its bound while Busy. -/
theorem test_witness_progress : 0x10 ∈ paramOffsets ∧ 0x30 ∈ paramOffsets ∧ ({ packing with progress := 2 } : State).eng = .busy ∧
    ({ packing with progress := 2 } : State).progress.toNat ≤ packing.srcLen.toNat := by decide

/-- O15: an owned source byte, an owned palette byte, an owned destination byte, backed bytes no range holds, and an Idle
core whose CMD is no command. -/
theorem test_witness_ownership : packing.eng = .busy ∧ decodeCommand packing.cmd = .ok .pack ∧ packing.cmd.toNat % 256 ≠ 7 ∧
    (∃ r ∈ packing.dst :: packing.inputs false, r.holds 0x1001 = true) ∧ packing.dst.holds 0x8000 = true ∧
    (started 7 [] 0 0 0).eng = .busy ∧ (started 7 [] 0 0 0).cmd.toNat % 256 = 7 ∧
    (∃ r ∈ (started 7 [] 0 0 0).dst :: (started 7 [] 0 0 0).inputs true, r.holds 0x2FF = true) ∧
    backedAt packing.platform.backed 0xFFFFFFFF = true ∧
    (∀ r ∈ packing.dst :: packing.inputs false, r.holds 0xFFFFFFFF = false) ∧ packing.dst.holds 0x1000 = false ∧
    backedAt State.reset.platform.backed 0 = true ∧ State.reset.eng = .idle ∧
    decodeCommand State.reset.cmd = .error (.reservedOpcode 0) :=
  ⟨rfl, rfl, by decide, by decide, rfl, rfl, rfl, by decide, by decide, by decide, rfl, by decide, rfl, rfl⟩

/-- O16: a byte access at the first offset, and a word access at the last. -/
theorem test_witness_alignment : (0 < 256 ∧ (1 ≠ 4 ∨ 0 % 4 ≠ 0)) ∧ (255 < 256 ∧ (4 ≠ 4 ∨ 255 % 4 ≠ 0)) := by decide

/-- O18: a started command, two polls to come, every range backed. -/
theorem test_witness_polling :
    let s := { packing with moves := List.replicate 2 (.host (.regRead (packing.platform.base + 0x0C) 4)) }
    s.eng = .busy ∧ ∀ i, decodeCommand s.cmd = .ok i → s.rangesBacked i.usesPal = true := by
  refine ⟨rfl, fun i h => ?_⟩
  have : Except.ok Instr.pack = Except.ok (ε := DecodeError) i := h
  cases this
  decide

/-- O19: an unbacked destination byte; and an empty command, no address of which is unbacked. -/
theorem test_witness_unbacked : (∃ a, Instr.pack.touchesUnbacked (unbacked packing) a) ∧
    ∀ a, ¬ Instr.pack.touchesUnbacked State.reset a := by
  refine ⟨⟨0x8000, by decide, ⟨(unbacked packing).dst, by decide, by decide⟩, by decide⟩, ?_⟩
  rintro a ⟨_, ⟨r, hr, h⟩, _⟩
  have hr : r ∈ [State.reset.dst, State.reset.src] := hr
  simp only [List.mem_cons, List.not_mem_nil, or_false] at hr
  have hl : ∀ q ∈ [State.reset.dst, State.reset.src], q.len = 0 := by decide
  have hq : r.len = 0 := hl r (by simp [hr])
  rw [Range.holds_iff, hq] at h
  omega

/-- O20: a range that ends past 2^32, one that shares, and ranges in order, one ending at 2^32. -/
theorem test_witness_ranges :
    let wraps : State := { packing with srcAddr := 0xFFFFFFFF }
    let ends : State := { packing with srcAddr := 0xFFFFFFFE }
    let shares : State := { packing with srcAddr := 0x7FFF }
    (wraps.rangesBacked false = true ∧ ∃ r ∈ Instr.pack.ranges wraps, 2 ^ 32 < r.addr + r.len) ∧
    (shares.rangesBacked false = true ∧ ∃ r ∈ shares.inputs false, shares.dst.holds 0x8000 = true ∧ r.holds 0x8000 = true) ∧
    (ends.rangesBacked false = true ∧ (∀ r ∈ Instr.pack.ranges ends, r.addr + r.len ≤ 2 ^ 32)) ∧
    (∀ r ∈ packing.inputs false, ∀ a, ¬ (packing.dst.holds a = true ∧ r.holds a = true)) := by
  refine ⟨by decide, by decide, by decide, ?_⟩
  intro r hr a
  simp only [State.inputs, Bool.false_eq_true, if_false, List.mem_singleton] at hr
  subst hr
  simp [Range.holds, State.dst, State.src, packing, started, before, State.start]
  omega

/-- O21, O22: dimensions one past the bound and at it; lengths that do not fit them. -/
theorem test_witness_dimensions :
    (∀ s ∈ [started 5 [] 0 65536 0, started 6 [] 0 0 65536, started 7 [] 0 65536 0, started 8 [] 0 0 65536],
      ∀ p : Bool, s.rangesBacked p = true ∧ s.rangesOk p = true ∧ (65535 < s.imgW.toNat ∨ 65535 < s.imgH.toNat)) ∧
    (∀ s ∈ [started 5 [] 0 65535 65535, started 8 [] 0 1 1],
      s.rangesBacked false = true ∧ s.rangesOk false = true ∧ s.imgW.toNat ≤ 65535 ∧ s.imgH.toNat ≤ 65535 ∧
      s.srcLen.toNat ≠ 3 * s.imgW.toNat * s.imgH.toNat) ∧
    (started 7 [] 0 1 1).rangesBacked true = true ∧ (started 7 [] 0 1 1).rangesOk true = true ∧
    (started 7 [] 0 1 1).srcLen.toNat ≠ (started 7 [] 0 1 1).imgW.toNat * (started 7 [] 0 1 1).imgH.toNat := by decide

/-- O23: completions of an illegal word and of a command. -/
theorem test_witness_firstError : (∃ t, engineStep (started 0 [] 0 0 0) = .next t) ∧ illegalWord (started 0 [] 0 0 0).cmd ∧
    ∃ t, engineStep packing = .next t := ⟨⟨_, rfl⟩, by unfold illegalWord; decide, ⟨_, rfl⟩⟩

/-- O24: a transform's error, an overflow by one byte, an exact fit. -/
theorem test_witness_results :
    (started 1 [2] 1 0 0).mem.wf = true ∧
    ((started 1 [2] 1 0 0).rangesBacked false = true ∧ (started 1 [2] 1 0 0).earlyError Checks.plain = none) ∧
    (Instr.pack.transform (started 1 [2] 1 0 0)).result = .error .invalidOperand ∧
    ((started 1 [1] 0 0 0).rangesBacked false = true ∧ (started 1 [1] 0 0 0).earlyError Checks.plain = none) ∧
    (Instr.pack.transform (started 1 [1] 0 0 0)).result = .ok ([0x80], {}) ∧
    (packing.rangesBacked false = true ∧ packing.earlyError Checks.plain = none) ∧
    (Instr.pack.transform packing).result = .ok ([0x80], {}) :=
  ⟨by decide, by decide, rfl, by decide, rfl, by decide, rfl⟩

/-- O25, O26, O27, O28, O30: completions with an early error, a late one, and none; a source address at each end. -/
theorem test_witness_completions :
    (∃ t, exec .pack { packing with srcAddr := 0x7FFF } = .next t ∧ t.err = some .invalidOperand ∧
      State.earlyError { packing with srcAddr := 0x7FFF } (Instr.pack.checks packing) = some .invalidOperand) ∧
    (∃ t, exec .pack (started 1 [2] 1 0 0) = .next t ∧ t.err = some .invalidOperand) ∧
    (∃ t, exec .pack packing = .next t ∧ t.err = none ∧ t.outLen = 1) ∧
    (∃ r ∈ packing.inputs false, r.holds 0x1000 = true ∧ r.holds 0x1001 = true) :=
  ⟨⟨_, rfl, rfl, by decide⟩, ⟨_, rfl, rfl⟩, ⟨_, rfl, rfl, by decide⟩, by decide⟩

/-- O30: an Idle core with `rst` released; commands that run each engine and pass their early checks. -/
theorem test_witness_work : State.reset.rst = false ∧ State.reset.eng = .idle ∧
    (∃ t, exec .lzwEnc (started 3 [] 0 0 0) = .next t) ∧ (∃ t, exec .lzwDec (started 4 [] 0 0 0) = .next t) ∧
    (∃ t, exec .blkRecon (started 6 [] 0 0 0) = .next t) ∧
    (∀ s ∈ [started 3 [] 0 0 0, started 4 [] 0 0 0], s.earlyError Checks.plain = none) ∧
    (started 6 [] 0 0 0).earlyError (Instr.blkRecon.checks (started 6 [] 0 0 0)) = none :=
  ⟨rfl, rfl, ⟨_, rfl⟩, ⟨_, rfl⟩, ⟨_, rfl⟩, by decide, by decide⟩

/-- 10_state.md R52: BLK_RECON of no record keeps nothing of the block values a command before it left. -/
theorem test_work_initialised :
    (match step { started 6 [] 0 0 0 with work := { Work.initial with block := { BlockWork.initial with n0 := 7, mask := [true] } } } with
     | .next t => some t.work.block | .fault _ => none | .refused _ => none) = some BlockWork.initial := by decide +kernel

/-- O29, O32: two started PACKs that differ in memory outside their source and in their working state, their completions,
and a step of a state with the invariant. -/
theorem test_witness_determinism :
    let other : State := { packing with mem := packing.mem.writeByte 0 1, work := Work.atReset, busData := 5, draws := 9 }
    packing.Inv ∧ packing.mem.wf = true ∧ other.mem.wf = true ∧ packing.resultsClear ∧ other.resultsClear ∧
    packing.sameParams other ∧ packing.mode = other.mode ∧ packing.srcBytes = other.srcBytes ∧ (∃ t, exec .pack packing = .next t) ∧ (∃ t, exec .pack other = .next t) ∧
    (∃ t, step packing = .next t) := by
  refine ⟨?_, by decide, by decide, by decide, by decide, ?_, rfl, by decide, ⟨_, rfl⟩, ⟨_, rfl⟩, ⟨_, rfl⟩⟩
  · constructor <;> decide
  · unfold State.sameParams; decide

/-- O33, O34: the last bit of a second byte; a limit under and one over the bits there are. -/
theorem test_witness_bits : (1 < ceilDiv (List.replicate 9 true).length 8 ∧ 7 < 8) ∧ (1 < ([1, 2] : List Byte).length ∧ 7 < 8) ∧
    4 < min 5 (8 * ([1] : List Byte).length) ∧ 7 < min 9 (8 * ([1] : List Byte).length) := by decide

/-- O35, O36: sources of bits, sources that are not, and destinations of exactly the result's length. -/
theorem test_witness_bitCommands :
    (packing.rangesBacked false = true ∧ packing.rangesOk false = true ∧ (∀ x ∈ packing.srcBytes, x = 0 ∨ x = 1) ∧
      ceilDiv packing.srcLen.toNat 8 ≤ packing.dstCap.toNat) ∧
    (∃ x ∈ (started 1 [2] 1 0 0).srcBytes, x ≠ 0 ∧ x ≠ 1) ∧
    ((started 2 [7] 8 0 0).rangesBacked false = true ∧ (started 2 [7] 8 0 0).rangesOk false = true ∧
      8 * (started 2 [7] 8 0 0).srcLen.toNat ≤ (started 2 [7] 8 0 0).dstCap.toNat) ∧
    min ({ started 0x102 [7] 3 0 0 with limit := 3 } : State).limit.toNat 8 ≤ (started 0x102 [7] 3 0 0).dstCap.toNat := by decide

/-- O37, O38, O39: an emitted code, a first entry past 255 of an encode and of a decode, a non-empty input. -/
theorem test_witness_lzw : ([65] : List Byte) ≠ [] ∧ (Enc.run ([65] ++ [66])).codes = (Enc.run [65]).codes ++ [65] ∧
    (Enc.run [65, 66]).dict[256]? = some [65, 66] ∧ (Dec.run [65, 66]).1.dict[256]? = some [65, 66] := by decide +kernel

/-- O40, O41: a code stream that fits exactly; one that parses and decodes to just the room there is. -/
theorem test_witness_lzwCommands :
    ((started 3 [65] 2 0 0).rangesBacked false = true ∧ (started 3 [65] 2 0 0).rangesOk false = true ∧
      2 * (lzwEncode (started 3 [65] 2 0 0).srcBytes).1.length ≤ (started 3 [65] 2 0 0).dstCap.toNat) ∧
    (started 4 [0, 65] 1 0 0).rangesBacked false = true ∧ (started 4 [0, 65] 1 0 0).rangesOk false = true ∧
    parseCodes (started 4 [0, 65] 1 0 0).srcBytes = .ok [65] ∧ lzwDecode [65] = .ok ([65], 256) ∧
    ([65] : List Byte).length ≤ (started 4 [0, 65] 1 0 0).dstCap.toNat := by decide +kernel

/-- A decode of `n` codes 65 after the first runs to the end, and fills the dictionary up to the cap. -/
theorem loop_65 (n : Nat) : ∀ d : Dec, 256 ≤ d.dict.length → d.dict.length ≤ 4096 →
    ∃ d', Dec.loop d (List.replicate n 65) = (d', none) ∧ d'.dict.length = min 4096 (d.dict.length + n) := by
  induction n with
  | zero => intro d _ h2; exact ⟨d, rfl, by omega⟩
  | succ n ih =>
    intro d h1 h2
    have he : d.entry 65 = some (d.dict.getD 65 []) := by
      unfold Dec.entry; rw [classify_known (by omega)]
    have hl : (d.take (d.dict.getD 65 [])).dict.length = min 4096 (d.dict.length + 1) := Dict.insert_length _ _ h2
    obtain ⟨d', h3, h4⟩ := ih (d.take (d.dict.getD 65 [])) (by omega) (by omega)
    refine ⟨d', ?_, by omega⟩
    rw [List.replicate_succ]
    unfold Dec.loop
    rw [he]
    exact h3

/-- O42: the first code at its bound and below it; a later code above the size, equal to it, and below it; and a full dictionary. -/
theorem test_witness_badStreams : ([] : List Byte).length = 0 ∧ ([1] : List Byte).length % 2 = 1 ∧ 256 ≤ 256 ∧ 255 < 256 ∧
    lzwDecode [65] = .ok ([65], 256) ∧ 256 < 257 ∧ (256 = 256 ∧ 256 < 4096) ∧ 255 < 256 ∧
    ∃ ks out, lzwDecode ks = .ok (out, 4096) := by
  refine ⟨rfl, rfl, by decide, by decide, by decide +kernel, by decide, by decide, by decide, ?_⟩
  obtain ⟨d, h1, h2⟩ := loop_65 3840 { Dec.init with previous := Dict.init.getD 65 [], out := Dict.init.getD 65 [] }
    (by simp [Dec.init]) (by simp [Dec.init])
  refine ⟨65 :: List.replicate 3840 65, d.out, ?_⟩
  have hr : Dec.run (65 :: List.replicate 3840 65) = (d, none) := by
    rw [Dec.run, if_neg (by omega)]; exact h1
  have hd : d.dict.length = 4096 := by rw [h2]; simp [Dec.init]
  rw [lzwDecode, hr]
  show Except.ok (d.out, d.dict.length) = _
  rw [hd]

/-- O43, O44: a block with both groups, one of a single luma, and 256 pixels of one colour. -/
theorem test_witness_blocks : ([⟨0, 0, 0⟩, ⟨255, 255, 255⟩] : List Rgb) ≠ [] ∧
    0 < (analyseBlock [⟨0, 0, 0⟩, ⟨255, 255, 255⟩]).n0 ∧ (analyseBlock [⟨40, 0, 29⟩, ⟨0, 26, 0⟩]).n0 = 0 ∧
    (∀ p ∈ List.replicate 256 (⟨10, 20, 30⟩ : Rgb), p = ⟨10, 20, 30⟩) ∧ (List.replicate 256 (⟨10, 20, 30⟩ : Rgb)).length = 256 :=
  ⟨by decide, by decide +kernel, by decide +kernel, fun _ h => List.eq_of_mem_replicate h, List.length_replicate⟩

/-- O45, O46: blocks, and pixels, at the clipped edge of a 17 × 2 image; a multiple of 16. -/
theorem test_witness_grid : (0, 1) ∈ grid 17 2 16 ∧ 1 < (blockRect 17 2 16 (0, 1)).count ∧
    (blockRect 17 2 16 (0, 1)).pixel 1 = (16, 1) ∧ 16 < 17 ∧ 1 < 2 ∧ 32 % 16 = 0 := by decide

/-- O47, O48: payloads for a 1 × 1 image: short by a byte, exact, and long by one. -/
theorem test_witness_payloads : ((grid 1 1 16).map fun g => (blockRect 1 1 16 g).recordLen).sum = 7 ∧
    (List.replicate 6 (0 : Byte)).length < 7 ∧ 7 < (List.replicate 8 (0 : Byte)).length ∧
    ([[1, 2, 3, 4, 5, 6, 0x80]] : List (List Byte)).map List.length = (grid 1 1 16).map (fun g => (blockRect 1 1 16 g).recordLen) ∧
    (grid 1 1 16)[0]? = some (0, 0) ∧ 0 < (blockRect 1 1 16 (0, 0)).count := by decide

/-- O49, O50: a block of one colour (hi = lo); one whose two lumas differ; one with hi ≠ lo of equal luma. -/
theorem test_witness_secondPass : (0, 0) ∈ grid 3 1 16 ∧ (0, 0) ∈ grid 1 1 16 ∧
    (∀ p ∈ blockPixels [10, 20, 30] 1 (blockRect 1 1 16 (0, 0)), p = ⟨10, 20, 30⟩) ∧
    (quantBlock [10, 20, 30] 1 1 (0, 0)).hi = (quantBlock [10, 20, 30] 1 1 (0, 0)).lo ∧
    luma (quantBlock [0, 0, 0, 255, 255, 255] 2 1 (0, 0)).hi ≠ luma (quantBlock [0, 0, 0, 255, 255, 255] 2 1 (0, 0)).lo ∧
    (quantBlock [40, 1, 29, 41, 0, 30, 0, 26, 0] 3 1 (0, 0)).hi ≠ (quantBlock [40, 1, 29, 41, 0, 30, 0, 26, 0] 3 1 (0, 0)).lo ∧
    luma (quantBlock [40, 1, 29, 41, 0, 30, 0, 26, 0] 3 1 (0, 0)).hi =
      luma (quantBlock [40, 1, 29, 41, 0, 30, 0, 26, 0] 3 1 (0, 0)).lo := by decide +kernel

/-- O51, O52, O54: 1 × 1 images whose results fit exactly. -/
theorem test_witness_blockCommands :
    (∀ s ∈ [started 5 [10, 20, 30] 7 1 1, started 8 [10, 20, 30] 13 1 1],
      s.rangesBacked false = true ∧ s.rangesOk false = true ∧ s.imgW.toNat ≤ 65535 ∧ s.imgH.toNat ≤ 65535 ∧
      s.srcLen.toNat = 3 * s.imgW.toNat * s.imgH.toNat) ∧
    ((grid 1 1 16).map fun g => 6 + ceilDiv (blockRect 1 1 16 g).count 8).sum ≤ (started 5 [10, 20, 30] 7 1 1).dstCap.toNat ∧
    6 + (quantize [10, 20, 30] 1 1).length ≤ (started 8 [10, 20, 30] 13 1 1).dstCap.toNat ∧
    (started 6 [1, 2, 3, 4, 5, 6, 0x80] 3 1 1).rangesBacked false = true ∧ (started 6 [1, 2, 3, 4, 5, 6, 0x80] 3 1 1).rangesOk false = true ∧
    reconstruct (started 6 [1, 2, 3, 4, 5, 6, 0x80] 3 1 1).srcBytes 1 1 16 = .ok [4, 5, 6] := by decide +kernel

/-- O53: a 1 × 1 index image whose stream of 775 bytes fits exactly. -/
theorem test_witness_encLossless : let s := { started 7 [65] 775 1 1 with palAddr := 0x4000 }
    s.rangesBacked true = true ∧ s.rangesOk true = true ∧ s.imgW.toNat ≤ 65535 ∧ s.imgH.toNat ≤ 65535 ∧
    s.srcLen.toNat = s.imgW.toNat * s.imgH.toNat ∧ 773 + 2 * (lzwEncode s.srcBytes).1.length ≤ s.dstCap.toNat := by decide +kernel

/-- O55: a mode-0 stream of a 1 × 1 image, its code 65, with room for three bytes. -/
theorem test_witness_decodeLossless : let s := started 9 ([0, 0, 1, 0, 1] ++ List.replicate 768 0 ++ [0, 65]) 3 0 0
    s.rangesBacked false = true ∧ s.rangesOk false = true ∧ 773 ≤ s.srcLen.toNat ∧ s.srcBytes.headD 0 = 0 ∧
    decodeCodeStream (s.srcBytes.drop 773) = .ok ([65], 1, 256) ∧ 1 = rd16 s.srcBytes 1 * rd16 s.srcBytes 3 ∧
    3 * 1 ≤ s.dstCap.toNat := by decide +kernel

/-- O56, O57: a mode-4 stream of a 1 × 1 image, with room for three bytes, and one byte short of it. -/
theorem test_witness_decodeLossy :
    (∀ s ∈ [started 9 [4, 0, 1, 0, 1, 16, 1, 2, 3, 4, 5, 6, 0x80] 3 0 0, started 9 [4, 0, 1, 0, 1, 16, 1, 2, 3, 4, 5, 6, 0x80] 2 0 0],
      s.rangesBacked false = true ∧ s.rangesOk false = true ∧ 6 ≤ s.srcLen.toNat ∧ s.srcBytes.headD 0 = 4 ∧
      reconstruct (s.srcBytes.drop 6) (rd16 s.srcBytes 1) (rd16 s.srcBytes 3) (s.srcBytes.getD 5 0).toNat = .ok [4, 5, 6] ∧
      decodeStream s.srcBytes = .ok ([4, 5, 6], { outW := some 1, outH := some 1 })) ∧
    (started 9 [4, 0, 1, 0, 1, 16, 1, 2, 3, 4, 5, 6, 0x80] 2 0 0).earlyError Checks.plain = none ∧
    (2 : Word).toNat < 3 * 1 * 1 := by decide +kernel

/-- O57: streams for its clauses: short, without a code, half a code, a bad first code, one index for no pixel; and of mode 4:
short, and with payloads a byte too short and a byte too long. -/
theorem test_witness_badStreamsOfDecode :
    (0 :: List.replicate 771 (0 : Byte)).length < 773 ∧ (0 :: List.replicate 772 (0 : Byte)).length - 773 = 0 ∧
    ((0 :: List.replicate 773 (0 : Byte)).length - 773) % 2 = 1 ∧
    (parseCodes ((0 :: (List.replicate 772 (0 : Byte) ++ [1, 0])).drop 773) = .ok [256] ∧ lzwDecode [256] = .error .invalidCode) ∧
    (parseCodes ((0 :: (List.replicate 772 (0 : Byte) ++ [0, 65])).drop 773) = .ok [65] ∧ lzwDecode [65] = .ok ([65], 256) ∧
      ([65] : List Byte).length ≠ rd16 (0 :: (List.replicate 772 (0 : Byte) ++ [0, 65])) 1 * rd16 (0 :: (List.replicate 772 (0 : Byte) ++ [0, 65])) 3) ∧
    ([4, 0, 1, 0, 1] : List Byte).length < 6 ∧
    ([4, 0, 1, 0, 1, 16, 0, 0, 0, 0, 0, 0] : List Byte).length - 6 < ((grid 1 1 16).map fun g => (blockRect 1 1 16 g).recordLen).sum ∧
    ((grid 1 1 16).map fun g => (blockRect 1 1 16 g).recordLen).sum < ([4, 0, 1, 0, 1, 16, 0, 0, 0, 0, 0, 0, 0, 0] : List Byte).length - 6 := by
  decide +kernel

/-- O58, O59: DECODEs that end in a next state with and without an early error, and encodes that succeed. -/
theorem test_witness_containers :
    (∃ t, exec .decode (started 9 [9] 0 0 0) = .next t ∧ (started 9 [9] 0 0 0).earlyError Checks.plain = none) ∧
    (∃ t, exec .decode { started 9 [9] 1 0 0 with srcAddr := 0x8000 } = .next t ∧
      State.earlyError { started 9 [9] 1 0 0 with srcAddr := 0x8000 } Checks.plain = some .invalidOperand) ∧
    (∃ t, exec .encLossless { started 7 [65] 775 1 1 with palAddr := 0x4000 } = .next t ∧ t.err = none) ∧
    (∃ t, exec .encLossy (started 8 [10, 20, 30] 13 1 1) = .next t ∧ t.err = none) := by
  have h7 : (match exec .encLossless { started 7 [65] 775 1 1 with palAddr := 0x4000 } with
      | .next t => t.err == none | _ => false) = true := by decide +kernel
  have h8 : (match exec .encLossy (started 8 [10, 20, 30] 13 1 1) with | .next t => t.err == none | _ => false) = true := by
    decide +kernel
  refine ⟨⟨_, rfl, by decide⟩, ⟨_, rfl, by decide⟩, ?_, ?_⟩
  · split at h7
    · exact ⟨_, ‹_›, by simpa using h7⟩
    · cases h7
  · split at h8
    · exact ⟨_, ‹_›, by simpa using h8⟩
    · cases h8

/-- O60: an image of one pixel, and one of none, with a palette. -/
theorem test_witness_roundTrips : (List.replicate 768 (0 : Byte)).length = 768 ∧ ([65] : List Byte).length = 1 * 1 ∧ 1 ≤ 1 * 1 ∧
    ([] : List Byte).length = 0 * 65535 ∧ 65535 ≤ 65535 := by simp

end Sys2Proof.Tests
end

section
/-! What the host's register port and the engine's turn do to the register block, said once: the reading rules of
10_state.md R32 to R48, and the frame of a host access and of a completion (R37, R48, R50). -/

namespace Sys2Proof.Machine

/-! ### The register port -/

/-- A register write with `rst` released is the write of the register at its offset. -/
theorem hostWrite_released {s : State} (hr : s.rst = false) (v : Word) {o : Nat} (ho : o < 256) (ha : o % 4 = 0) :
    hostWrite s o v = .next (s.writeReg v (regAt o)) := by
  rw [hostWrite_eq, State.atRegister_offset s _ ho ha, State.portWrite_released hr]

/-- A register read, at any level of `rst`, is the read of the register at its offset. -/
theorem hostRead_offset (s : State) {o : Nat} (ho : o < 256) (ha : o % 4 = 0) :
    hostRead s o = .next (s.readReg (regAt o)) := by
  rw [hostRead_eq, State.atRegister_offset s _ ho ha]

/-- A write that its register ignores changes nothing, at any level of `rst`. -/
theorem hostWrite_ignored {s : State} {v : Word} {o : Nat} (ho : o < 256) (ha : o % 4 = 0)
    (h : s.writeReg v (regAt o) = s) : hostWrite s o v = .next s := by
  rw [hostWrite_eq, State.atRegister_offset s _ ho ha]
  unfold State.portWrite
  rw [h, ite_self]

theorem hostWrite_ctrl {s : State} (hr : s.rst = false) (v : Word) :
    hostWrite s 0x04 v = .next { s with irqEn := v.getLsbD 0 } :=
  hostWrite_released hr v (by decide) (by decide)

theorem hostWrite_status {s : State} (hr : s.rst = false) (v : Word) :
    hostWrite s 0x0C v = .next (s.acknowledge v) :=
  hostWrite_released hr v (by decide) (by decide)

theorem hostWrite_cmd_idle {s : State} (hr : s.rst = false) (he : s.eng = .idle) (v : Word) :
    hostWrite s 0x08 v = .next (s.start v) := by
  rw [hostWrite_released hr v (by decide) (by decide)]
  exact congrArg _ (State.whenIdle_idle he)

/-- While Busy, CMD and the parameter registers ignore a write (10_state.md R48). -/
theorem hostWrite_busy_ignored {s : State} (he : s.eng = .busy) (v : Word) {o : Nat} (ho : o ∈ 0x08 :: paramOffsets) :
    hostWrite s o v = .next s := by
  have offset_ok : ∀ o ∈ 0x08 :: paramOffsets, o < 256 ∧ o % 4 = 0 := by decide
  refine hostWrite_ignored (offset_ok o ho).1 (offset_ok o ho).2 ?_
  simp only [paramOffsets, List.mem_cons, List.not_mem_nil, or_false] at ho
  rcases ho with rfl | rfl | rfl | rfl | rfl | rfl | rfl | rfl | rfl | rfl <;> exact State.whenIdle_busy he

/-- The offsets from 0x4C on hold no register (10_state.md R47). -/
theorem regAt_reserved {o : Nat} (h : 0x4C ≤ o) : regAt o = none := by
  unfold regAt
  split <;> try omega
  rfl

/-! ### The words of CTRL and STATUS, and irq -/

theorem State.ctrlWord_eq_ite (s : State) : s.ctrlWord = if s.irqEn then 1 else 0 := by
  unfold State.ctrlWord
  cases s.irqEn <;> decide

/-- The bits of STATUS, as 10_state.md R36 places them. -/
theorem State.statusWord_getLsbD (s : State) (j : Nat) : s.statusWord.getLsbD j =
    if j = 0 then s.busyBit else if j = 1 then s.done else if j = 2 then s.errBit else if j < 8 then false
    else if j < 12 then s.errCode.getLsbD (j - 8) else if j < 16 then false
    else if j < 24 then s.mode.getLsbD (j - 16) else false := by
  change BitVec.getLsbD (w := 8 + 8 + 4 + 4 + 5 + 1 + 1 + 1) (0#8 ++ s.mode ++ 0#4 ++ s.errCode ++ 0#5 ++
    BitVec.ofBool s.errBit ++ BitVec.ofBool s.done ++ BitVec.ofBool s.busyBit) j = _
  simp only [BitVec.getLsbD_append, BitVec.getLsbD_zero, BitVec.getLsbD_ofBool, Nat.sub_sub]
  grind

theorem State.statusWord_errBit (s : State) : s.statusWord.getLsbD 2 = s.errBit := by
  rw [State.statusWord_getLsbD]
  rfl

theorem State.statusWord_errCode (s : State) : s.statusWord.extractLsb' 8 4 = s.errCode := by
  ext i hi
  rw [BitVec.getElem_extractLsb', State.statusWord_getLsbD, if_neg (by omega), if_neg (by omega), if_neg (by omega),
    if_neg (by omega), if_pos (by omega), Nat.add_sub_cancel_left, BitVec.getLsbD_eq_getElem hi]

theorem State.errBit_eq_decide (s : State) : s.errBit = decide (s.errCode ≠ 0) := by
  rw [Bool.eq_iff_iff, decide_eq_true_iff]
  exact bne_iff_ne

/-- The interrupt output is DONE and IRQ_EN (10_state.md R51). -/
theorem State.irq_iff (s : State) : s.irq = true ↔ s.done = true ∧ s.irqEn = true := by
  unfold State.irq
  exact Bool.and_eq_true_iff

/-! ### What a completion leaves unchanged -/

theorem State.sameParams_refl (s : State) : s.sameParams s := by simp [State.sameParams]

/-- A transform that ran ends in a success or in the error state of some kind over unspecified destination bytes. -/
theorem State.finish_form (s : State) (tr : Transform) :
    (∃ out info, s.finish tr = (s.note tr).succeed out info) ∨
    (∃ k n, s.finish tr = ((s.note tr).scrambleDst []).raise k n) := by
  rcases s.finish_cases tr with ⟨k, -, h⟩ | ⟨out, -, -, -, h⟩ | ⟨out, info, -, -, h⟩
  · exact .inr ⟨k, _, h⟩
  · exact .inr ⟨_, _, h⟩
  · exact .inl ⟨out, info, h⟩

@[simp] theorem State.finish_eng (s : State) (tr : Transform) : (s.finish tr).eng = .idle := by
  obtain ⟨_, _, h⟩ | ⟨_, _, h⟩ := s.finish_form tr <;> rw [h] <;> rfl

@[simp] theorem State.finish_done (s : State) (tr : Transform) : (s.finish tr).done = true := by
  obtain ⟨_, _, h⟩ | ⟨_, _, h⟩ := s.finish_form tr <;> rw [h] <;> rfl

@[simp] theorem State.finish_irqEn (s : State) (tr : Transform) : (s.finish tr).irqEn = s.irqEn := by
  obtain ⟨_, _, h⟩ | ⟨_, _, h⟩ := s.finish_form tr <;> rw [h] <;> rfl

@[simp] theorem State.finish_mode (s : State) (tr : Transform) : (s.finish tr).mode = tr.mode.getD s.mode := by
  obtain ⟨_, _, h⟩ | ⟨_, _, h⟩ := s.finish_form tr <;> rw [h] <;> rfl

theorem State.finish_sameParams (s : State) (tr : Transform) : s.sameParams (s.finish tr) := by
  obtain ⟨_, _, h⟩ | ⟨_, _, h⟩ := s.finish_form tr <;> rw [h] <;> exact s.sameParams_refl

/-- DECODE alone gives STATUS.MODE a value (44_container.md R300). -/
theorem Instr_transform_mode {i : Instr} (h : i ≠ .decode) (s : State) : (i.transform s).mode = none := by
  cases i with
  | decode => exact absurd rfl h
  | _ => rfl

/-- What the turn of a Busy engine can do when it answers a next state: an early error (an illegal word's included), or
the completion of a legal command whose early checks pass. -/
theorem engineTurn_busy_next {s t : State} (he : s.eng = .busy) (h : engineTurn s = .next t) :
    (∃ k, t = s.raiseEarly k) ∨
    (∃ i, decodeCommand s.cmd = .ok i ∧ s.earlyError (i.checks s) = none ∧ t = s.finish (i.transform s)) := by
  cases hd : decodeCommand s.cmd with
  | error e =>
    rw [engineTurn_busy_error he hd] at h
    cases h
    exact .inl ⟨_, rfl⟩
  | ok i =>
    rw [engineTurn_busy_ok he hd] at h
    obtain ⟨-, ⟨k, -, rfl⟩ | ⟨hc, rfl⟩⟩ := exec_next h
    · exact .inl ⟨k, rfl⟩
    · exact .inr ⟨i, rfl, hc, rfl⟩

/-- A completion sets DONE, leaves the engine Idle, and keeps IRQ_EN and the parameter registers (R48, R50). -/
theorem engineTurn_busy_completes {s t : State} (he : s.eng = .busy) (h : engineTurn s = .next t) :
    t.eng = .idle ∧ t.done = true ∧ t.irqEn = s.irqEn ∧ s.sameParams t := by
  obtain ⟨k, rfl⟩ | ⟨i, -, -, rfl⟩ := engineTurn_busy_next he h
  · exact ⟨rfl, rfl, rfl, s.sameParams_refl⟩
  · exact ⟨State.finish_eng .., State.finish_done .., State.finish_irqEn .., State.finish_sameParams ..⟩

/-- STATUS.MODE changes only at the completion of a DECODE that passed its early checks (R50, 44_container.md R300). -/
theorem engineTurn_busy_mode {s t : State} (he : s.eng = .busy) (h : engineTurn s = .next t) (hm : t.mode ≠ s.mode) :
    decodeCommand s.cmd = .ok .decode ∧ s.earlyError (Instr.decode.checks s) = none := by
  obtain ⟨k, rfl⟩ | ⟨i, hd, hc, rfl⟩ := engineTurn_busy_next he h
  · exact absurd rfl hm
  · by_cases hi : i = .decode
    · subst hi
      exact ⟨hd, hc⟩
    · rw [State.finish_mode, Instr_transform_mode hi] at hm
      exact absurd rfl hm

/-! ### What a host access leaves unchanged -/

/-- The stored fields of STATUS (10_state.md R36) agree in two states. -/
def State.sameStatus (s t : State) : Prop := t.eng = s.eng ∧ t.done = s.done ∧ t.err = s.err ∧ t.mode = s.mode

theorem State.sameStatus_refl (s : State) : s.sameStatus s := ⟨rfl, rfl, rfl, rfl⟩

/-- A host access is a start, an acknowledgement, or leaves the STATUS fields alone and, while Busy, the parameter
registers too (R48, R50). -/
theorem hostStep_writers {op : HostOp} {s t : State} (h : hostStep op s = .next t) :
    (s.sameStatus t ∧ (s.eng = .busy → s.sameParams t)) ∨
    (∃ v, op = .regWrite (s.platform.base + 0x08) 4 v ∧ s.eng = .idle ∧ t = s.start v) ∨
    (∃ v, op = .regWrite (s.platform.base + 0x0C) 4 v ∧ t = s.acknowledge v) := by
  have unchanged : s.sameStatus s ∧ (s.eng = .busy → s.sameParams s) := ⟨s.sameStatus_refl, fun _ => s.sameParams_refl⟩
  rcases hostStep_next h with ⟨o, -, -, rfl⟩ | ⟨o, v, rfl, -, rfl⟩ | ⟨a, -, rfl⟩ | ⟨a, v, -, -, -, rfl⟩
  · left
    obtain ⟨x, hx⟩ | ⟨-, -, hx⟩ := s.readReg_cases (regAt o) <;> rw [hx] <;> exact unchanged
  · cases hr : s.rst with
    | true => rw [State.portWrite_held hr]; exact .inl unchanged
    | false =>
      rw [State.portWrite_released hr]
      rcases s.writeReg_cases v (regAt o) with hw | hw | ⟨ho, he, hw⟩ | ⟨ho, hw⟩ | ⟨he, _, _, _, _, _, _, _, _, _, hw⟩ <;> rw [hw]
      · exact .inl unchanged
      · exact .inl unchanged
      · rw [regAt_cmd ho]; exact .inr (.inl ⟨v, rfl, he, rfl⟩)
      · rw [regAt_status ho]; exact .inr (.inr ⟨v, rfl, rfl⟩)
      · exact .inl ⟨s.sameStatus_refl, fun hb => by rw [he] at hb; cases hb⟩
  · exact .inl unchanged
  · exact .inl unchanged

/-- While Busy no host access changes a parameter register (R48). -/
theorem hostStep_busy_sameParams {op : HostOp} {s t : State} (he : s.eng = .busy) (h : hostStep op s = .next t) :
    s.sameParams t := by
  obtain ⟨-, hp⟩ | ⟨v, -, hi, -⟩ | ⟨v, -, rfl⟩ := hostStep_writers h
  · exact hp he
  · rw [he] at hi; cases hi
  · exact s.sameParams_refl

/-! ### Who writes the fields of STATUS -/

/-- A move `m` from `s` to `t` that changes BUSY, DONE, ERRCODE or MODE is one of the writers R37 and R50 name: a start, a
completion, or for DONE a STATUS write with bit 1. -/
def StatusWriters (m : Move) (s t : State) : Prop :=
  (t.eng ≠ s.eng → (s.eng = .busy ∧ t.eng = .idle ∧ m = .engine) ∨
    (s.eng = .idle ∧ t.eng = .busy ∧ ∃ v, m = .host (.regWrite (s.platform.base + 0x08) 4 v))) ∧
  (t.done ≠ s.done → (t.done = true ∧ s.eng = .busy ∧ m = .engine) ∨
    (t.done = false ∧ s.eng = .idle ∧ ∃ v, m = .host (.regWrite (s.platform.base + 0x08) 4 v)) ∨
    (t.done = false ∧ ∃ v : Word, v.getLsbD 1 = true ∧ m = .host (.regWrite (s.platform.base + 0x0C) 4 v))) ∧
  (t.err ≠ s.err → (s.eng = .busy ∧ m = .engine) ∨
    (t.err = none ∧ s.eng = .idle ∧ ∃ v, m = .host (.regWrite (s.platform.base + 0x08) 4 v))) ∧
  (t.mode ≠ s.mode → m = .engine ∧ s.eng = .busy ∧ decodeCommand s.cmd = .ok .decode ∧
    s.earlyError (Instr.decode.checks s) = none)

theorem State.sameStatus.statusWriters {s t : State} (h : s.sameStatus t) (m : Move) : StatusWriters m s t := by
  obtain ⟨heng, hdone, herr, hmode⟩ := h
  exact ⟨fun c => absurd heng c, fun c => absurd hdone c, fun c => absurd herr c, fun c => absurd hmode c⟩

theorem start_statusWriters {s : State} (he : s.eng = .idle) (v : Word) :
    StatusWriters (.host (.regWrite (s.platform.base + 0x08) 4 v)) s (s.start v) :=
  ⟨fun _ => .inr ⟨he, rfl, v, rfl⟩, fun _ => .inr (.inl ⟨rfl, he, v, rfl⟩), fun _ => .inr ⟨rfl, he, v, rfl⟩,
    fun c => absurd rfl c⟩

theorem acknowledge_statusWriters (s : State) (v : Word) :
    StatusWriters (.host (.regWrite (s.platform.base + 0x0C) 4 v)) s (s.acknowledge v) := by
  refine ⟨fun c => absurd rfl c, fun c => .inr (.inr ?_), fun c => absurd rfl c, fun c => absurd rfl c⟩
  rw [State.acknowledge_done] at c ⊢
  cases hv : v.getLsbD 1 with
  | true => exact ⟨rfl, v, hv, rfl⟩
  | false => rw [hv] at c; exact absurd rfl c

theorem hostStep_statusWriters {op : HostOp} {s t : State} (h : hostStep op s = .next t) :
    StatusWriters (.host op) s t := by
  obtain ⟨hs, -⟩ | ⟨v, rfl, hi, rfl⟩ | ⟨v, rfl, rfl⟩ := hostStep_writers h
  · exact hs.statusWriters _
  · exact start_statusWriters hi v
  · exact acknowledge_statusWriters s v

theorem engineTurn_statusWriters {s t : State} (h : engineTurn s = .next t) : StatusWriters .engine s t := by
  rcases s.busy_or_idle with he | he
  · obtain ⟨heng, hdone, -, -⟩ := engineTurn_busy_completes he h
    exact ⟨fun _ => .inl ⟨he, heng, rfl⟩, fun _ => .inl ⟨hdone, he, rfl⟩, fun _ => .inl ⟨he, rfl⟩,
      fun c => ⟨rfl, he, engineTurn_busy_mode he h c⟩⟩
  · rw [engineTurn_idle he] at h
    cases h
    exact s.sameStatus_refl.statusWriters _

/-- Every move but one of `rst` writes the fields of STATUS only as R37 and R50 say. -/
theorem moveStep_statusWriters {m : Move} {s t : State} (h : moveStep m s = .next t) (hm : ∀ level, m ≠ .rst level) :
    StatusWriters m s t := by
  cases m with
  | rst level => exact absurd rfl (hm level)
  | host op => exact hostStep_statusWriters h
  | engine => exact engineTurn_statusWriters h

end Sys2Proof.Machine

/-! The statements of the register block. -/

namespace Sys2Proof

open Sys2Proof.Machine

/-- Settles O5. The bus writes are the port's rules for a Busy core; for any host access and for a completion the
parameters are kept by what those can do (`hostStep_writers`, `engineTurn_busy_next`). -/
theorem busyCoreKeepsItsParameters : Obligations.BusyCoreKeepsItsParameters := by
  intro s hr he
  refine ⟨fun v => ⟨fun o ho => hostWrite_busy_ignored he v ho, hostWrite_ctrl hr v, hostWrite_status hr v⟩, ?_, ?_⟩
  · intro op ms t h
    exact hostStep_busy_sameParams (s := { s with moves := ms }) he h
  · intro t h
    obtain ⟨-, -, -, hp⟩ := engineTurn_busy_completes he h
    exact hp

/-- Settles O6: the ERR bit is read off the STATUS word, and each move writes the other fields as
`moveStep_statusWriters` says. -/
theorem statusFieldsHaveTheirWriters : Obligations.StatusFieldsHaveTheirWriters := by
  refine ⟨fun s => ?_, fun s v hr => hostWrite_status hr v, fun s m ms t h hm => ?_⟩
  · rw [State.statusWord_errBit, State.statusWord_errCode, State.errBit_eq_decide]
  · rw [step_cons] at h
    exact moveStep_statusWriters (s := { s with moves := ms }) h hm

/-- Settles O7: the port's rule for CTRL, and the word of R34. -/
theorem ctrlHoldsOnlyIrqEnable : Obligations.CtrlHoldsOnlyIrqEnable := by
  intro s v
  refine ⟨fun hr => hostWrite_ctrl hr v, ?_, fun he => ?_⟩
  · rw [hostRead_offset s (by decide) (by decide), ← State.ctrlWord_eq_ite]
    rfl
  · rw [State.irq, he, Bool.and_true]

/-- Settles O8: ID is a constant, no register stands from offset 0x4C on, and neither takes a write. -/
theorem idAndReservedOffsetsAreConstant : Obligations.IdAndReservedOffsetsAreConstant := by
  intro s v
  refine ⟨hostRead_offset s (by decide) (by decide), hostWrite_ignored (by decide) (by decide) rfl, fun k hlo hhi => ?_⟩
  have hnone : regAt (4 * k) = none := regAt_reserved hlo
  constructor
  · rw [hostRead_offset s (by omega) (by omega), hnone]
    rfl
  · refine hostWrite_ignored (by omega) (by omega) ?_
    rw [hnone]
    rfl

/-- Settles O10: DONE and IRQ_EN after each of the four events that move irq. -/
theorem irqFollowsDoneAndEnable : Obligations.IrqFollowsDoneAndEnable := by
  intro s
  refine ⟨s.irq_iff, fun t he h => ?_, fun v hr => ⟨_, hostWrite_ctrl hr v, rfl⟩,
    fun v hr hv => ⟨_, hostWrite_status hr v, ?_⟩, fun v hr he => ⟨_, hostWrite_cmd_idle hr he v, rfl⟩⟩
  · obtain ⟨-, hdone, hirq, -⟩ := engineTurn_busy_completes he h
    rw [State.irq, hdone, hirq, Bool.true_and]
  · rw [State.irq, State.acknowledge_done, hv, if_pos rfl, Bool.false_and]

end Sys2Proof
end

section
/-! PROOFS. The buffer memory (20_memory.md): which commands complete (R81). -/

namespace Sys2Proof.Machine

/-- The range test passes exactly when the command touches no unbacked address (20_memory.md R81). -/
theorem rangesBacked_iff_forall_not_touchesUnbacked (i : Instr) (s : State) :
    s.rangesBacked i.usesPal = true ↔ ∀ a, ¬ i.touchesUnbacked s a := by
  rw [State.rangesBacked_iff]
  constructor
  · rintro h a ⟨ha, ⟨r, hr, hra⟩, hb⟩
    rw [h r hr a ha hra] at hb
    exact Bool.noConfusion hb
  · intro h r hr a ha hra
    by_contra hb
    exact h a ⟨ha, ⟨r, hr, hra⟩, Bool.eq_false_iff.2 hb⟩

/-- A command whose ranges are backed completes, by an early error or by the end of its transform (40_common.md R165 to
R168). -/
theorem exec_backed_completes {i : Instr} {s : State} (hb : s.rangesBacked i.usesPal = true) :
    ∃ t, exec i s = .next t ∧ t.done = true ∧ t.eng = .idle := by
  cases he : s.earlyError (i.checks s) with
  | some k => exact ⟨_, exec_early hb he, rfl, rfl⟩
  | none => exact ⟨_, exec_ready ⟨hb, he⟩, State.finish_done .., State.finish_eng ..⟩

end Sys2Proof.Machine

/-! The statement about unbacked ranges. -/

namespace Sys2Proof

open Sys2Proof.Machine

/-- Settles O19: the range test of a completion finds exactly the unbacked addresses the command touches. -/
theorem unbackedCommandsHaveNoCompletion : Obligations.UnbackedCommandsHaveNoCompletion := by
  intro i s
  constructor
  · rintro ⟨a, ha⟩
    refine exec_unbacked (Bool.eq_false_iff.2 fun hb => ?_)
    exact (rangesBacked_iff_forall_not_touchesUnbacked i s).1 hb a ha
  · intro h
    exact exec_backed_completes ((rangesBacked_iff_forall_not_touchesUnbacked i s).2 h)

end Sys2Proof
end

section
/-! PROOFS. The command words (30_encoding.md section 1): the decoder reads back the word the encoder writes, and the
opcode map of R112 is the ten words the encoder writes. -/

namespace Sys2Proof

/-- The fields of a command's word are the command's fields (R110), for every command. -/
theorem fieldsOfWord_encode (i : Instr) : fieldsOfWord (encode i) = i.fields :=
  match i with
  | .pack => Laws.WordFields.pack
  | .unpack lim => Laws.WordFields.unpack lim
  | .lzwEnc => Laws.WordFields.lzwEnc
  | .lzwDec => Laws.WordFields.lzwDec
  | .blkQuant => Laws.WordFields.blkQuant
  | .blkRecon => Laws.WordFields.blkRecon
  | .encLossless => Laws.WordFields.encLossless
  | .encLossy => Laws.WordFields.encLossy
  | .decode => Laws.WordFields.decode

/-- OP and LIM of a command select that command (R112). -/
@[simp] theorem instrOfOp_opcode_limBit (i : Instr) : instrOfOp i.opcode i.limBit = some i := by
  cases i <;> rfl

/-- LIM is set for UNPACK alone (R113). -/
theorem opcode_eq_unpack_of_limBit {i : Instr} (h : i.limBit = true) : i.opcode = 0x02 := by
  cases i with
  | unpack lim => rfl
  | _ => exact Bool.noConfusion h

/-- The fields of a command break no clause of R113 and select the command. -/
theorem decodeFields_fields (i : Instr) : decodeFields i.fields = .ok i := by
  have hlim : ¬ (i.limBit = true ∧ i.opcode ≠ 0x02) := fun ⟨h, hop⟩ => hop (opcode_eq_unpack_of_limBit h)
  have hrsvd : ¬ i.fields.rsvd ≠ 0 := not_not_intro rfl
  rw [decodeFields, if_neg hrsvd]
  simp only [Instr.fields, instrOfOp_opcode_limBit]
  exact if_neg hlim

/-- Every command decodes from the word it is encoded to. -/
@[simp] theorem decodeCommand_encode (i : Instr) : decodeCommand (encode i) = .ok i := by
  rw [decodeCommand, fieldsOfWord_encode, decodeFields_fields]

/-- Settles O1: each word of the table is, by computation, the word the encoder writes for its command. -/
theorem commandWordsDecodeAsTabled : Obligations.CommandWordsDecodeAsTabled :=
  ⟨decodeCommand_encode .pack, decodeCommand_encode (.unpack false), decodeCommand_encode (.unpack true),
    decodeCommand_encode .lzwEnc, decodeCommand_encode .lzwDec, decodeCommand_encode .blkQuant,
    decodeCommand_encode .blkRecon, decodeCommand_encode .encLossless, decodeCommand_encode .encLossy,
    decodeCommand_encode .decode⟩

end Sys2Proof
end

section
/-! PROOFS. The life of a command (40_common.md): the start (R161), the early checks and the one error a completion
reports (R160 to R164, R167). -/

namespace Sys2Proof

/-! ### Illegal command words (30_encoding.md R113) -/

/-- An OP that selects a command is one of 0x01 to 0x09 (R112). -/
theorem opcode_bounds_of_instrOfOp {op : BitVec 8} {lim : Bool} {i : Instr} (h : instrOfOp op lim = some i) :
    1 ≤ op.toNat ∧ op.toNat ≤ 9 := by
  unfold instrOfOp at h
  split at h
  case h_10 => cases h
  all_goals omega

/-- The clauses of R113, as numbers. -/
theorem CmdFields.wellFormed_iff (f : CmdFields) : f.wellFormed = true ↔
    (1 ≤ f.op.toNat ∧ f.op.toNat ≤ 9) ∧ f.rsvd.toNat = 0 ∧ (f.lim = true → f.op.toNat = 2) := by
  simp only [CmdFields.wellFormed, CmdFields.opLegal, CmdFields.rsvdZero, CmdFields.limLegal, Bool.and_eq_true,
    Bool.or_eq_true, Bool.not_eq_true', decide_eq_true_eq, beq_iff_eq, and_assoc, BitVec.toNat_eq]
  cases f.lim <;> simp

/-- Fields that decode break no clause of R113. -/
theorem decodeFields_ok_wellFormed {f : CmdFields} {i : Instr} (h : decodeFields f = .ok i) : f.wellFormed = true := by
  unfold decodeFields at h
  split at h
  · cases h
  next hrsvd =>
    split at h
    · cases h
    next hop =>
      split at h
      · cases h
      next hlim =>
        rw [not_not] at hrsvd
        rw [not_and, not_not] at hlim
        exact f.wellFormed_iff.2 ⟨opcode_bounds_of_instrOfOp hop, congrArg _ hrsvd, fun hl => congrArg _ (hlim hl)⟩

/-- The legal words of R113 are those whose fields are well formed. -/
theorem fieldsOfWord_wellFormed_iff (w : Word) : (fieldsOfWord w).wellFormed = true ↔ ¬ illegalWord w := by
  have hop : (fieldsOfWord w).op.toNat = w.toNat % 256 := BitVec.extractLsb'_toNat ..
  have hrsvd : (fieldsOfWord w).rsvd.toNat = w.toNat / 512 := by
    rw [fieldsOfWord, BitVec.extractLsb'_toNat, Nat.shiftRight_eq_div_pow]
    omega
  have hlim : (fieldsOfWord w).lim = decide (w.toNat / 256 % 2 = 1) := Nat.testBit_eq_decide_div_mod_eq
  rw [CmdFields.wellFormed_iff, hop, hrsvd, hlim, decide_eq_true_eq, illegalWord]
  omega

/-- An illegal word does not decode. -/
theorem decodeCommand_illegal {w : Word} (h : illegalWord w) : ∃ e, decodeCommand w = .error e := by
  cases hd : decodeCommand w with
  | error e => exact ⟨e, rfl⟩
  | ok i => exact absurd h ((fieldsOfWord_wellFormed_iff w).1 (decodeFields_ok_wellFormed hd))

end Sys2Proof

namespace Sys2Proof.Machine

/-! ### The ranges (R162) -/

/-- Two ranges share an address exactly when both are non-empty and each starts below the other's end (R162). -/
theorem Range.exists_holds_iff (r q : Range) : (∃ a, r.holds a = true ∧ q.holds a = true) ↔
    0 < r.len ∧ 0 < q.len ∧ r.addr < q.addr + q.len ∧ q.addr < r.addr + r.len := by
  simp only [Range.holds_iff]
  constructor
  · rintro ⟨a, hr, hq⟩
    omega
  · intro h
    exact ⟨max r.addr q.addr, by omega, by omega⟩

theorem Range.shares_iff (r q : Range) : r.shares q = true ↔ ∃ a, r.holds a = true ∧ q.holds a = true := by
  rw [Range.exists_holds_iff]
  simp only [Range.shares, Bool.and_eq_true, decide_eq_true_eq, and_assoc]

/-- The range check in the words of R162: no used range ends past 2^32, and no address of DST is one of an input. -/
theorem State.rangesOk_iff_ranges (s : State) (i : Instr) : s.rangesOk i.usesPal = true ↔
    (∀ r ∈ i.ranges s, r.addr + r.len ≤ 2 ^ 32) ∧
    ∀ r ∈ s.inputs i.usesPal, ∀ a, ¬ (s.dst.holds a = true ∧ r.holds a = true) := by
  simp only [State.rangesOk, Instr.ranges, Bool.and_eq_true, List.all_eq_true, Range.valid_iff, Bool.not_eq_true',
    ← Bool.not_eq_true, Range.shares_iff, not_exists, List.forall_mem_cons]
  exact ⟨fun ⟨hd, h⟩ => ⟨⟨hd, fun r hr => (h r hr).1⟩, fun r hr => (h r hr).2⟩,
    fun ⟨⟨hd, h⟩, hs⟩ => ⟨hd, fun r hr => ⟨h r hr, hs r hr⟩⟩⟩

/-! ### The early checks (R162 to R164) -/

/-- Each early error is raised exactly when its check fails and the checks before it pass (R167). -/
theorem State.earlyError_some_iff (s : State) (c : Checks) (k : ErrorKind) : s.earlyError c = some k ↔
    (k = .invalidOperand ∧ s.rangesOk c.usesPal = false) ∨
    (k = .dimensionOverflow ∧ s.rangesOk c.usesPal = true ∧ c.dims = true ∧ s.dimsOk = false) ∨
    (k = .sizeMismatch ∧ s.rangesOk c.usesPal = true ∧ (c.dims = true → s.dimsOk = true) ∧
      c.srcLen.any (· != s.srcLen.toNat) = true) := by
  unfold State.earlyError
  cases s.rangesOk c.usesPal <;> cases c.dims <;> cases s.dimsOk <;> cases c.srcLen <;> simp [@eq_comm _ k, and_comm]

/-- An early error is INVALID_OPERAND exactly when the ranges are not in order (R162). -/
theorem State.earlyError_invalidOperand_iff (s : State) (c : Checks) :
    s.earlyError c = some .invalidOperand ↔ s.rangesOk c.usesPal = false := by
  simp [State.earlyError_some_iff]

/-- An early error is DIMENSION_OVERFLOW exactly when the ranges are in order, and the command checks the dimensions and
one exceeds 16 bits (R163). -/
theorem State.earlyError_dimensionOverflow_iff (s : State) (c : Checks) : s.earlyError c = some .dimensionOverflow ↔
    s.rangesOk c.usesPal = true ∧ c.dims = true ∧ s.dimsOk = false := by
  simp [State.earlyError_some_iff]

/-- An early error is SIZE_MISMATCH exactly when ranges and dimensions are in order, and the image size fixes another
source length (R164). -/
theorem State.earlyError_sizeMismatch_iff (s : State) (c : Checks) : s.earlyError c = some .sizeMismatch ↔
    s.rangesOk c.usesPal = true ∧ (c.dims = true → s.dimsOk = true) ∧ c.srcLen.any (· != s.srcLen.toNat) = true := by
  simp [State.earlyError_some_iff]

theorem State.dimsOk_eq_false_iff (s : State) : s.dimsOk = false ↔ 65535 < s.imgW.toNat ∨ 65535 < s.imgH.toNat := by
  rw [← Bool.not_eq_true, State.dimsOk_iff]
  omega

/-- A command that fails an early check reports it, with OUT_LEN 0, and writes no byte (R166). -/
theorem exec_early_reports {i : Instr} {s : State} {k : ErrorKind} (hb : s.rangesBacked i.usesPal = true)
    (h : s.earlyError (i.checks s) = some k) :
    ∃ t, exec i s = .next t ∧ t.err = some k ∧ t.mem = s.mem ∧ t.outLen = 0 :=
  ⟨_, exec_early hb h, rfl, rfl, rfl⟩

/-- Only three commands have a source length fixed by the image size (R164). -/
theorem Instr_requiredLen_none {i : Instr} (h1 : i ≠ .blkQuant) (h2 : i ≠ .encLossy) (h3 : i ≠ .encLossless) (s : State) :
    i.requiredLen s = none := by
  cases i with
  | blkQuant => exact absurd rfl h1
  | encLossy => exact absurd rfl h2
  | encLossless => exact absurd rfl h3
  | _ => rfl

/-! ### The error a completion reports (R167) -/

/-- A completion reports the first early error, or what the end of its transform reports. -/
theorem exec_next_err {i : Instr} {s t : State} (h : exec i s = .next t) :
    t.err = (s.earlyError (i.checks s)).or (s.finish (i.transform s)).err := by
  obtain ⟨-, ⟨k, hk, rfl⟩ | ⟨hn, rfl⟩⟩ := exec_next h
  · rw [hk]; rfl
  · rw [hn]; rfl

/-- The error a transform that ran ends in (R165): its own, else OUTPUT_OVERFLOW for a result longer than `cap`. -/
def Transform.lateError (tr : Transform) (cap : Nat) : Option ErrorKind :=
  match tr.result with
  | .error k => some k
  | .ok (out, _) => if cap < out.length then some .outputOverflow else none

theorem State.finish_err (s : State) (tr : Transform) : (s.finish tr).err = tr.lateError s.dstCap.toNat := by
  unfold Transform.lateError
  obtain ⟨k, hr, h⟩ | ⟨out, info, hr, hc, h⟩ | ⟨out, info, hr, hc, h⟩ := s.finish_cases tr <;> rw [h, hr]
  · rfl
  · exact (if_pos hc).symm
  · exact (if_neg (Nat.not_lt.2 hc)).symm

end Sys2Proof.Machine

/-! The statements about the start, the early checks and their order. -/

namespace Sys2Proof

open Sys2Proof.Machine

/-- Settles O4: an Idle core's CMD write is the start, a Busy core's is ignored. -/
theorem cmdWriteStartsACommand : Obligations.CmdWriteStartsACommand := by
  intro s v hr
  exact ⟨fun he => ⟨_, hostWrite_cmd_idle hr he v, rfl, rfl, fun _ _ => rfl⟩,
    fun he => hostWrite_busy_ignored he v (by decide)⟩

/-- Settles O20: INVALID_OPERAND is the range check's error, and the range check says what R162 does. -/
theorem rangeCheckRaisesInvalidOperand : Obligations.RangeCheckRaisesInvalidOperand := by
  refine ⟨Range.exists_holds_iff, fun i s hb => ?_⟩
  have hearly : s.earlyError (i.checks s) = some .invalidOperand ↔ ¬ s.rangesOk i.usesPal = true := by
    rw [State.earlyError_invalidOperand_iff, Bool.not_eq_true]
    rfl
  rw [State.rangesOk_iff_ranges] at hearly
  refine ⟨fun hbad => exec_early_reports hb (hearly.2 ?_), fun hvalid hdisj h => hearly.1 h ⟨hvalid, hdisj⟩⟩
  rintro ⟨hvalid, hdisj⟩
  obtain ⟨r, hr, hpast⟩ | ⟨r, hr, a, ha⟩ := hbad
  · exact absurd (hvalid r hr) (Nat.not_le.2 hpast)
  · exact hdisj r hr a ha

/-- Settles O21: DIMENSION_OVERFLOW is the dimension check's error; the checks of the other commands name no dimension. -/
theorem dimensionCheckRaisesDimensionOverflow : Obligations.DimensionCheckRaisesDimensionOverflow := by
  refine ⟨fun i s hi hb hr hdim => ?_, fun i s hw hh h => ?_, fun i s w h hi => ?_⟩
  · have hchecks : i.checksDims = true := by rcases hi with rfl | rfl | rfl | rfl <;> rfl
    exact exec_early_reports hb ((State.earlyError_dimensionOverflow_iff ..).2
      ⟨hr, hchecks, s.dimsOk_eq_false_iff.2 hdim⟩)
  · obtain ⟨-, -, hdim⟩ := (State.earlyError_dimensionOverflow_iff ..).1 h
    rw [s.dimsOk_iff.2 ⟨hw, hh⟩] at hdim
    cases hdim
  · rcases hi with rfl | rfl | rfl | rfl | rfl | rfl <;> rfl

/-- Settles O22: SIZE_MISMATCH is the length check's error, and three commands have a length to check. -/
theorem lengthCheckRaisesSizeMismatch : Obligations.LengthCheckRaisesSizeMismatch := by
  refine ⟨fun i s hb hr hw hh hlen => ?_, fun i s h1 h2 h3 h => ?_⟩
  · have hreq : (i.requiredLen s).any (· != s.srcLen.toNat) = true := by
      obtain ⟨rfl | rfl, hne⟩ | ⟨rfl, hne⟩ := hlen <;> exact bne_iff_ne.2 hne.symm
    exact exec_early_reports hb ((State.earlyError_sizeMismatch_iff ..).2 ⟨hr, fun _ => s.dimsOk_iff.2 ⟨hw, hh⟩, hreq⟩)
  · obtain ⟨-, -, hany⟩ := (State.earlyError_sizeMismatch_iff ..).1 h
    rw [Instr_checks_srcLen, Instr_requiredLen_none h1 h2 h3] at hany
    cases hany

/-- Settles O23: the illegal word comes before any check; then the early checks in their order; then what the transform's
end reports. -/
theorem firstErrorInOrderIsReported : Obligations.FirstErrorInOrderIsReported := by
  constructor
  · intro s t he hw h
    obtain ⟨e, hd⟩ := decodeCommand_illegal hw
    rw [engineStep_eq, engineTurn_busy_error he hd] at h
    cases h
    rfl
  · intro i s t he hd h
    rw [engineStep_eq, engineTurn_busy_ok he hd] at h
    rw [exec_next_err h, State.finish_err]
    split_ifs with hr hd hl
    · rw [(State.earlyError_invalidOperand_iff ..).2 hr]
      rfl
    · rw [(State.earlyError_dimensionOverflow_iff ..).2 ⟨Bool.of_not_eq_false hr, hd⟩]
      rfl
    · have hdims : i.checksDims = true → s.dimsOk = true := fun hc => Bool.of_not_eq_false fun ho => hd ⟨hc, ho⟩
      rw [(State.earlyError_sizeMismatch_iff ..).2 ⟨Bool.of_not_eq_false hr, hdims, hl⟩]
      rfl
    · have hnone : s.earlyError (i.checks s) = none := by
        refine Option.eq_none_iff_forall_not_mem.2 fun k hk => ?_
        obtain ⟨-, hbad⟩ | ⟨-, -, hbad⟩ | ⟨-, -, -, hbad⟩ := (State.earlyError_some_iff ..).1 hk
        · exact hr hbad
        · exact hd hbad
        · exact hl hbad
      rw [hnone]
      rfl

end Sys2Proof
end

section
/-! PROOFS. The end of a command (40_common.md R165, R169): what a result depends on, where it is written, and what two
completions of the same command on the same inputs have in common. -/

namespace Sys2Proof.Machine

/-! ### What a command reads -/

/-- The early checks read nothing but the parameter registers (R162 to R164). -/
theorem State.earlyError_congr {s s' : State} (h : s.sameParams s') (i : Instr) :
    s'.earlyError (i.checks s') = s.earlyError (i.checks s) := by
  obtain ⟨hsrc, hlen, hdst, hcap, hpal, hw, hh, -⟩ := h
  have hranges : s'.rangesOk i.usesPal = s.rangesOk i.usesPal := by
    simp only [State.rangesOk, State.inputs, State.dst, State.src, State.pal, hsrc, hlen, hdst, hcap, hpal]
  have hdims : s'.dimsOk = s.dimsOk := by simp only [State.dimsOk, hw, hh]
  have hreq : i.requiredLen s' = i.requiredLen s := by simp only [Instr.requiredLen, hw, hh]
  refine Option.ext fun k => ?_
  simp only [State.earlyError_some_iff, Instr.checks, hranges, hdims, hreq, hlen]

/-- A transform's result reads the source bytes, the palette bytes for ENC_LOSSLESS, and the parameters (R165). -/
theorem Instr_transform_result_congr {i : Instr} {s s' : State} (hp : s.sameParams s') (hsrc : s.srcBytes = s'.srcBytes)
    (hpal : i = .encLossless → s.palBytes = s'.palBytes) : (i.transform s).result = (i.transform s').result := by
  obtain ⟨-, -, -, -, -, hw, hh, hblock, hlimit⟩ := hp
  cases i with
  | pack => simp only [Instr.transform, packTransform, hsrc]
  | unpack lim => simp only [Instr.transform, unpackTransform, hsrc, hlimit]
  | lzwEnc => simp only [Instr.transform, lzwEncTransform, hsrc]
  | lzwDec => simp only [Instr.transform, lzwDecTransform, hsrc]
  | blkQuant => simp only [Instr.transform, blkQuantTransform, hsrc, hw, hh]
  | blkRecon => simp only [Instr.transform, blkReconTransform, hsrc, hw, hh, hblock]
  | encLossless => simp only [Instr.transform, encLosslessTransform, hsrc, hpal rfl, hw, hh]
  | encLossy => simp only [Instr.transform, encLossyTransform, hsrc, hw, hh]
  | decode => simp only [Instr.transform, decodeTransform, hsrc]

/-- The MODE a transform gives reads the source bytes alone (44_container.md R300). -/
theorem Instr_transform_mode_congr (i : Instr) {s s' : State} (hsrc : s.srcBytes = s'.srcBytes) :
    (i.transform s).mode = (i.transform s').mode := by
  by_cases hi : i = .decode
  · subst hi
    exact congrArg (fun bytes : List Byte => some (bytes.headD 0)) hsrc
  · rw [Instr_transform_mode hi, Instr_transform_mode hi]

/-! ### Where a result stands -/

/-- OUT_LEN of a result that fits DST_CAP is its length (R165). -/
theorem State.finish_outLen_of_fits {s : State} {tr : Transform} {out : List Byte} {info : Info}
    (h : tr.result = .ok (out, info)) (hfit : out.length ≤ s.dstCap.toNat) :
    (s.finish tr).outLen.toNat = out.length := by
  rw [State.finish_ok h hfit, State.succeed_outLen, BitVec.toNat_ofNat]
  exact Nat.mod_eq_of_lt (hfit.trans_lt s.dstCap.isLt)

/-- Byte `j` of a result that fits stands at DST_ADDR + j (R165). -/
theorem State.finish_readByte_inside {s : State} {tr : Transform} {out : List Byte} {info : Info} {usesPal : Bool}
    (hm : s.mem.wf = true) (hr : s.rangesOk usesPal = true) (h : tr.result = .ok (out, info))
    (hfit : out.length ≤ s.dstCap.toNat) {j : Nat} (hj : j < out.length) :
    (s.finish tr).mem.readByte (s.dstAddr.toNat + j) = out[j] := by
  obtain ⟨hdst, -⟩ := (s.rangesOk_iff usesPal).1 hr
  rw [State.finish_ok h hfit]
  exact Memory.readByte_write_inside hm ((Nat.add_le_add_left hfit _).trans hdst) hj

/-- OUT_LEN of a result longer than DST_CAP is its length, saturated (R165). -/
theorem State.finish_outLen_of_overflow {s : State} {tr : Transform} {out : List Byte} {info : Info}
    (h : tr.result = .ok (out, info)) (hc : s.dstCap.toNat < out.length) :
    (s.finish tr).outLen.toNat = min out.length 0xFFFFFFFF := by
  rw [State.finish_overflow h hc]
  change (BitVec.ofNat 32 (min out.length 0xFFFFFFFF)).toNat = _
  rw [BitVec.toNat_ofNat]
  omega

/-! ### What two completions have in common (R169) -/

/-- ERRCODE and the result registers of two states agree, PROGRESS apart. -/
def State.sameResults (s t : State) : Prop :=
  s.err = t.err ∧ s.outLen = t.outLen ∧ s.outW = t.outW ∧ s.outH = t.outH ∧ s.codeCount = t.codeCount ∧
  s.dictSize = t.dictSize

/-- An error publishes the same in two states with clear result registers, whatever else they hold (R166). -/
theorem State.raise_sameResults {s s' : State} (hc : s.resultsClear) (hc' : s'.resultsClear) (k : ErrorKind) (n : Word) :
    (s.raise k n).sameResults (s'.raise k n) := by
  obtain ⟨-, hw, hh, hcodes, hdict⟩ := hc
  obtain ⟨-, hw', hh', hcodes', hdict'⟩ := hc'
  exact ⟨rfl, rfl, hw.trans hw'.symm, hh.trans hh'.symm, hcodes.trans hcodes'.symm, hdict.trans hdict'.symm⟩

/-- A late error does too: what the transform left and the unspecified bytes of DST are no result registers. -/
theorem State.raiseLate_sameResults {s s' : State} (hc : s.resultsClear) (hc' : s'.resultsClear) (tr tr' : Transform)
    (k : ErrorKind) (n : Nat) : ((s.note tr).raiseLate k n).sameResults ((s'.note tr').raiseLate k n) :=
  State.raise_sameResults (s := (s.note tr).scrambleDst []) (s' := (s'.note tr').scrambleDst []) hc hc' k _

/-- A success publishes what the transform reports; the registers it gives no value are clear in both. -/
theorem State.succeed_sameResults {s s' : State} (hc : s.resultsClear) (hc' : s'.resultsClear) (out : List Byte)
    (info : Info) : (s.succeed out info).sameResults (s'.succeed out info) := by
  obtain ⟨-, hw, hh, hcodes, hdict⟩ := hc
  obtain ⟨-, hw', hh', hcodes', hdict'⟩ := hc'
  exact ⟨rfl, rfl, congrArg (infoReg _) (hw.trans hw'.symm), congrArg (infoReg _) (hh.trans hh'.symm),
    congrArg (infoReg _) (hcodes.trans hcodes'.symm), congrArg (infoReg _) (hdict.trans hdict'.symm)⟩

/-- Transforms with one result, under one DST_CAP, publish the same (R165, R166). -/
theorem State.finish_sameResults {s s' : State} {tr tr' : Transform} (hc : s.resultsClear) (hc' : s'.resultsClear)
    (hcap : s'.dstCap = s.dstCap) (hres : tr.result = tr'.result) : (s.finish tr).sameResults (s'.finish tr') := by
  rcases s.finish_cases tr with ⟨k, hr, h⟩ | ⟨out, info, hr, hlong, h⟩ | ⟨out, info, hr, hfit, h⟩
  · rw [h, State.finish_error (hres ▸ hr)]
    exact State.raiseLate_sameResults hc hc' ..
  · rw [h, State.finish_overflow (hres ▸ hr) (hcap ▸ hlong)]
    exact State.raiseLate_sameResults hc hc' ..
  · rw [h, State.finish_ok (hres ▸ hr) (hcap ▸ hfit)]
    exact State.succeed_sameResults (s := s.note tr) (s' := s'.note tr') hc hc' ..

/-- A completion without an error is a result that fits (R165). -/
theorem State.finish_success {s : State} {tr : Transform} (h : (s.finish tr).err = none) :
    ∃ out info, tr.result = .ok (out, info) ∧ out.length ≤ s.dstCap.toNat := by
  rcases s.finish_cases tr with ⟨k, -, hf⟩ | ⟨out, info, -, -, hf⟩ | ⟨out, info, hr, hfit, -⟩
  · rw [hf] at h; cases h
  · rw [hf] at h; cases h
  · exact ⟨out, info, hr, hfit⟩

/-- Transforms with one result that fits leave the same PROGRESS and the same bytes in DST. -/
theorem State.finish_sameBytes {s s' : State} {tr tr' : Transform} {usesPal : Bool} (hm : s.mem.wf = true)
    (hm' : s'.mem.wf = true) (hr : s.rangesOk usesPal = true) (hr' : s'.rangesOk usesPal = true) (hp : s.sameParams s')
    (hres : tr.result = tr'.result) (h : (s.finish tr).err = none) :
    (s.finish tr).progress = (s'.finish tr').progress ∧
      ∀ a : Nat, s.dstAddr.toNat ≤ a → a < s.dstAddr.toNat + (s.finish tr).outLen.toNat →
        (s.finish tr).mem.readByte a = (s'.finish tr').mem.readByte a := by
  obtain ⟨out, info, hok, hfit⟩ := State.finish_success h
  obtain ⟨-, hlen, hdst, hcap, -⟩ := hp
  have hok' : tr'.result = .ok (out, info) := hres ▸ hok
  have hfit' : out.length ≤ s'.dstCap.toNat := hcap ▸ hfit
  constructor
  · rw [State.finish_ok hok hfit, State.finish_ok hok' hfit']
    exact hlen.symm
  · intro a hlo hhi
    rw [State.finish_outLen_of_fits hok hfit] at hhi
    obtain ⟨j, rfl⟩ := Nat.exists_eq_add_of_le hlo
    have hj : j < out.length := by omega
    rw [State.finish_readByte_inside hm hr hok hfit hj, ← hdst, State.finish_readByte_inside hm' hr' hok' hfit' hj]

end Sys2Proof.Machine

/-! The statements about results. -/

namespace Sys2Proof

open Sys2Proof.Machine

/-- Settles O24: each transform reads its inputs only, and the three ends of a transform that ran are the three cases. -/
theorem resultIsWrittenOrOverflows : Obligations.ResultIsWrittenOrOverflows := by
  refine ⟨fun _ _ _ => Instr_transform_result_congr, fun i s hm hready => ⟨?_, ?_, ?_⟩⟩
  · intro k h
    exact ⟨_, exec_ready hready, by rw [State.finish_error h]; rfl⟩
  · intro out info h hc
    exact ⟨_, exec_ready hready, by rw [State.finish_overflow h hc]; rfl, State.finish_outLen_of_overflow h hc⟩
  · intro out info h hfit
    refine ⟨_, exec_ready hready, by rw [State.finish_ok h hfit]; rfl, State.finish_outLen_of_fits h hfit, ?_, ?_⟩
    · intro j hj
      exact State.finish_readByte_inside hm (State.ready_rangesOk hready) h hfit hj
    · intro a ha
      rw [State.finish_ok h hfit]
      exact Memory.readByte_write_outside ha

/-- Settles O29: two such states fail the same early check, or run transforms with one result. -/
theorem completionIsDeterministic : Obligations.CompletionIsDeterministic := by
  intro i s s' t t' hm hm' hc hc' hp hsrc hpal h h'
  have hcongr := State.earlyError_congr hp i
  obtain ⟨hb', -⟩ := exec_next h'
  obtain ⟨hb, ⟨k, hk, rfl⟩ | ⟨hn, rfl⟩⟩ := exec_next h
  · rw [exec_early hb' (hcongr.trans hk)] at h'
    cases h'
    obtain ⟨herr, hout, hw, hh, hcodes, hdict⟩ := State.raise_sameResults hc hc' k 0
    refine ⟨?_, herr, hout, hw, hh, hcodes, hdict, fun hnone => by cases hnone⟩
    rintro (hmode | ⟨-, hn⟩)
    · exact hmode
    · rw [hn] at hk; cases hk
  · have hready' : s'.ready i := ⟨hb', hcongr.trans hn⟩
    rw [exec_ready hready'] at h'
    cases h'
    have hres := Instr_transform_result_congr hp hsrc hpal
    obtain ⟨-, -, -, hcap, -⟩ := id hp
    obtain ⟨herr, hout, hw, hh, hcodes, hdict⟩ := State.finish_sameResults hc hc' hcap hres
    refine ⟨?_, herr, hout, hw, hh, hcodes, hdict, State.finish_sameBytes hm hm' (State.ready_rangesOk ⟨hb, hn⟩)
      (State.ready_rangesOk hready') hp hres⟩
    rw [State.finish_mode, State.finish_mode, Instr_transform_mode_congr i hsrc]
    rintro (hmode | ⟨rfl, -⟩)
    · rw [hmode]
    · rfl

end Sys2Proof
end

section
/-! PROOFS. The bit-pack engine (41_bitpack.md): the bits of packed bytes (R190), the expanded bits and their limit (R192),
and the round trips of the two (R194). -/

namespace Sys2Proof.Machine

/-- A list is known by its length and what reading it with a default gives. -/
theorem list_eq_of_getD {α : Type} {d : α} {l l' : List α} (hlen : l.length = l'.length)
    (h : ∀ k, k < l.length → l.getD k d = l'.getD k d) : l = l' := by
  refine List.ext_getElem hlen fun k hk hk' => ?_
  rw [← List.getD_eq_getElem l d hk, h k hk, List.getD_eq_getElem l' d hk']

/-! ### Packed bits (R190) -/

/-- The weighted sum of R190 is the binary number of its bits, so Batteries' bit lemmas read it. -/
theorem packByte_eq_ofFnLE (b : List Bool) (j : Nat) :
    packByte b j = BitVec.ofFnLE fun i : Fin 8 => b.getD (8 * j + (7 - i)) false := by
  have hsum : ((List.range 8).map fun i => (b.getD (8 * j + i) false).toNat * 2 ^ (7 - i)).sum =
      Nat.ofBits fun i : Fin 8 => b.getD (8 * j + (7 - i)) false := by
    simp [Nat.ofBits_succ, List.range_succ]
    omega
  refine BitVec.eq_of_toNat_eq ?_
  rw [packByte, hsum, BitVec.toNat_ofNat, BitVec.toNat_ofFnLE]
  exact Nat.mod_eq_of_lt (Nat.ofBits_lt_two_pow _)

theorem packByte_getLsbD (b : List Bool) (j : Nat) {i : Nat} (hi : i < 8) :
    (packByte b j).getLsbD (7 - i) = b.getD (8 * j + i) false := by
  have hbit : 7 - i < 8 := by omega
  rw [packByte_eq_ofFnLE, BitVec.getLsbD_eq_getElem hbit, BitVec.getElem_ofFnLE _ _ hbit]
  exact congrArg (fun k => b.getD (8 * j + k) false) (Nat.sub_sub_self (Nat.le_of_lt_succ hi))

/-- Every bit of the packed bytes, the bytes past the last one read as 0 (R190). -/
theorem pack_getD_getLsbD (b : List Bool) (j : Nat) {i : Nat} (hi : i < 8) :
    ((pack b).getD j 0).getLsbD (7 - i) = b.getD (8 * j + i) false := by
  by_cases hj : j < ceilDiv b.length 8
  · have hlen : j < (pack b).length := (pack_length b).symm ▸ hj
    have hbyte : (pack b).getD j 0 = packByte b j := by rw [List.getD_eq_getElem _ _ hlen]; simp [pack]
    rw [hbyte, packByte_getLsbD b j hi]
  · have hlen : (pack b).length ≤ j := (pack_length b).symm ▸ Nat.le_of_not_lt hj
    have hend : b.length ≤ 8 * j + i := by
      rw [lt_ceilDiv (by decide)] at hj
      omega
    rw [List.getD_eq_default _ _ hlen, List.getD_eq_default _ _ hend]
    exact BitVec.getLsbD_zero

/-! ### Expanded bits (R192) -/

theorem byteBits_getD (x : Byte) {i : Nat} (hi : i < 8) : (byteBits x).getD i false = x.getLsbD (7 - i) := by
  have hlen : i < (byteBits x).length := (byteBits_length x).symm ▸ hi
  rw [List.getD_eq_getElem _ _ hlen]
  simp [byteBits]

theorem unpack_none_cons (x : Byte) (s : List Byte) : unpack (x :: s) none = byteBits x ++ unpack s none := rfl

/-- Every expanded bit; past the last byte both sides read as 0 (R192). -/
theorem unpack_none_getD (s : List Byte) (j : Nat) {i : Nat} (hi : i < 8) :
    (unpack s none).getD (8 * j + i) false = (s.getD j 0).getLsbD (7 - i) := by
  induction s generalizing j with
  | nil => exact BitVec.getLsbD_zero.symm
  | cons x s ih =>
    rw [unpack_none_cons]
    cases j with
    | zero =>
      have hfirst : i < (byteBits x).length := (byteBits_length x).symm ▸ hi
      rw [Nat.mul_zero, Nat.zero_add, List.getD_append _ _ _ _ hfirst, byteBits_getD x hi, List.getD_cons_zero]
    | succ j =>
      have hlater : 8 * (j + 1) + i = (byteBits x).length + (8 * j + i) := by rw [byteBits_length]; omega
      rw [hlater, List.getD_append_right _ _ _ _ (Nat.le_add_right ..), Nat.add_sub_cancel_left, ih j,
        List.getD_cons_succ]

theorem unpack_some_length (s : List Byte) (n : Nat) : (unpack s (some n)).length = min n (8 * s.length) := by
  rw [unpack_some, List.length_take, unpack_none_length]

/-- A limit cuts bits off the end and changes none before it (R192). -/
theorem unpack_some_getD (s : List Byte) {n k : Nat} (hk : k < n) :
    (unpack s (some n)).getD k false = (unpack s none).getD k false := by
  rw [unpack_some, List.getD_eq_getElem?_getD, List.getElem?_take_of_lt hk, List.getD_eq_getElem?_getD]

/-! ### The round trips (R194) -/

/-- Without a limit, unpacking gives the packed bits back, and zeros up to the end of the last byte. -/
theorem unpack_pack_getD (b : List Bool) (k : Nat) : (unpack (pack b) none).getD k false = b.getD k false := by
  have hi : k % 8 < 8 := Nat.mod_lt k (by decide)
  rw [← Nat.div_add_mod k 8, unpack_none_getD _ _ hi, pack_getD_getLsbD _ _ hi]

theorem le_eight_mul_ceilDiv (n : Nat) : n ≤ 8 * ceilDiv n 8 := by
  rw [ceilDiv]
  omega

theorem unpack_pack (b : List Bool) : unpack (pack b) (some b.length) = b := by
  have hlen : (unpack (pack b) (some b.length)).length = b.length := by
    rw [unpack_some_length, pack_length]
    exact Nat.min_eq_left (le_eight_mul_ceilDiv _)
  refine list_eq_of_getD (d := false) hlen fun k hk => ?_
  rw [unpack_some_getD _ (hlen ▸ hk), unpack_pack_getD]

theorem pack_unpack_length (s : List Byte) : (pack (unpack s none)).length = s.length := by
  rw [pack_length, unpack_none_length, ceilDiv]
  omega

theorem pack_unpack (s : List Byte) : pack (unpack s none) = s := by
  refine list_eq_of_getD (d := 0) (pack_unpack_length s) fun j _ => BitVec.eq_of_getLsbD_eq fun i hi => ?_
  have hrev : i = 7 - (7 - i) := by omega
  have hbit : 7 - i < 8 := by omega
  rw [hrev, pack_getD_getLsbD _ _ hbit, unpack_none_getD _ _ hbit]

end Sys2Proof.Machine

/-! The statements about the two functions. -/

namespace Sys2Proof

open Sys2Proof.Machine

/-- Settles O33: each packed byte is read bit by bit. -/
theorem packPutsBitsMsbFirst : Obligations.PackPutsBitsMsbFirst :=
  fun b => ⟨pack_length b, rfl, fun j _ _ hi => pack_getD_getLsbD b j hi⟩

/-- Settles O34: the expanded bits, the limit as a cut of them, and the two round trips. -/
theorem unpackExpandsAndInvertsPack : Obligations.UnpackExpandsAndInvertsPack :=
  ⟨fun s => ⟨fun j _ _ hi => unpack_none_getD s j hi,
      fun n => ⟨unpack_some_length s n, fun _ hk => unpack_some_getD s (lt_min_iff.1 hk).1⟩⟩,
    unpack_pack, fun s => ⟨pack_unpack s, unpack_none_length s⟩⟩

end Sys2Proof
end

section
/-! PROOFS. The LZW stage (42_lzw.md): how dictionaries grow (R210 to R212, R224, R228), the encoder's invariants (R214)
and the round trip (R227). -/

namespace Sys2Proof.Machine

/-! ### The dictionary (R210 to R212) -/

theorem Dict.mem_init {e : List Byte} : e ∈ Dict.init ↔ ∃ c, e = [c] := by
  constructor
  · intro h
    obtain ⟨c, -, rfl⟩ := List.mem_map.1 h
    exact ⟨_, rfl⟩
  · rintro ⟨c, rfl⟩
    exact List.mem_map.2 ⟨c.toNat, List.mem_range.2 c.isLt, by rw [BitVec.ofNat_toNat, BitVec.setWidth_eq]⟩

theorem Dict.init_nodup : Dict.init.Nodup := by
  refine List.nodup_range.map_on fun a ha b hb hab => ?_
  have hbyte : (BitVec.ofNat 8 a).toNat = (BitVec.ofNat 8 b).toNat := by rw [(List.cons.inj hab).1]
  rw [List.mem_range] at ha hb
  rwa [BitVec.toNat_ofNat, BitVec.toNat_ofNat, Nat.mod_eq_of_lt ha, Nat.mod_eq_of_lt hb] at hbyte

theorem Dict.mem_insert_of_mem {d : Dict} {e : List Byte} (h : e ∈ d) (s : List Byte) : e ∈ Dict.insert d s := by
  rcases Nat.lt_or_ge d.length 4096 with hroom | hfull
  · rw [Dict.insert_below hroom]
    exact List.mem_append_left _ h
  · rwa [Dict.insert_atCap hfull]

theorem Dict.insert_getD {d : Dict} {c : Nat} (h : c < d.length) (s : List Byte) :
    (Dict.insert d s).getD c [] = d.getD c [] := by
  rw [List.getD_eq_getElem?_getD, Dict.insert_getElem? h, List.getD_eq_getElem?_getD]

theorem Dict.insert_nodup {d : Dict} {s : List Byte} (h : d.Nodup) (hs : s ∉ d) : (Dict.insert d s).Nodup := by
  rcases Nat.lt_or_ge d.length 4096 with hroom | hfull
  · rw [Dict.insert_below hroom]
    exact List.concat_eq_append ▸ h.concat hs
  · rwa [Dict.insert_atCap hfull]

/-- An entry of a dictionary after an insertion is an old one, or the inserted one at the old size. -/
theorem Dict.insert_getElem?_eq_some {d : Dict} {s e : List Byte} {c : Nat} (h : (Dict.insert d s)[c]? = some e) :
    (c < d.length ∧ d[c]? = some e) ∨ (d.length < 4096 ∧ c = d.length ∧ e = s) := by
  rcases Nat.lt_or_ge c d.length with hlt | hge
  · exact .inl ⟨hlt, Dict.insert_getElem? hlt ▸ h⟩
  rcases Nat.lt_or_ge d.length 4096 with hroom | hfull
  · rw [Dict.insert_below hroom, List.getElem?_append_right hge, List.getElem?_singleton] at h
    split at h
    · exact .inr ⟨hroom, by omega, (Option.some.inj h).symm⟩
    · cases h
  · rw [Dict.insert_atCap hfull, List.getElem?_eq_none hge] at h
    cases h

theorem Dict.mem_or_eq_of_mem_insert {d : Dict} {s e : List Byte} (h : e ∈ Dict.insert d s) : e ∈ d ∨ e = s := by
  obtain ⟨c, hc⟩ := List.mem_iff_getElem?.1 h
  rcases Dict.insert_getElem?_eq_some hc with ⟨-, hold⟩ | ⟨-, -, hnew⟩
  · exact .inl (List.mem_of_getElem? hold)
  · exact .inr hnew

theorem Dict.insert_take {d : Dict} {n : Nat} (h : n ≤ d.length) (s : List Byte) :
    (Dict.insert d s).take n = d.take n := by
  rcases Nat.lt_or_ge d.length 4096 with hroom | hfull
  · rw [Dict.insert_below hroom, List.take_append_of_le_length h]
  · rw [Dict.insert_atCap hfull]

theorem Dict.getD_mem {d : Dict} {c : Nat} (h : c < d.length) : d.getD c [] ∈ d := by
  rw [List.getD_eq_getElem _ _ h]
  exact List.getElem_mem h

theorem Dict.codeOf_lt {d : Dict} {s : List Byte} (h : s ∈ d) : Dict.codeOf d s < d.length :=
  List.idxOf_lt_length_of_mem h

theorem Dict.getD_codeOf {d : Dict} {s : List Byte} (h : s ∈ d) : d.getD (Dict.codeOf d s) [] = s := by
  rw [List.getD_eq_getElem?_getD, Dict.getElem?_codeOf h, Option.getD_some]

/-! ### Dictionaries built by insertions of an entry plus one byte (R224, R228) -/

/-- The dictionaries an encode or a decode can hold: the initial one, and every insertion of an entry plus one byte. -/
inductive Dict.Built : Dict → Prop
  | init : Dict.Built Dict.init
  | insert {d : Dict} {p : List Byte} (x : Byte) : Dict.Built d → p ∈ d → Dict.Built (Dict.insert d (p ++ [x]))

theorem Dict.Built.length_bounds {d : Dict} (h : Dict.Built d) : 256 ≤ d.length ∧ d.length ≤ 4096 := by
  induction h with
  | init => rw [Dict.init_length]; omega
  | insert x _ _ ih => rw [Dict.insert_length _ _ ih.2]; omega

/-- Every byte stays an entry (R211). -/
theorem Dict.Built.singleton_mem {d : Dict} (h : Dict.Built d) (c : Byte) : [c] ∈ d := by
  induction h with
  | init => exact Dict.mem_init.2 ⟨c, rfl⟩
  | insert x _ _ ih => exact Dict.mem_insert_of_mem ih _

theorem Dict.Built.ne_nil_of_mem {d : Dict} (h : Dict.Built d) {e : List Byte} (he : e ∈ d) : e ≠ [] := by
  induction h with
  | init =>
    obtain ⟨c, rfl⟩ := Dict.mem_init.1 he
    exact List.cons_ne_nil _ _
  | @insert d p x hd hp ih =>
    rcases Dict.mem_or_eq_of_mem_insert he with hold | rfl
    · exact ih hold
    · exact List.append_ne_nil_of_right_ne_nil _ (List.cons_ne_nil _ _)

theorem Dict.Built.extends_earlier {d : Dict} (h : Dict.Built d) {c : Nat} {e : List Byte} (he : d[c]? = some e)
    (hc : 256 ≤ c) : ∃ p x, p ∈ d.take c ∧ e = p ++ [x] := by
  induction h with
  | init =>
    have hlt : c < 256 := Dict.init_length ▸ (List.getElem?_eq_some_iff.1 he).1
    omega
  | @insert d p x hd hp ih =>
    rcases Dict.insert_getElem?_eq_some he with ⟨hlt, hold⟩ | ⟨-, rfl, rfl⟩
    · rw [Dict.insert_take hlt.le]
      exact ih hold
    · refine ⟨p, x, ?_, rfl⟩
      rwa [Dict.insert_take le_rfl, List.take_length]

/-- R224's bound, with the initial entries' one byte. -/
theorem Dict.Built.entry_length_le {d : Dict} (h : Dict.Built d) {c : Nat} {e : List Byte} (he : d[c]? = some e) :
    e.length ≤ max 1 (c - 254) := by
  induction h generalizing c e with
  | init =>
    obtain ⟨x, rfl⟩ := Dict.mem_init.1 (List.mem_of_getElem? he)
    exact le_max_left ..
  | @insert d p x hd hp ih =>
    rcases Dict.insert_getElem?_eq_some he with ⟨-, hold⟩ | ⟨-, rfl, rfl⟩
    · exact ih hold
    · obtain ⟨i, hi⟩ := List.mem_iff_getElem?.1 hp
      have hlen := ih hi
      have hlt := (List.getElem?_eq_some_iff.1 hi).1
      have hsize := hd.length_bounds.1
      rw [List.length_append, List.length_singleton]
      omega

theorem Dict.Built.length_le_of_mem {d : Dict} (h : Dict.Built d) {e : List Byte} (he : e ∈ d) : e.length ≤ 3841 := by
  obtain ⟨c, hc⟩ := List.mem_iff_getElem?.1 he
  have hentry := h.entry_length_le hc
  have hlt := (List.getElem?_eq_some_iff.1 hc).1
  have hcap := h.length_bounds.2
  omega

/-- The bound of R224 for the encoder's w and the decoder's previous, which are entries or still empty. -/
theorem Dict.Built.working_length_le {d : Dict} (h : Dict.Built d) {w : List Byte} (hw : w = [] ∨ w ∈ d) :
    w.length ≤ 3841 := by
  rcases hw with rfl | hw
  · exact Nat.zero_le _
  · exact h.length_le_of_mem hw

theorem Dict.Built.entry_bounds {d : Dict} (h : Dict.Built d) {c : Nat} {e : List Byte} (he : d[c]? = some e)
    (hc : 256 ≤ c) : (∃ p x, p ∈ d.take c ∧ e = p ++ [x]) ∧ e.length ≤ c - 254 ∧ c - 254 ≤ 3841 := by
  have hentry := h.entry_length_le he
  have hlt := (List.getElem?_eq_some_iff.1 he).1
  have hcap := h.length_bounds.2
  exact ⟨h.extends_earlier he hc, by omega, by omega⟩

/-! ### The encoder (R213, R214) -/

theorem Enc.step_extend {e : Enc} {c : Byte} (h : e.acc ++ [c] ∈ e.dict) :
    e.step c = { e with acc := e.acc ++ [c] } := if_pos h

theorem Enc.step_emit {e : Enc} {c : Byte} (h : e.acc ++ [c] ∉ e.dict) :
    e.step c = { dict := Dict.insert e.dict (e.acc ++ [c]), acc := [c],
                 codes := e.codes ++ [Dict.codeOf e.dict e.acc] } := if_neg h

/-- The encoder after its first byte `c`. -/
def Enc.first (c : Byte) : Enc := { dict := Dict.init, acc := [c], codes := [] }

theorem Enc.run_singleton (c : Byte) : Enc.run [c] = Enc.first c :=
  Enc.step_extend (e := Enc.init) (Dict.mem_init.2 ⟨c, rfl⟩)

/-- The bytes the emitted codes stand for. -/
def Enc.expanded (e : Enc) : List Byte := e.codes.flatMap fun k => e.dict.getD k []

/-- What holds of the encoder after the bytes `s`, from the first byte on (R214). -/
structure Enc.Inv (e : Enc) (s : List Byte) : Prop where
  built : Dict.Built e.dict
  nodup : e.dict.Nodup
  acc_mem : e.acc ∈ e.dict
  size : e.dict.length = min 4096 (256 + e.codes.length)
  codes_lt : ∀ k ∈ e.codes, k < e.dict.length
  expand : e.expanded ++ e.acc = s

theorem Enc.Inv.acc_ne_nil {e : Enc} {s : List Byte} (h : e.Inv s) : e.acc ≠ [] := h.built.ne_nil_of_mem h.acc_mem

theorem Enc.first_inv (c : Byte) : (Enc.first c).Inv [c] where
  built := .init
  nodup := Dict.init_nodup
  acc_mem := Dict.mem_init.2 ⟨c, rfl⟩
  size := by rw [Enc.first, Dict.init_length, List.length_nil]; rfl
  codes_lt := fun _ hk => nomatch hk
  expand := rfl

/-- The old codes stand for the same entries after an insertion, and the emitted one stands for w. -/
theorem Enc.Inv.expanded_emit {e : Enc} {s : List Byte} (h : e.Inv s) (t : List Byte) (c : Byte) :
    Enc.expanded { dict := Dict.insert e.dict t, acc := [c], codes := e.codes ++ [Dict.codeOf e.dict e.acc] } = s := by
  have hold : (e.codes.flatMap fun k => (Dict.insert e.dict t).getD k []) = e.expanded :=
    List.flatMap_congr fun k hk => Dict.insert_getD (h.codes_lt k hk) t
  rw [Enc.expanded, List.flatMap_append, hold, List.flatMap_singleton, Dict.insert_getD (Dict.codeOf_lt h.acc_mem),
    Dict.getD_codeOf h.acc_mem, h.expand]

theorem Enc.Inv.step {e : Enc} {s : List Byte} (h : e.Inv s) (c : Byte) : (e.step c).Inv (s ++ [c]) := by
  by_cases hmem : e.acc ++ [c] ∈ e.dict
  · rw [Enc.step_extend hmem]
    refine ⟨h.built, h.nodup, hmem, h.size, h.codes_lt, ?_⟩
    rw [← h.expand, List.append_assoc]
    rfl
  · rw [Enc.step_emit hmem]
    have hbuilt := h.built.insert c h.acc_mem
    have hlen := Dict.insert_length e.dict (e.acc ++ [c]) h.built.length_bounds.2
    refine ⟨hbuilt, Dict.insert_nodup h.nodup hmem, hbuilt.singleton_mem c, ?_, fun k hk => ?_, ?_⟩
    · have hsize := h.size
      rw [hlen, List.length_append, List.length_singleton]
      omega
    · have hold : k < e.dict.length := by
        rcases List.mem_append.1 hk with hemitted | hlast
        · exact h.codes_lt k hemitted
        · exact List.mem_singleton.1 hlast ▸ Dict.codeOf_lt h.acc_mem
      have hcap := h.built.length_bounds.2
      rw [hlen]
      omega
    · rw [h.expanded_emit]

/-- An induction over a non-empty input, byte after byte, as the encoder takes it. -/
theorem bytes_snoc_induction {P : List Byte → Prop} (first : ∀ c, P [c]) (next : ∀ s c, s ≠ [] → P s → P (s ++ [c]))
    {s : List Byte} (h : s ≠ []) : P s := by
  induction s using List.reverseRecOn with
  | nil => exact absurd rfl h
  | append_singleton s c ih =>
    by_cases hs : s = []
    · rw [hs]
      exact first c
    · exact next s c hs (ih hs)

theorem Enc.run_inv {s : List Byte} (h : s ≠ []) : (Enc.run s).Inv s :=
  bytes_snoc_induction (P := fun s => (Enc.run s).Inv s) (fun c => Enc.run_singleton c ▸ Enc.first_inv c)
    (fun s c _ ih => Enc.run_snoc s c ▸ ih.step c) h

theorem Enc.run_built (s : List Byte) :
    Dict.Built (Enc.run s).dict ∧ ((Enc.run s).acc = [] ∨ (Enc.run s).acc ∈ (Enc.run s).dict) := by
  by_cases h : s = []
  · rw [h]
    exact ⟨.init, .inl rfl⟩
  · exact ⟨(Enc.run_inv h).built, .inr (Enc.run_inv h).acc_mem⟩

theorem Enc.run_nodup (s : List Byte) : (Enc.run s).dict.Nodup := by
  by_cases h : s = []
  · rw [h]
    exact Dict.init_nodup
  · exact (Enc.run_inv h).nodup

/-- The flush adds w's code to the codes emitted in the loop (R213). -/
theorem lzwEncode_codes {s : List Byte} (h : s ≠ []) :
    (lzwEncode s).1 = (Enc.run s).codes ++ [Dict.codeOf (Enc.run s).dict (Enc.run s).acc] :=
  if_neg (Enc.run_inv h).acc_ne_nil

theorem lzwEncode_size (s : List Byte) : (lzwEncode s).2 = (Enc.run s).dict.length := rfl

/-- R214 (d), for every code that is written. -/
theorem lzwEncode_codes_lt {s : List Byte} {k : Nat} (hk : k ∈ (lzwEncode s).1) : k < (Enc.run s).dict.length := by
  by_cases h : s = []
  · rw [h] at hk
    cases hk
  rw [lzwEncode_codes h] at hk
  rcases List.mem_append.1 hk with hemitted | hlast
  · exact (Enc.run_inv h).codes_lt k hemitted
  · exact List.mem_singleton.1 hlast ▸ Dict.codeOf_lt (Enc.run_inv h).acc_mem

/-- R214 (d), for the code a byte makes the encoder emit, against the size at its emission. -/
theorem Enc.emitted_lt {s : List Byte} {c : Byte} {k : Nat} (h : (Enc.run (s ++ [c])).codes = (Enc.run s).codes ++ [k]) :
    k < (Enc.run s).dict.length := by
  rw [Enc.run_snoc] at h
  by_cases hmem : (Enc.run s).acc ++ [c] ∈ (Enc.run s).dict
  · rw [Enc.step_extend hmem] at h
    exact absurd (List.self_eq_append_right.1 h) (List.cons_ne_nil _ _)
  · rw [Enc.step_emit hmem] at h
    obtain rfl := List.singleton_inj.1 (List.append_cancel_left h)
    obtain ⟨hd, hacc | hacc⟩ := Enc.run_built s
    · rw [hacc] at hmem
      exact absurd (hd.singleton_mem c) hmem
    · exact Dict.codeOf_lt hacc

/-- R214 (e). -/
theorem lzwEncode_expand (s : List Byte) : ((lzwEncode s).1.flatMap fun k => (Enc.run s).dict.getD k []) = s := by
  by_cases h : s = []
  · rw [h]
    rfl
  have hinv := Enc.run_inv h
  rw [lzwEncode_codes h, List.flatMap_append, List.flatMap_singleton, Dict.getD_codeOf hinv.acc_mem]
  exact hinv.expand

/-! ### The decoder (R221, R222) -/

theorem Dec.entry_known {d : Dec} {k : Nat} (h : k < d.dict.length) : d.entry k = some (d.dict.getD k []) := by
  rw [Dec.entry, classify_known h]

theorem Dec.entry_selfRef {d : Dec} (h : d.dict.length < 4096) :
    d.entry d.dict.length = some (d.previous ++ [d.previous.headD 0]) := by
  rw [Dec.entry, classify_selfRef h]

theorem Dec.entry_invalid {d : Dec} {k : Nat} (h : d.dict.length < k ∨ (k = d.dict.length ∧ 4096 ≤ d.dict.length)) :
    d.entry k = none := by
  rw [Dec.entry, classify_invalid h]

/-- A code the decoder accepts is an entry's, or the next one's while there is room (R221). -/
theorem Dec.entry_eq_some {d : Dec} {k : Nat} {e : List Byte} (h : d.entry k = some e) :
    (k < d.dict.length ∧ e = d.dict.getD k []) ∨ (d.dict.length < 4096 ∧ e = d.previous ++ [d.previous.headD 0]) := by
  rcases lt_trichotomy k d.dict.length with hlt | rfl | hgt
  · rw [Dec.entry_known hlt] at h
    exact .inl ⟨hlt, (Option.some.inj h).symm⟩
  · rcases Nat.lt_or_ge d.dict.length 4096 with hroom | hfull
    · rw [Dec.entry_selfRef hroom] at h
      exact .inr ⟨hroom, (Option.some.inj h).symm⟩
    · rw [Dec.entry_invalid (.inr ⟨rfl, hfull⟩)] at h
      cases h
  · rw [Dec.entry_invalid (.inl hgt)] at h
    cases h

theorem Dec.loop_cons_some {d : Dec} {k : Nat} {e : List Byte} (h : d.entry k = some e) (ks : List Nat) :
    Dec.loop d (k :: ks) = Dec.loop (d.take e) ks := by
  rw [Dec.loop, h]

theorem Dec.loop_cons_none {d : Dec} {k : Nat} (h : d.entry k = none) (ks : List Nat) :
    Dec.loop d (k :: ks) = (d, some .invalidCode) := by
  rw [Dec.loop, h]

/-- The decoder after its first code `k`, a byte's. -/
def Dec.first (k : Nat) : Dec := { Dec.init with previous := Dict.init.getD k [], out := Dict.init.getD k [] }

theorem Dec.run_cons_byte {k : Nat} (h : k < 256) (ks : List Nat) : Dec.run (k :: ks) = Dec.loop (Dec.first k) ks :=
  if_neg (Nat.not_le.2 h)

theorem Dec.run_cons_notByte {k : Nat} (h : 256 ≤ k) (ks : List Nat) :
    Dec.run (k :: ks) = (Dec.init, some .invalidCode) := if_pos h

/-- One more code after a decode that accepted all its codes (R222). -/
theorem Dec.run_snoc {ks : List Nat} {d : Dec} {k : Nat} {e : List Byte} (h : Dec.run ks = (d, none))
    (he : d.entry k = some e) : Dec.run (ks ++ [k]) = (d.take e, none) := by
  cases ks with
  | nil => cases h
  | cons k₀ ks =>
    rcases Nat.lt_or_ge k₀ 256 with hbyte | hnot
    · rw [Dec.run_cons_byte hbyte] at h
      rw [List.cons_append, Dec.run_cons_byte hbyte, Dec.loop_append h, Dec.loop_cons_some he]
      rfl
    · rw [Dec.run_cons_notByte hnot] at h
      cases h

/-- What holds of the decoder from its first accepted code on (R222, R224). -/
structure Dec.Inv (d : Dec) : Prop where
  built : Dict.Built d.dict
  previous_mem : d.previous ∈ d.dict

theorem Dec.Inv.previous_ne_nil {d : Dec} (h : d.Inv) : d.previous ≠ [] := h.built.ne_nil_of_mem h.previous_mem

theorem Dec.first_inv {k : Nat} (h : k < 256) : (Dec.first k).Inv where
  built := .init
  previous_mem := Dict.getD_mem (d := Dict.init) (Dict.init_length ▸ h)

theorem Dec.Inv.take {d : Dec} (h : d.Inv) {k : Nat} {e : List Byte} (he : d.entry k = some e) : (d.take e).Inv where
  built := h.built.insert _ h.previous_mem
  previous_mem := by
    show e ∈ Dict.insert d.dict (d.previous ++ [e.headD 0])
    rcases Dec.entry_eq_some he with ⟨hlt, rfl⟩ | ⟨hroom, rfl⟩
    · exact Dict.mem_insert_of_mem (Dict.getD_mem hlt) _
    · obtain ⟨x, p, hp⟩ := List.exists_cons_of_ne_nil h.previous_ne_nil
      rw [Dict.insert_below hroom, hp]
      exact List.mem_append_right _ (List.mem_singleton_self _)

theorem Dec.Inv.loop {d : Dec} (h : d.Inv) (ks : List Nat) : (Dec.loop d ks).1.Inv := by
  induction ks generalizing d with
  | nil => exact h
  | cons k ks ih =>
    cases he : d.entry k with
    | none => rwa [Dec.loop_cons_none he]
    | some e =>
      rw [Dec.loop_cons_some he]
      exact ih (h.take he)

theorem Dec.run_built (ks : List Nat) :
    Dict.Built (Dec.run ks).1.dict ∧ ((Dec.run ks).1.previous = [] ∨ (Dec.run ks).1.previous ∈ (Dec.run ks).1.dict) := by
  cases ks with
  | nil => exact ⟨.init, .inl rfl⟩
  | cons k ks =>
    rcases Nat.lt_or_ge k 256 with hbyte | hnot
    · rw [Dec.run_cons_byte hbyte]
      have hinv := (Dec.first_inv hbyte).loop ks
      exact ⟨hinv.built, .inr hinv.previous_mem⟩
    · rw [Dec.run_cons_notByte hnot]
      exact ⟨.init, .inl rfl⟩

/-! ### The round trip (R223, R227) -/

/-- The decoder lags the encoder by the entry previous ++ [c]. The code of an entry that begins with c reads as that
entry all the same: it is an old entry's, or the code of previous ++ [c] itself, which is the self-referencing case. -/
theorem Dec.entry_codeOf_insert {d : Dec} {c : Byte} {w : List Byte} (hprev : d.previous ≠ [])
    (hw : w ∈ Dict.insert d.dict (d.previous ++ [c])) (hc : w.head? = some c) :
    d.entry (Dict.codeOf (Dict.insert d.dict (d.previous ++ [c])) w) = some w := by
  rcases Dict.insert_getElem?_eq_some (Dict.getElem?_codeOf hw) with ⟨hlt, hold⟩ | ⟨hroom, hnew, hwc⟩
  · rw [Dec.entry_known hlt, List.getD_eq_getElem?_getD, hold, Option.getD_some]
  · obtain ⟨x, p, hp⟩ := List.exists_cons_of_ne_nil hprev
    have hx : x = c := by
      rw [hwc, hp] at hc
      exact Option.some.inj hc
    rw [hnew, Dec.entry_selfRef hroom, hwc, hp, hx]
    rfl

theorem Dec.take_of_head {d : Dec} {c : Byte} {w : List Byte} (hc : w.head? = some c) :
    d.take w = { dict := Dict.insert d.dict (d.previous ++ [c]), previous := w, out := d.out ++ w } := by
  rw [Dec.take, List.headD_eq_head?_getD, hc, Option.getD_some]

/-- The simulation: a decoder that reads the emitted codes and then the code of any entry `w` that begins as the
encoder's own w does ends with the encoder's dictionary. The next code written is one of those. -/
def Enc.Simulated (e : Enc) : Prop :=
  ∀ w ∈ e.dict, w.head? = e.acc.head? →
    Dec.run (e.codes ++ [Dict.codeOf e.dict w]) = ({ dict := e.dict, previous := w, out := e.expanded ++ w }, none)

theorem Enc.first_simulated (c : Byte) : (Enc.first c).Simulated := by
  intro w (hw : w ∈ Dict.init) _
  have hbyte : Dict.codeOf Dict.init w < 256 := Dict.init_length ▸ Dict.codeOf_lt hw
  show Dec.run [Dict.codeOf Dict.init w] = _
  rw [Dec.run_cons_byte hbyte, Dec.first, Dict.getD_codeOf hw]
  rfl

theorem Enc.Simulated.step {e : Enc} {s : List Byte} (h : e.Simulated) (hinv : e.Inv s) (c : Byte) :
    (e.step c).Simulated := by
  by_cases hmem : e.acc ++ [c] ∈ e.dict
  · rw [Enc.step_extend hmem]
    intro w hw hhead
    exact h w hw (hhead.trans (List.head?_append_of_ne_nil _ hinv.acc_ne_nil))
  · rw [Enc.step_emit hmem]
    intro w hw hhead
    have hread := h e.acc hinv.acc_mem rfl
    rw [Dec.run_snoc hread (Dec.entry_codeOf_insert hinv.acc_ne_nil hw hhead), Dec.take_of_head hhead,
      hinv.expanded_emit, hinv.expand]

theorem Enc.run_simulated {s : List Byte} (h : s ≠ []) : (Enc.run s).Simulated :=
  bytes_snoc_induction (P := fun s => (Enc.run s).Simulated) (fun c => Enc.run_singleton c ▸ Enc.first_simulated c)
    (fun s c hs ih => Enc.run_snoc s c ▸ ih.step (Enc.run_inv hs) c) h

/-- The decoder reads the encoder's codes back, and ends in the encoder's dictionary and w. -/
theorem Dec.run_lzwEncode {s : List Byte} (h : s ≠ []) :
    Dec.run (lzwEncode s).1 = ({ dict := (Enc.run s).dict, previous := (Enc.run s).acc, out := s }, none) := by
  have hinv := Enc.run_inv h
  rw [lzwEncode_codes h, Enc.run_simulated h _ hinv.acc_mem rfl, hinv.expand]

theorem lzwDecode_lzwEncode {s : List Byte} (h : s ≠ []) : lzwDecode (lzwEncode s).1 = .ok (s, (lzwEncode s).2) := by
  rw [lzwDecode, Dec.run_lzwEncode h]
  rfl

/-! ### The code stream (R215, R220) -/

theorem rd16_append_right (xs ys : List Byte) (i : Nat) : rd16 (xs ++ ys) (xs.length + i) = rd16 ys i := by
  rw [rd16, rd16, List.getD_append_right _ _ _ _ (Nat.le_add_right ..), Nat.add_assoc,
    List.getD_append_right _ _ _ _ (Nat.le_add_right ..), Nat.add_sub_cancel_left, Nat.add_sub_cancel_left]

theorem map_rd16_codesToBytes {ks : List Nat} (h : ∀ k ∈ ks, k < 65536) :
    ((List.range ks.length).map fun i => rd16 (codesToBytes ks) (2 * i)) = ks := by
  induction ks with
  | nil => rfl
  | cons k ks ih =>
    obtain ⟨hk, hks⟩ := List.forall_mem_cons.1 h
    have hrest (i : Nat) : rd16 (be16 k ++ codesToBytes ks) (2 * (i + 1)) = rd16 (codesToBytes ks) (2 * i) := by
      rw [Nat.mul_succ, Nat.add_comm]
      exact rd16_append_right (be16 k) (codesToBytes ks) (2 * i)
    rw [codesToBytes_cons, List.length_cons, List.range_succ_eq_map, List.map_cons, List.map_map, Nat.mul_zero,
      rd16_be16 hk]
    refine congrArg (k :: ·) (Eq.trans ?_ (ih hks))
    exact List.map_congr_left fun i _ => hrest i

/-- A stream of 16-bit codes parses back to its codes. -/
theorem parseCodes_codesToBytes {ks : List Nat} (hne : ks ≠ []) (h : ∀ k ∈ ks, k < 65536) :
    parseCodes (codesToBytes ks) = .ok ks := by
  have hpos := List.length_pos_iff.2 hne
  have hlen := codesToBytes_length ks
  have hhalf : (codesToBytes ks).length / 2 = ks.length := by omega
  rw [parseCodes_even (by omega) (by omega), hhalf, map_rd16_codesToBytes h]

theorem decodeCodeStream_ok {bytes out : List Byte} {ks : List Nat} {size : Nat} (hparse : parseCodes bytes = .ok ks)
    (hdecode : lzwDecode ks = .ok (out, size)) : decodeCodeStream bytes = .ok (out, ks.length, size) := by
  simp only [decodeCodeStream, hparse, hdecode]

end Sys2Proof.Machine

/-! The statements about the LZW stage. -/

namespace Sys2Proof

open Sys2Proof.Machine

/-- Settles O39: the codes parse back, and the decoder that reads them ends in the encoder's dictionary. -/
theorem lzwRoundTrip : Obligations.LzwRoundTrip := by
  refine ⟨fun s h => ?_, rfl⟩
  have hne : (lzwEncode s).1 ≠ [] := by
    rw [lzwEncode_codes h]
    exact List.append_ne_nil_of_right_ne_nil _ (List.cons_ne_nil _ _)
  have hword : ∀ k ∈ (lzwEncode s).1, k < 65536 := fun k hk => by
    have hlt := lzwEncode_codes_lt hk
    have hcap := (Enc.run_built s).1.length_bounds.2
    omega
  exact decodeCodeStream_ok (parseCodes_codesToBytes hne hword) (lzwDecode_lzwEncode h)

/-- Settles O37: the encoder's invariants, and the flush, which adds the code of w. -/
theorem encoderInvariantsHold : Obligations.EncoderInvariantsHold := by
  intro s
  refine ⟨fun h => ⟨(Enc.run_inv h).acc_ne_nil, (Enc.run_inv h).acc_mem⟩, Enc.run_nodup s, fun h => ?_,
    fun c k => Enc.emitted_lt, fun k hk => ?_, lzwEncode_expand s⟩
  · have hlen : (lzwEncode s).1.length = 1 + (Enc.run s).codes.length := by
      rw [lzwEncode_codes h, List.length_append, List.length_singleton, Nat.add_comm]
    have hsize := (Enc.run_inv h).size
    refine ⟨hlen, ?_⟩
    rw [lzwEncode_size, hsize, hlen]
    omega
  · have hlt := lzwEncode_codes_lt hk
    have hcap := (Enc.run_built s).1.length_bounds.2
    exact ⟨hlt, by omega⟩

/-- Settles O38: both dictionaries are built by insertions of an entry plus one byte, from where the bounds follow. -/
theorem dictionariesStayInBounds : Obligations.DictionariesStayInBounds := by
  refine ⟨fun s => ?_, fun ks => ?_⟩
  · obtain ⟨hd, hw⟩ := Enc.run_built s
    obtain ⟨hinit, hcap⟩ := hd.length_bounds
    refine ⟨hinit, hcap, fun k hk => ?_, hd.working_length_le hw, fun c e => hd.entry_bounds⟩
    have hlt := lzwEncode_codes_lt hk
    omega
  · obtain ⟨hd, hw⟩ := Dec.run_built ks
    obtain ⟨hinit, hcap⟩ := hd.length_bounds
    exact ⟨hinit, hcap, hd.working_length_le hw, fun c e => hd.entry_bounds⟩

end Sys2Proof
end

section
/-! PROOFS. The quantizer's arithmetic on one block (43_block.md section 2): the luma (R254), the mask (R255), the two
groups' sums and floored means (R256), and the group facts (R257). -/

namespace Sys2Proof.Machine

/-! ### The mask and the two groups (R255) -/

/-- The comparison of R255: pc · Yq ≥ S. -/
def reachesMean (px : List Rgb) (p : Rgb) : Bool := decide ((px.map luma).sum ≤ px.length * luma p)

theorem reachesMean_iff {px : List Rgb} {p : Rgb} :
    reachesMean px p = true ↔ (px.map luma).sum ≤ px.length * luma p := decide_eq_true_iff

theorem blockMask_eq_map (px : List Rgb) : blockMask px = px.map (reachesMean px) := rfl

theorem maskedPixels_eq_filter (px : List Rgb) (bit : Bool) :
    maskedPixels px bit = px.filter fun p => reachesMean px p == bit := rfl

theorem mem_maskedPixels {px : List Rgb} {bit : Bool} {p : Rgb} :
    p ∈ maskedPixels px bit ↔ p ∈ px ∧ reachesMean px p = bit := by
  rw [maskedPixels_eq_filter, List.mem_filter, beq_iff_eq]

/-- The pixels and the mask, read side by side, give the groups. -/
theorem zip_blockMask_filter (px : List Rgb) (bit : Bool) :
    ((px.zip (blockMask px)).filter fun q => q.2 == bit).map (fun q => q.1) = maskedPixels px bit := by
  have hzip : px.zip (blockMask px) = px.map fun p => (p, reachesMean px p) := by
    simpa [blockMask_eq_map] using List.zip_map' (f := id) (g := reachesMean px) (l := px)
  rw [hzip, List.filter_map, List.map_map]
  exact List.map_id _

/-- The two groups together are the block, in another order. -/
theorem maskedPixels_append_perm (px : List Rgb) :
    (maskedPixels px false ++ maskedPixels px true).Perm px := by
  have hhigh : maskedPixels px true = px.filter fun p => !(reachesMean px p == false) := by
    rw [maskedPixels_eq_filter]
    exact List.filter_congr fun p _ => by cases reachesMean px p <;> rfl
  rw [hhigh]
  exact List.filter_append_perm _ px

/-- What is summed over the groups adds up to the sum over the block (R256). -/
theorem maskedPixels_sum_add (px : List Rgb) (f : Rgb → Nat) :
    ((maskedPixels px false).map f).sum + ((maskedPixels px true).map f).sum = (px.map f).sum := by
  rw [← List.sum_append, ← List.map_append]
  exact ((maskedPixels_append_perm px).map f).sum_eq

theorem maskedPixels_length_add (px : List Rgb) :
    (maskedPixels px false).length + (maskedPixels px true).length = px.length := by
  rw [← List.length_append]
  exact (maskedPixels_append_perm px).length_eq

/-! ### Which pixels reach the mean (R257) -/

/-- The mean of the values pc · Yq is S. -/
theorem sum_scaled_luma (px : List Rgb) :
    (px.map fun p => px.length * luma p).sum = (px.map fun _ => (px.map luma).sum).sum := by
  rw [List.sum_map_mul_left, List.map_const', List.sum_replicate, smul_eq_mul]

/-- R257 (a): some pixel reaches the mean. -/
theorem exists_reachesMean {px : List Rgb} (h : px ≠ []) : ∃ p ∈ px, reachesMean px p = true := by
  obtain ⟨p, hp, hle⟩ := List.exists_le_of_sum_le h _ _ (sum_scaled_luma px).ge
  exact ⟨p, hp, reachesMean_iff.2 hle⟩

/-- R257 (b): pixels that all reach the mean all have the mean's luma. -/
theorem luma_eq_of_forall_reachesMean {px : List Rgb} (hall : ∀ p ∈ px, reachesMean px p = true) {p q : Rgb}
    (hp : p ∈ px) (hq : q ∈ px) : luma p = luma q := by
  have hmean : ∀ r ∈ px, px.length * luma r = (px.map luma).sum := by
    intro r hr
    refine Nat.le_antisymm (Nat.le_of_not_lt fun hlt => ?_) (reachesMean_iff.1 (hall r hr))
    have hsum := List.sum_lt_sum _ _ (fun s hs => reachesMean_iff.1 (hall s hs)) ⟨r, hr, hlt⟩
    exact absurd (sum_scaled_luma px).symm hsum.ne
  exact Nat.eq_of_mul_eq_mul_left (List.length_pos_of_mem hp) ((hmean p hp).trans (hmean q hq).symm)

theorem reachesMean_of_equal_luma {px : List Rgb} (h : ∀ p ∈ px, ∀ q ∈ px, luma p = luma q) {p : Rgb} (hp : p ∈ px) :
    reachesMean px p = true := by
  obtain ⟨q, hq, hmean⟩ := exists_reachesMean (List.ne_nil_of_mem hp)
  rw [reachesMean_iff] at hmean ⊢
  rwa [h p hp q hq]

/-- R257 (b): the mask is constant exactly over one luma, and is then all ones. -/
theorem luma_eq_of_constant_mask {px : List Rgb} {bit : Bool} (hall : ∀ p ∈ px, reachesMean px p = bit) {p q : Rgb}
    (hp : p ∈ px) (hq : q ∈ px) : luma p = luma q := by
  obtain ⟨r, hr, hmean⟩ := exists_reachesMean (List.ne_nil_of_mem hp)
  obtain rfl : bit = true := (hall r hr).symm.trans hmean
  exact luma_eq_of_forall_reachesMean hall hp hq

theorem blockMask_of_equal_luma {px : List Rgb} (h : ∀ p ∈ px, ∀ q ∈ px, luma p = luma q) :
    blockMask px = List.replicate px.length true := by
  rw [blockMask_eq_map, List.map_congr_left fun p hp => reachesMean_of_equal_luma h hp, List.map_const']

theorem maskedPixels_true_ne_nil {px : List Rgb} (h : px ≠ []) : maskedPixels px true ≠ [] := by
  obtain ⟨p, hp, hmean⟩ := exists_reachesMean h
  exact List.ne_nil_of_mem (mem_maskedPixels.2 ⟨hp, hmean⟩)

theorem maskedPixels_false_eq_nil_iff (px : List Rgb) :
    maskedPixels px false = [] ↔ ∀ p ∈ px, ∀ q ∈ px, luma p = luma q := by
  constructor
  · intro hempty p hp q hq
    refine luma_eq_of_constant_mask (bit := true) (fun r hr => ?_) hp hq
    refine Bool.eq_true_of_not_eq_false fun hlow => ?_
    exact List.eq_nil_iff_forall_not_mem.1 hempty r (mem_maskedPixels.2 ⟨hr, hlow⟩)
  · intro h
    refine List.eq_nil_iff_forall_not_mem.2 fun p hmem => ?_
    obtain ⟨hp, hlow⟩ := mem_maskedPixels.1 hmem
    exact absurd hlow (ne_of_eq_of_ne (reachesMean_of_equal_luma h hp) (by decide))

/-! ### Sums and floored means (R254, R256) -/

theorem luma_le (p : Rgb) : luma p ≤ 2549745 := by
  have hr := p.r.isLt
  have hg := p.g.isLt
  have hb := p.b.isLt
  unfold luma
  omega

theorem sum_map_le {px : List Rgb} {f : Rgb → Nat} {m : Nat} (h : ∀ p, f p ≤ m) : (px.map f).sum ≤ px.length * m := by
  have hsum := List.sum_le_card_nsmul (px.map f) m fun x hx => by
    obtain ⟨p, -, rfl⟩ := List.mem_map.1 hx
    exact h p
  rwa [List.length_map, smul_eq_mul] at hsum

theorem channel_sum_le (px : List Rgb) (channel : Rgb → Byte) :
    (px.map fun p => (channel p).toNat).sum ≤ px.length * 255 :=
  sum_map_le fun p => Nat.le_of_lt_succ (channel p).isLt

/-- A channel's mean fits a byte, so the byte holds it (R256). -/
theorem groupMean_toNat {sum n sumAll pc : Nat} (h : sum ≤ n * 255) (hall : sumAll ≤ pc * 255) :
    (groupMean sum n sumAll pc).toNat = if 0 < n then sum / n else sumAll / pc := by
  have hgroup : sum / n ≤ 255 := Nat.div_le_of_le_mul h
  have hblock : sumAll / pc ≤ 255 := Nat.div_le_of_le_mul hall
  rw [groupMean, BitVec.toNat_ofNat]
  refine Nat.mod_eq_of_lt ?_
  split <;> omega

theorem groupTriple_toNat (group px : List Rgb) :
    let c := groupTriple (sumPixels group) group.length (sumPixels px) px.length
    (c.r.toNat = if 0 < group.length then (sumPixels group).r / group.length else (sumPixels px).r / px.length) ∧
    (c.g.toNat = if 0 < group.length then (sumPixels group).g / group.length else (sumPixels px).g / px.length) ∧
    (c.b.toNat = if 0 < group.length then (sumPixels group).b / group.length else (sumPixels px).b / px.length) :=
  ⟨groupMean_toNat (channel_sum_le group Rgb.r) (channel_sum_le px Rgb.r),
    groupMean_toNat (channel_sum_le group Rgb.g) (channel_sum_le px Rgb.g),
    groupMean_toNat (channel_sum_le group Rgb.b) (channel_sum_le px Rgb.b)⟩

theorem groupMean_of_constant {group : List Rgb} {channel : Rgb → Byte} {c : Rgb} (hne : group ≠ [])
    (h : ∀ p ∈ group, p = c) (sumAll pc : Nat) :
    groupMean (group.map fun p => (channel p).toNat).sum group.length sumAll pc = channel c := by
  have hpos := List.length_pos_iff.2 hne
  have hsum : (group.map fun p => (channel p).toNat).sum = group.length * (channel c).toNat := by
    rw [List.sum_eq_card_nsmul _ (channel c).toNat fun x hx => ?_, List.length_map, smul_eq_mul]
    obtain ⟨p, hp, rfl⟩ := List.mem_map.1 hx
    rw [h p hp]
  rw [groupMean, if_pos hpos, hsum, Nat.mul_div_cancel_left _ hpos, BitVec.ofNat_toNat, BitVec.setWidth_eq]

/-- A group of one colour has that colour as its triple. -/
theorem groupTriple_of_constant {group : List Rgb} {c : Rgb} (hne : group ≠ []) (h : ∀ p ∈ group, p = c) (all : Sums)
    (pc : Nat) : groupTriple (sumPixels group) group.length all pc = c := by
  rw [groupTriple, Rgb.mk.injEq]
  exact ⟨groupMean_of_constant (channel := Rgb.r) hne h _ _, groupMean_of_constant (channel := Rgb.g) hne h _ _,
    groupMean_of_constant (channel := Rgb.b) hne h _ _⟩

/-! ### The triples of a block (R256, R257) -/

theorem analyseBlock_hi_of_constant {px : List Rgb} {c : Rgb} (hne : px ≠ [])
    (h : ∀ p ∈ px, reachesMean px p = true → p = c) : (analyseBlock px).hi = c :=
  groupTriple_of_constant (maskedPixels_true_ne_nil hne)
    (fun p hmem => h p (mem_maskedPixels.1 hmem).1 (mem_maskedPixels.1 hmem).2) _ _

theorem analyseBlock_lo_of_constant {px : List Rgb} {c p : Rgb} (hp : p ∈ px) (hlow : reachesMean px p = false)
    (h : ∀ q ∈ px, reachesMean px q = false → q = c) : (analyseBlock px).lo = c :=
  groupTriple_of_constant (List.ne_nil_of_mem (mem_maskedPixels.2 ⟨hp, hlow⟩))
    (fun q hmem => h q (mem_maskedPixels.1 hmem).1 (mem_maskedPixels.1 hmem).2) _ _

/-- In a block of one luma both triples are the mean of the block (R257 b). -/
theorem analyseBlock_of_equal_luma {px : List Rgb} (h : ∀ p ∈ px, ∀ q ∈ px, luma p = luma q) :
    (analyseBlock px).lo = (analyseBlock px).hi ∧
    (analyseBlock px).hi.r.toNat = (sumPixels px).r / px.length ∧
    (analyseBlock px).hi.g.toNat = (sumPixels px).g / px.length ∧
    (analyseBlock px).hi.b.toNat = (sumPixels px).b / px.length := by
  have hlo : (analyseBlock px).lo = groupTriple (sumPixels px) px.length (sumPixels px) px.length := by
    simp [analyseBlock, (maskedPixels_false_eq_nil_iff px).2 h, groupTriple, groupMean]
  have hall : maskedPixels px true = px :=
    List.filter_eq_self.2 fun p hp => beq_iff_eq.2 (reachesMean_of_equal_luma h hp)
  have hhi : (analyseBlock px).hi = groupTriple (sumPixels px) px.length (sumPixels px) px.length := by
    simp only [analyseBlock, hall]
  have hmean := groupTriple_toNat px px
  simp only [ite_self] at hmean
  exact ⟨hlo.trans hhi.symm, hhi ▸ hmean⟩

theorem analyseBlock_of_one_colour {px : List Rgb} {c : Rgb} (hne : px ≠ []) (h : ∀ p ∈ px, p = c) :
    (analyseBlock px).lo = c ∧ (analyseBlock px).hi = c ∧ (analyseBlock px).mask = List.replicate px.length true := by
  have hluma : ∀ p ∈ px, ∀ q ∈ px, luma p = luma q := fun p hp q hq => by rw [h p hp, h q hq]
  have hhi : (analyseBlock px).hi = c := analyseBlock_hi_of_constant hne fun p hp _ => h p hp
  obtain ⟨hlo, -⟩ := analyseBlock_of_equal_luma hluma
  exact ⟨hlo.trans hhi, hhi, blockMask_of_equal_luma hluma⟩

end Sys2Proof.Machine

/-! The statements about one block. -/

namespace Sys2Proof

open Sys2Proof.Machine

/-- Settles O43: the groups are the block's pixels split by the mask, and each mean fits its byte. -/
theorem triplesAreFlooredGroupMeans : Obligations.TriplesAreFlooredGroupMeans := by
  refine ⟨fun p => ⟨rfl, luma_le p⟩, fun px _ => ?_⟩
  intro b group
  have hgroup (bit : Bool) : group bit = maskedPixels px bit := zip_blockMask_filter px bit
  obtain ⟨hhr, hhg, hhb⟩ := groupTriple_toNat (maskedPixels px true) px
  obtain ⟨hlr, hlg, hlb⟩ := groupTriple_toNat (maskedPixels px false) px
  have hmask (t : Nat) (h : t < px.length) : b.mask.getD t false = decide (b.lumaSum ≤ px.length * luma px[t]) := by
    rw [List.getD_eq_getElem _ _ ((blockMask_length px).symm ▸ h)]
    exact List.getElem_map _
  rw [hgroup false, hgroup true]
  refine ⟨rfl, blockMask_length px, hmask, rfl, rfl, maskedPixels_length_add px, rfl, rfl, rfl,
    maskedPixels_sum_add px _, maskedPixels_sum_add px _, maskedPixels_sum_add px _, hhr, hhg, hhb, hlr, hlg, hlb, ?_⟩
  intro hpc
  have hchannel (channel : Rgb → Byte) : (px.map fun p => (channel p).toNat).sum ≤ 65280 :=
    (channel_sum_le px channel).trans (Nat.mul_le_mul_right 255 hpc)
  exact ⟨hchannel Rgb.r, hchannel Rgb.g, hchannel Rgb.b,
    (sum_map_le luma_le).trans (Nat.mul_le_mul_right 2549745 hpc), fun p _ => Nat.mul_le_mul hpc (luma_le p)⟩

/-- Settles O44: some pixel reaches the mean, and all do exactly when they have one luma. -/
theorem groupFactsHold : Obligations.GroupFactsHold := by
  intro px hne b
  have hlow : b.n0 = 0 ↔ ∀ p ∈ px, ∀ q ∈ px, luma p = luma q :=
    List.length_eq_zero_iff.trans (maskedPixels_false_eq_nil_iff px)
  refine ⟨List.length_pos_iff.2 (maskedPixels_true_ne_nil hne), hlow, fun hempty => ?_, fun c hc => ?_⟩
  · obtain ⟨hlo, hmean⟩ := analyseBlock_of_equal_luma (hlow.1 hempty)
    exact ⟨hlo, hlo ▸ hmean⟩
  · obtain ⟨hlo, hhi, hmask⟩ := analyseBlock_of_one_colour hne hc
    refine ⟨hlo, hhi, hmask, fun hlen => ?_⟩
    rw [hmask, hlen]
    decide +kernel

end Sys2Proof
end

section
/-! PROOFS. The block grid (43_block.md R250, R251, R253, R264), pixels in an image, and the records of a quantized payload
(R258, R267). -/

namespace Sys2Proof.Machine

/-! ### The grid and its blocks (R250, R251) -/

theorem grid_nodup (w h b : Nat) : (grid w h b).Nodup := List.Nodup.product List.nodup_range List.nodup_range

theorem length_grid (w h b : Nat) : (grid w h b).length = ceilDiv h b * ceilDiv w b := by
  simp [grid, List.length_flatMap]

/-! ### The pixels of a block (R253, R264) -/

/-- A pixel of a block lies in its columns and rows. -/
theorem Rect.pixel_mem {r : Rect} {t : Nat} (ht : t < r.count) :
    (r.x0 ≤ (r.pixel t).1 ∧ (r.pixel t).1 < r.x1) ∧ r.y0 ≤ (r.pixel t).2 ∧ (r.pixel t).2 < r.y1 := by
  have hwidth : 0 < r.width := Nat.pos_of_mul_pos_right (Nat.zero_lt_of_lt ht)
  have hcol : t % r.width < r.x1 - r.x0 := Nat.mod_lt t hwidth
  have hrow : t / r.width < r.y1 - r.y0 := Nat.div_lt_of_lt_mul ht
  exact ⟨⟨Nat.le_add_right .., Nat.add_lt_of_lt_sub' hcol⟩, Nat.le_add_right .., Nat.add_lt_of_lt_sub' hrow⟩

theorem Rect.pixel_injective (r : Rect) : Function.Injective r.pixel := by
  intro t t' h
  obtain ⟨hcol, hrow⟩ := Prod.mk.inj h
  rw [← Nat.div_add_mod t r.width, ← Nat.div_add_mod t' r.width, Nat.add_left_cancel hrow, Nat.add_left_cancel hcol]

/-- The block of a pixel is found by dividing its place by the block edge. -/
theorem blockRect_pixel_div {w h b : Nat} {g : Nat × Nat} {t : Nat} (ht : t < (blockRect w h b g).count) :
    (((blockRect w h b g).pixel t).2 / b, ((blockRect w h b g).pixel t).1 / b) = g := by
  obtain ⟨⟨hx0, hx1⟩, hy0, hy1⟩ := Rect.pixel_mem ht
  exact Prod.ext (Nat.div_eq_of_lt_le hy0 (lt_of_lt_of_le hy1 (min_le_left _ _)))
    (Nat.div_eq_of_lt_le hx0 (lt_of_lt_of_le hx1 (min_le_left _ _)))

theorem blockRect_pixel_lt {w h b : Nat} {g : Nat × Nat} {t : Nat} (ht : t < (blockRect w h b g).count) :
    ((blockRect w h b g).pixel t).1 < w ∧ ((blockRect w h b g).pixel t).2 < h := by
  obtain ⟨⟨-, hx1⟩, -, hy1⟩ := Rect.pixel_mem ht
  exact ⟨lt_of_lt_of_le hx1 (min_le_right _ _), lt_of_lt_of_le hy1 (min_le_right _ _)⟩

/-- R264: no pixel belongs to two blocks. -/
theorem blockRect_pixel_inj {w h b : Nat} {g g' : Nat × Nat} {t t' : Nat} (ht : t < (blockRect w h b g).count)
    (ht' : t' < (blockRect w h b g').count) (h' : (blockRect w h b g).pixel t = (blockRect w h b g').pixel t') :
    g = g' ∧ t = t' := by
  obtain rfl : g = g' := by rw [← blockRect_pixel_div ht, h', blockRect_pixel_div ht']
  exact ⟨rfl, Rect.pixel_injective _ h'⟩

/-! ### Pixels in an image (00_scope.md R15) -/

theorem pixelOffset_inj {w : Nat} {p q : Nat × Nat} (hp : p.1 < w) (hq : q.1 < w) (h : pixelOffset w p = pixelOffset w q) :
    p = q := by
  have hindex : p.1 + w * p.2 = q.1 + w * q.2 := by
    simp only [pixelOffset, Nat.mul_comm _ w] at h
    omega
  have hcol := congrArg (· % w) hindex
  have hrow := congrArg (· / w) hindex
  simp only [Nat.add_mul_mod_self_left, Nat.mod_eq_of_lt hp, Nat.mod_eq_of_lt hq] at hcol
  simp only [Nat.add_mul_div_left _ _ (Nat.zero_lt_of_lt hp), Nat.div_eq_of_lt hp, Nat.div_eq_of_lt hq,
    Nat.zero_add] at hrow
  exact Prod.ext hcol hrow

/-- The three bytes of a pixel lie inside the image. -/
theorem pixelOffset_lt {w h : Nat} {p : Nat × Nat} (hx : p.1 < w) (hy : p.2 < h) : pixelOffset w p + 2 < 3 * w * h := by
  have hrows : (p.2 + 1) * w ≤ h * w := Nat.mul_le_mul_right w hy
  rw [pixelOffset, Nat.mul_assoc, Nat.mul_comm w h]
  rw [Nat.add_mul] at hrows
  omega

theorem rgbAt_setRgb_same {img : List Byte} {o : Nat} (h : o + 2 < img.length) (c : Rgb) : rgbAt (setRgb img o c) o = c := by
  have h0 : o < img.length := by omega
  have h1 : o + 1 < img.length := by omega
  simp [rgbAt, setRgb, h, h0, h1]

theorem setRgb_getD_of_apart {img : List Byte} {o k : Nat} (h : k < o ∨ o + 2 < k) (c : Rgb) :
    (setRgb img o c).getD k 0 = img.getD k 0 := by
  have h0 : o ≠ k := by omega
  have h1 : o + 1 ≠ k := by omega
  have h2 : o + 2 ≠ k := by omega
  simp only [setRgb, List.getD_eq_getElem?_getD, List.getElem?_set_ne h2, List.getElem?_set_ne h1, List.getElem?_set_ne h0]

theorem rgbAt_setRgb_of_ne {w : Nat} {p q : Nat × Nat} (h : pixelOffset w p ≠ pixelOffset w q) (img : List Byte) (c : Rgb) :
    rgbAt (setRgb img (pixelOffset w q) c) (pixelOffset w p) = rgbAt img (pixelOffset w p) := by
  have hapart : pixelOffset w q + 2 < pixelOffset w p ∨ pixelOffset w p + 2 < pixelOffset w q := by
    unfold pixelOffset at h ⊢
    omega
  rw [rgbAt, setRgb_getD_of_apart (by omega), setRgb_getD_of_apart (by omega), setRgb_getD_of_apart (by omega), rgbAt]

theorem blockPixels_getElem (img : List Byte) (w : Nat) (r : Rect) {t : Nat} (ht : t < (blockPixels img w r).length) :
    (blockPixels img w r)[t] = rgbAt img (pixelOffset w (r.pixel t)) := by
  simp [blockPixels]

/-! ### The records of a quantized payload (R258, R267) -/

theorem quantize_length (img : List Byte) (w h : Nat) :
    (quantize img w h).length = ((grid w h Config.qblock).map fun g => (blockRect w h Config.qblock g).recordLen).sum := by
  rw [quantize, List.length_flatMap]
  exact congrArg List.sum (List.map_congr_left fun g _ => quantBlock_record_length img w h g)

/-- A block that is not clipped has a record of 38 bytes. -/
theorem recordLen_of_multiples {w h : Nat} (hw : w % 16 = 0) (hh : h % 16 = 0) {g : Nat × Nat} (hg : g ∈ grid w h 16) :
    (blockRect w h 16 g).recordLen = 38 := by
  obtain ⟨hrow, hcol⟩ := mem_grid.1 hg
  rw [lt_ceilDiv (by decide)] at hrow hcol
  have hwidth : (blockRect w h 16 g).width = 16 := by simp only [Rect.width, blockRect]; omega
  have hheight : (blockRect w h 16 g).height = 16 := by simp only [Rect.height, blockRect]; omega
  rw [Rect.recordLen, Rect.count, hwidth, hheight, ceilDiv]

theorem ceilDiv_of_multiple {a b : Nat} (hb : 0 < b) (h : a % b = 0) : ceilDiv a b = a / b := by
  obtain ⟨k, rfl⟩ := Nat.dvd_of_mod_eq_zero h
  rw [ceilDiv, Nat.add_sub_assoc hb, Nat.mul_add_div hb, Nat.div_eq_of_lt (Nat.sub_lt hb Nat.one_pos),
    Nat.mul_div_cancel_left k hb, Nat.add_zero]

end Sys2Proof.Machine

/-! The statement about the quantized payload. -/

namespace Sys2Proof

open Sys2Proof.Machine

/-- Settles O46: each record is six triple bytes and its mask, and an unclipped one has 38 bytes. -/
theorem quantizedLength : Obligations.QuantizedLength := by
  refine fun img w h => ⟨rfl, quantize_length img w h, fun hw hh => ?_⟩
  have hrecords : ∀ n ∈ (grid w h 16).map fun g => (blockRect w h 16 g).recordLen, n = 38 := by
    intro n hn
    obtain ⟨g, hg, rfl⟩ := List.mem_map.1 hn
    exact recordLen_of_multiples hw hh hg
  rw [quantize_length, List.sum_eq_card_nsmul _ 38 hrecords, List.length_map, length_grid, smul_eq_mul,
    ceilDiv_of_multiple (by decide) hw, ceilDiv_of_multiple (by decide) hh, Nat.mul_comm (h / 16)]

end Sys2Proof
end

section
/-! PROOFS. The reconstructor (43_block.md section 3): the image its records leave (R261, R262), its errors (R263), the round
trip of the payload (R268) and the second pass (R269). -/

namespace Sys2Proof.Machine

/-! ### Colouring the pixels of a list of places -/

/-- The image after colouring the pixel at `place t` with `colour t`, for `t` below `n` in turn. -/
def colourPixels (w n : Nat) (place : Nat → Nat × Nat) (colour : Nat → Rgb) (img : List Byte) : List Byte :=
  (List.range n).foldl (fun img t => setRgb img (pixelOffset w (place t)) (colour t)) img

theorem colourPixels_succ (w n : Nat) (place : Nat → Nat × Nat) (colour : Nat → Rgb) (img : List Byte) :
    colourPixels w (n + 1) place colour img =
      setRgb (colourPixels w n place colour img) (pixelOffset w (place n)) (colour n) := by
  rw [colourPixels, List.range_succ, List.foldl_append, List.foldl_cons, List.foldl_nil, colourPixels]

theorem colourPixels_length (w n : Nat) (place : Nat → Nat × Nat) (colour : Nat → Rgb) (img : List Byte) :
    (colourPixels w n place colour img).length = img.length := by
  induction n with
  | zero => rfl
  | succ n ih => rw [colourPixels_succ, setRgb_length, ih]

/-- A pixel that is none of the places keeps its colour. -/
theorem colourPixels_rgbAt_elsewhere {w n : Nat} {place : Nat → Nat × Nat} {p : Nat × Nat}
    (h : ∀ t, t < n → pixelOffset w p ≠ pixelOffset w (place t)) (colour : Nat → Rgb) (img : List Byte) :
    rgbAt (colourPixels w n place colour img) (pixelOffset w p) = rgbAt img (pixelOffset w p) := by
  induction n with
  | zero => rfl
  | succ n ih =>
    have hn := n.lt_succ_self
    rw [colourPixels_succ, rgbAt_setRgb_of_ne (h n hn), ih fun t ht => h t (ht.trans hn)]

/-- Distinct places inside the image get their colours. -/
theorem colourPixels_rgbAt_place {w n : Nat} {place : Nat → Nat × Nat} {img : List Byte}
    (hinj : ∀ t t', t < n → t' < n → pixelOffset w (place t) = pixelOffset w (place t') → t = t')
    (hin : ∀ t, t < n → pixelOffset w (place t) + 2 < img.length) (colour : Nat → Rgb) {t : Nat} (ht : t < n) :
    rgbAt (colourPixels w n place colour img) (pixelOffset w (place t)) = colour t := by
  induction n with
  | zero => exact absurd ht (Nat.not_lt_zero t)
  | succ n ih =>
    have hn := n.lt_succ_self
    rw [colourPixels_succ]
    rcases Nat.lt_succ_iff_lt_or_eq.1 ht with hlt | rfl
    · rw [rgbAt_setRgb_of_ne fun heq => hlt.ne (hinj t n ht hn heq)]
      exact ih (fun i j hi hj => hinj i j (hi.trans hn) (hj.trans hn)) (fun i hi => hin i (hi.trans hn)) hlt
    · exact rgbAt_setRgb_same (by rw [colourPixels_length]; exact hin t ht) _

/-! ### One record (R262) -/

/-- The colour a record of a block of `pc` pixels gives to pixel `t`. -/
def recordColour (r : List Byte) (pc t : Nat) : Rgb :=
  if (recordMask r pc).getD t false then recordHi r else recordLo r

theorem decodeRecord_eq_colourPixels (r : List Byte) (w : Nat) (rect : Rect) (img : List Byte) :
    decodeRecord r w rect img = colourPixels w rect.count rect.pixel (recordColour r rect.count) img := rfl

theorem decodeRecord_rgbAt_own {w h b : Nat} {g : Nat × Nat} {img : List Byte} (hlen : img.length = 3 * w * h)
    (r : List Byte) {t : Nat} (ht : t < (blockRect w h b g).count) :
    rgbAt (decodeRecord r w (blockRect w h b g) img) (pixelOffset w ((blockRect w h b g).pixel t)) =
      recordColour r (blockRect w h b g).count t := by
  rw [decodeRecord_eq_colourPixels]
  refine colourPixels_rgbAt_place (fun i j hi hj heq => ?_) (fun i hi => ?_) _ ht
  · exact Rect.pixel_injective _ (pixelOffset_inj (blockRect_pixel_lt hi).1 (blockRect_pixel_lt hj).1 heq)
  · rw [hlen]
    exact pixelOffset_lt (blockRect_pixel_lt hi).1 (blockRect_pixel_lt hi).2

theorem decodeRecord_rgbAt_other {w h b : Nat} {g g' : Nat × Nat} (hne : g ≠ g') (r img : List Byte) {t : Nat}
    (ht : t < (blockRect w h b g).count) :
    rgbAt (decodeRecord r w (blockRect w h b g') img) (pixelOffset w ((blockRect w h b g).pixel t)) =
      rgbAt img (pixelOffset w ((blockRect w h b g).pixel t)) := by
  rw [decodeRecord_eq_colourPixels]
  refine colourPixels_rgbAt_elsewhere (fun i hi heq => hne ?_) _ _
  exact (blockRect_pixel_inj ht hi (pixelOffset_inj (blockRect_pixel_lt ht).1 (blockRect_pixel_lt hi).1 heq)).1

/-! ### The records of many blocks (R261) -/

/-- The image after the records of a list of blocks, each block with its record. -/
def decodeRecords (w h b : Nat) (jobs : List ((Nat × Nat) × List Byte)) (img : List Byte) : List Byte :=
  jobs.foldl (fun img job => decodeRecord job.2 w (blockRect w h b job.1) img) img

theorem decodeRecords_cons (w h b : Nat) (job : (Nat × Nat) × List Byte) (jobs : List ((Nat × Nat) × List Byte))
    (img : List Byte) : decodeRecords w h b (job :: jobs) img =
      decodeRecords w h b jobs (decodeRecord job.2 w (blockRect w h b job.1) img) := rfl

theorem decodeRecords_rgbAt_other {w h b : Nat} {g : Nat × Nat} {jobs : List ((Nat × Nat) × List Byte)}
    (hg : g ∉ jobs.map Prod.fst) (img : List Byte) {t : Nat} (ht : t < (blockRect w h b g).count) :
    rgbAt (decodeRecords w h b jobs img) (pixelOffset w ((blockRect w h b g).pixel t)) =
      rgbAt img (pixelOffset w ((blockRect w h b g).pixel t)) := by
  induction jobs generalizing img with
  | nil => rfl
  | cons job jobs ih =>
    rw [List.map_cons, List.mem_cons, not_or] at hg
    rw [decodeRecords_cons, ih hg.2, decodeRecord_rgbAt_other hg.1 _ _ ht]

/-- R262, R264: after all records every block still has the colours of its own. -/
theorem decodeRecords_rgbAt {w h b : Nat} {jobs : List ((Nat × Nat) × List Byte)} (hnd : (jobs.map Prod.fst).Nodup)
    {img : List Byte} (hlen : img.length = 3 * w * h) {job : (Nat × Nat) × List Byte} (hjob : job ∈ jobs) {t : Nat}
    (ht : t < (blockRect w h b job.1).count) :
    rgbAt (decodeRecords w h b jobs img) (pixelOffset w ((blockRect w h b job.1).pixel t)) =
      recordColour job.2 (blockRect w h b job.1).count t := by
  induction jobs generalizing img with
  | nil => exact absurd hjob List.not_mem_nil
  | cons first jobs ih =>
    obtain ⟨hfirst, hrest⟩ := List.nodup_cons.1 hnd
    rw [decodeRecords_cons]
    rcases List.mem_cons.1 hjob with rfl | hmem
    · rw [decodeRecords_rgbAt_other hfirst _ ht, decodeRecord_rgbAt_own hlen _ ht]
    · exact ih hrest ((decodeRecord_length ..).trans hlen) hmem

/-! ### The loop over the blocks (R261, R263) -/

theorem Recon.loop_short {w h b : Nat} {g : Nat × Nat} {p : List Byte} (hp : p.length < (blockRect w h b g).recordLen)
    (gs : List (Nat × Nat)) (rc : Recon) : Recon.loop w h b (g :: gs) p rc = (rc, some .truncatedStream) := if_pos hp

theorem Recon.loop_fits {w h b : Nat} {g : Nat × Nat} {p : List Byte} (hp : (blockRect w h b g).recordLen ≤ p.length)
    (gs : List (Nat × Nat)) (rc : Recon) : Recon.loop w h b (g :: gs) p rc =
      Recon.loop w h b gs (p.drop (blockRect w h b g).recordLen)
        { img := decodeRecord (p.take (blockRect w h b g).recordLen) w (blockRect w h b g) rc.img
          block := rc.block.afterRecord (p.take (blockRect w h b g).recordLen) (blockRect w h b g).count } :=
  if_neg (Nat.not_lt.2 hp)

/-- How a payload of `got` bytes ends the loop over records of `need` bytes together (R263). -/
def payloadError (got need : Nat) : Option ErrorKind :=
  if got < need then some .truncatedStream else if need < got then some .trailingData else none

theorem payloadError_of_lt {got need : Nat} (h : got < need) : payloadError got need = some .truncatedStream := if_pos h

theorem payloadError_of_gt {got need : Nat} (h : need < got) : payloadError got need = some .trailingData := by
  rw [payloadError, if_neg h.asymm, if_pos h]

theorem payloadError_self (n : Nat) : payloadError n n = none := by
  rw [payloadError, if_neg (lt_irrefl n), if_neg (lt_irrefl n)]

theorem payloadError_sub {got need first : Nat} (h : first ≤ got) :
    payloadError (got - first) need = payloadError got (first + need) := by
  simp only [payloadError, Nat.sub_lt_iff_lt_add h, Nat.lt_sub_iff_add_lt, Nat.add_comm need first]

theorem Recon.loop_error (w h b : Nat) (gs : List (Nat × Nat)) (p : List Byte) (rc : Recon) :
    (Recon.loop w h b gs p rc).2 = payloadError p.length ((gs.map fun g => (blockRect w h b g).recordLen).sum) := by
  induction gs generalizing p rc with
  | nil =>
    cases p with
    | nil => rfl
    | cons x p => exact (payloadError_of_gt (Nat.succ_pos _)).symm
  | cons g gs ih =>
    rw [List.map_cons, List.sum_cons]
    rcases Nat.lt_or_ge p.length (blockRect w h b g).recordLen with hlt | hge
    · rw [Recon.loop_short hlt, payloadError_of_lt (Nat.lt_add_right _ hlt)]
    · rw [Recon.loop_fits hge, ih, List.length_drop, payloadError_sub hge]

theorem Recon.loop_img_length (w h b : Nat) (gs : List (Nat × Nat)) (p : List Byte) (rc : Recon) :
    (Recon.loop w h b gs p rc).1.img.length = rc.img.length := by
  induction gs generalizing p rc with
  | nil => cases p <;> rfl
  | cons g gs ih =>
    rcases Nat.lt_or_ge p.length (blockRect w h b g).recordLen with hlt | hge
    · rw [Recon.loop_short hlt]
    · rw [Recon.loop_fits hge, ih, decodeRecord_length]

/-- Records of the right lengths are taken one by one. -/
theorem Recon.loop_records {w h b : Nat} {jobs : List ((Nat × Nat) × List Byte)}
    (hlen : ∀ job ∈ jobs, job.2.length = (blockRect w h b job.1).recordLen) (rc : Recon) :
    (Recon.loop w h b (jobs.map Prod.fst) (jobs.flatMap Prod.snd) rc).1.img = decodeRecords w h b jobs rc.img := by
  induction jobs generalizing rc with
  | nil => rfl
  | cons job jobs ih =>
    obtain ⟨hjob, hjobs⟩ := List.forall_mem_cons.1 hlen
    have hfits : (blockRect w h b job.1).recordLen ≤ (job.2 ++ jobs.flatMap Prod.snd).length := by
      rw [List.length_append, hjob]
      exact Nat.le_add_right ..
    rw [List.map_cons, List.flatMap_cons, Recon.loop_fits hfits, ← hjob, List.drop_left, List.take_left, ih hjobs,
      decodeRecords_cons]

theorem Recon.run_of_edge {b : Nat} (hb : b ≠ 0) (p : List Byte) (w h : Nat) : Recon.run p w h b =
    Recon.loop w h b (grid w h b) p { img := List.replicate (3 * w * h) 0, block := BlockWork.initial } := if_neg hb

theorem reconstruct_of_error {p : List Byte} {w h b : Nat} {k : ErrorKind} (he : (Recon.run p w h b).2 = some k) :
    reconstruct p w h b = .error k := by
  unfold reconstruct Recon.result
  split
  · next heq => rw [heq] at he; exact congrArg _ (Option.some.inj he)
  · next heq => rw [heq] at he; cases he

theorem reconstruct_of_no_error {p : List Byte} {w h b : Nat} (he : (Recon.run p w h b).2 = none) :
    reconstruct p w h b = .ok (Recon.run p w h b).1.img := by
  unfold reconstruct Recon.result
  split
  · next heq => rw [heq] at he; cases he
  · next heq => rw [heq]

/-- The whole payload decides how a reconstruction ends (R263). -/
theorem Recon.run_error {b : Nat} (hb : b ≠ 0) (p : List Byte) (w h : Nat) : (Recon.run p w h b).2 =
    payloadError p.length ((grid w h b).map fun g => (blockRect w h b g).recordLen).sum := by
  rw [Recon.run_of_edge hb, Recon.loop_error]

theorem Recon.run_img_length {b : Nat} (hb : b ≠ 0) (p : List Byte) (w h : Nat) :
    (Recon.run p w h b).1.img.length = 3 * w * h := by
  rw [Recon.run_of_edge hb, Recon.loop_img_length, List.length_replicate]

/-! ### The round trip of the payload (R268) -/

/-- The colours a block's values stand for: pixel by pixel hi where the mask bit is 1, else lo. -/
def BlockWork.colours (b : BlockWork) : List Rgb := b.mask.map fun bit => if bit then b.hi else b.lo

theorem BlockWork.colours_getElem (b : BlockWork) {t : Nat} (ht : t < b.colours.length) :
    b.colours[t] = if b.mask.getD t false then b.hi else b.lo := by
  have hmask : t < b.mask.length := by rwa [BlockWork.colours, List.length_map] at ht
  rw [List.getD_eq_getElem _ _ hmask]
  exact List.getElem_map _

/-- The reconstructor reads a record's triples and mask as they were written. -/
theorem recordColour_record (b : BlockWork) (t : Nat) :
    recordColour b.record b.mask.length t = if b.mask.getD t false then b.hi else b.lo := by
  have hmask : recordMask b.record b.mask.length = b.mask := unpack_pack b.mask
  rw [recordColour, hmask]
  rfl

theorem quantBlock_mask_length (img : List Byte) (w h : Nat) (g : Nat × Nat) :
    (quantBlock img w h g).mask.length = (blockRect w h 16 g).count :=
  (blockMask_length _).trans (blockPixels_length ..)

/-- The blocks of an image, each with the record the quantizer writes for it. -/
def quantJobs (img : List Byte) (w h : Nat) : List ((Nat × Nat) × List Byte) :=
  (grid w h 16).map fun g => (g, (quantBlock img w h g).record)

theorem quantJobs_blocks (img : List Byte) (w h : Nat) : (quantJobs img w h).map Prod.fst = grid w h 16 := by
  rw [quantJobs, List.map_map]
  exact List.map_id _

theorem quantJobs_payload (img : List Byte) (w h : Nat) : (quantJobs img w h).flatMap Prod.snd = quantize img w h := by
  rw [quantJobs, List.flatMap_map]
  rfl

theorem quantJobs_recordLen {img : List Byte} {w h : Nat} {job : (Nat × Nat) × List Byte} (hjob : job ∈ quantJobs img w h) :
    job.2.length = (blockRect w h 16 job.1).recordLen := by
  obtain ⟨g, -, rfl⟩ := List.mem_map.1 hjob
  exact quantBlock_record_length img w h g

theorem Recon.run_quantize_img (img : List Byte) (w h : Nat) : (Recon.run (quantize img w h) w h 16).1.img =
    decodeRecords w h 16 (quantJobs img w h) (List.replicate (3 * w * h) 0) := by
  rw [Recon.run_of_edge (by decide), ← quantJobs_blocks img, ← quantJobs_payload]
  exact Recon.loop_records (fun _ => quantJobs_recordLen) _

theorem Recon.run_quantize_error (img : List Byte) (w h : Nat) : (Recon.run (quantize img w h) w h 16).2 = none := by
  rw [Recon.run_error (by decide), quantize_length]
  exact payloadError_self _

/-- The quantizer's payload reconstructs to its blocks' colours. -/
theorem reconstruct_quantize (img : List Byte) (w h : Nat) : ∃ out, reconstruct (quantize img w h) w h 16 = .ok out ∧
    ∀ g ∈ grid w h 16, blockPixels out w (blockRect w h 16 g) = (quantBlock img w h g).colours := by
  refine ⟨_, reconstruct_of_no_error (Recon.run_quantize_error img w h), fun g hg => ?_⟩
  have hnd : ((quantJobs img w h).map Prod.fst).Nodup := (quantJobs_blocks img w h).symm ▸ grid_nodup w h 16
  have hjob : (g, (quantBlock img w h g).record) ∈ quantJobs img w h := List.mem_map.2 ⟨g, hg, rfl⟩
  refine List.ext_getElem ?_ fun t ht ht' => ?_
  · rw [blockPixels_length, BlockWork.colours, List.length_map, quantBlock_mask_length]
  · rw [blockPixels_length] at ht
    rw [blockPixels_getElem, BlockWork.colours_getElem, Recon.run_quantize_img,
      decodeRecords_rgbAt hnd List.length_replicate hjob ht, ← quantBlock_mask_length img]
    exact recordColour_record _ t

end Sys2Proof.Machine

/-! The statements about the reconstructor. -/

namespace Sys2Proof

open Sys2Proof.Machine

/-- Settles O47: B = 0 first, then the payload's length against that of the grid's records. -/
theorem reconstructorErrorsInOrder : Obligations.ReconstructorErrorsInOrder := by
  intro p w h b
  refine ⟨fun hb => ?_, fun hb hlen => ?_, fun hb hlen => ?_, fun hb hlen => ?_⟩
  · subst hb
    rfl
  · exact reconstruct_of_error ((Recon.run_error hb p w h).trans (payloadError_of_lt hlen))
  · exact reconstruct_of_error ((Recon.run_error hb p w h).trans (payloadError_of_gt hlen))
  · refine ⟨_, reconstruct_of_no_error ?_, Recon.run_img_length hb p w h⟩
    rw [Recon.run_error hb, hlen]
    exact payloadError_self _

/-- Settles O49: each block is reconstructed from its own record, and a block of one colour has that colour twice. -/
theorem payloadRoundTrip : Obligations.PayloadRoundTrip := by
  intro img w h
  obtain ⟨out, hok, hblocks⟩ := reconstruct_quantize img w h
  refine ⟨out, hok, fun g hg t ht => ?_⟩
  have hpixel : rgbAt out (pixelOffset w ((blockRect w h 16 g).pixel t)) =
      if (quantBlock img w h g).mask.getD t false then (quantBlock img w h g).hi else (quantBlock img w h g).lo := by
    have hlen : t < (blockPixels out w (blockRect w h 16 g)).length := (blockPixels_length ..).symm ▸ ht
    rw [← blockPixels_getElem out w _ hlen, ← BlockWork.colours_getElem]
    exact List.getElem_of_eq (hblocks g hg) hlen
  refine ⟨hpixel, fun c hc => ?_⟩
  have hne : blockPixels img w (blockRect w h 16 g) ≠ [] :=
    List.ne_nil_of_length_pos ((blockPixels_length ..).symm ▸ Nat.zero_lt_of_lt ht)
  obtain ⟨hlo, hhi, -⟩ := analyseBlock_of_one_colour hne hc
  rw [hpixel]
  split
  · exact hhi
  · exact hlo

end Sys2Proof
end

section
/-! PROOFS. The second lossy pass (43_block.md R269): a block of two levels is kept when its groups have one colour each, and
becomes one colour when the levels have one luma. -/

namespace Sys2Proof.Machine

theorem analyseBlock_colours (px : List Rgb) : (analyseBlock px).colours =
    px.map fun p => if reachesMean px p then (analyseBlock px).hi else (analyseBlock px).lo :=
  List.map_map

/-- Two levels that are not equal both occur in the block. -/
theorem exists_low_of_hi_ne_lo {px : List Rgb} (h : (analyseBlock px).hi ≠ (analyseBlock px).lo) :
    ∃ p ∈ px, reachesMean px p = false := by
  have hlow : maskedPixels px false ≠ [] := fun hempty =>
    h (analyseBlock_of_equal_luma ((maskedPixels_false_eq_nil_iff px).1 hempty)).1.symm
  obtain ⟨p, hp⟩ := List.exists_mem_of_ne_nil _ hlow
  exact ⟨p, mem_maskedPixels.1 hp⟩

theorem hi_mem_colours {px : List Rgb} (hne : px ≠ []) : (analyseBlock px).hi ∈ (analyseBlock px).colours := by
  obtain ⟨p, hp, hmean⟩ := exists_reachesMean hne
  rw [analyseBlock_colours]
  exact List.mem_map.2 ⟨p, hp, if_pos hmean⟩

theorem lo_mem_colours {px : List Rgb} (h : (analyseBlock px).hi ≠ (analyseBlock px).lo) :
    (analyseBlock px).lo ∈ (analyseBlock px).colours := by
  obtain ⟨p, hp, hlow⟩ := exists_low_of_hi_ne_lo h
  rw [analyseBlock_colours]
  exact List.mem_map.2 ⟨p, hp, by simp [hlow]⟩

theorem eq_hi_or_eq_lo_of_mem_colours {b : BlockWork} {p : Rgb} (hp : p ∈ b.colours) : p = b.hi ∨ p = b.lo := by
  obtain ⟨bit, -, rfl⟩ := List.mem_map.1 hp
  cases bit
  · exact Or.inr rfl
  · exact Or.inl rfl

/-- A block whose groups have one colour each is quantized to itself. -/
theorem colours_eq_self {px : List Rgb} (h : ∀ p ∈ px, ∀ q ∈ px, reachesMean px p = reachesMean px q → p = q) :
    (analyseBlock px).colours = px := by
  rw [analyseBlock_colours]
  refine (List.map_congr_left fun p hp => ?_).trans (List.map_id px)
  cases hbit : reachesMean px p
  · exact analyseBlock_lo_of_constant hp hbit fun q hq hq' => h q hq p hp (hq'.trans hbit.symm)
  · exact analyseBlock_hi_of_constant (List.ne_nil_of_mem hp) fun q hq hq' => h q hq p hp (hq'.trans hbit.symm)

/-- Of two colours only, one in each group unless they have one luma: else the mask would be constant. -/
theorem luma_eq_of_same_group {px : List Rgb} {c d : Rgb} (hpx : ∀ p ∈ px, p = c ∨ p = d) (hc : c ∈ px) (hd : d ∈ px)
    (hbit : reachesMean px c = reachesMean px d) : luma c = luma d := by
  refine luma_eq_of_constant_mask (bit := reachesMean px d) (fun p hp => ?_) hc hd
  rcases hpx p hp with rfl | rfl
  · exact hbit
  · rfl

theorem colours_eq_self_of_two_colours {px : List Rgb} {c d : Rgb} (hpx : ∀ p ∈ px, p = c ∨ p = d)
    (hluma : luma c = luma d → c = d) : (analyseBlock px).colours = px := by
  have hsame (hc : c ∈ px) (hd : d ∈ px) (hbit : reachesMean px c = reachesMean px d) : c = d :=
    hluma (luma_eq_of_same_group hpx hc hd hbit)
  refine colours_eq_self fun p hp q hq hbit => ?_
  rcases hpx p hp with rfl | rfl <;> rcases hpx q hq with rfl | rfl
  · rfl
  · exact hsame hp hq hbit
  · exact (hsame hq hp hbit.symm).symm
  · rfl

/-- A block of one luma becomes one colour. -/
theorem eq_hi_of_mem_colours_of_equal_luma {px : List Rgb} (h : ∀ p ∈ px, ∀ q ∈ px, luma p = luma q) {p : Rgb}
    (hp : p ∈ (analyseBlock px).colours) : p = (analyseBlock px).hi :=
  (eq_hi_or_eq_lo_of_mem_colours hp).elim id fun hlo =>
    hlo.trans (analyseBlock_of_equal_luma h).1

/-! ### The second pass over one block (R269) -/

theorem secondPass_keeps {px : List Rgb}
    (h : (analyseBlock px).hi = (analyseBlock px).lo ∨ luma (analyseBlock px).hi ≠ luma (analyseBlock px).lo) :
    (analyseBlock (analyseBlock px).colours).colours = (analyseBlock px).colours :=
  colours_eq_self_of_two_colours (fun _ => eq_hi_or_eq_lo_of_mem_colours) fun hluma => h.resolve_right (not_not_intro hluma)

theorem equal_luma_of_tie {b : BlockWork} (htie : luma b.hi = luma b.lo) :
    ∀ p ∈ b.colours, ∀ q ∈ b.colours, luma p = luma q := by
  have hhi : ∀ p ∈ b.colours, luma p = luma b.hi := by
    intro p hp
    rcases eq_hi_or_eq_lo_of_mem_colours hp with rfl | rfl
    · rfl
    · exact htie.symm
  exact fun p hp q hq => (hhi p hp).trans (hhi q hq).symm

theorem secondPass_differs {px : List Rgb} (hne : (analyseBlock px).hi ≠ (analyseBlock px).lo)
    (htie : luma (analyseBlock px).hi = luma (analyseBlock px).lo) :
    (analyseBlock (analyseBlock px).colours).colours ≠ (analyseBlock px).colours := by
  intro hsame
  have hone : ∀ p ∈ (analyseBlock px).colours, p = (analyseBlock (analyseBlock px).colours).hi := fun p hp =>
    eq_hi_of_mem_colours_of_equal_luma (equal_luma_of_tie htie) (by rwa [hsame])
  obtain ⟨p, hp, -⟩ := exists_low_of_hi_ne_lo hne
  exact hne ((hone _ (hi_mem_colours (List.ne_nil_of_mem hp))).trans (hone _ (lo_mem_colours hne)).symm)

end Sys2Proof.Machine

/-! The statement about the second pass. -/

namespace Sys2Proof

open Sys2Proof.Machine

/-- Settles O50: the second pass quantizes, block by block, the colours the first one left. -/
theorem secondPassDiffersOnlyOnLumaTies : Obligations.SecondPassDiffersOnlyOnLumaTies := by
  refine ⟨fun img w h => ?_, by decide +kernel⟩
  obtain ⟨r1, hok1, hblocks1⟩ := reconstruct_quantize img w h
  obtain ⟨r2, hok2, hblocks2⟩ := reconstruct_quantize r1 w h
  refine ⟨r1, r2, hok1, hok2, fun g hg => ?_⟩
  have hfirst := hblocks1 g hg
  have hsecond := hblocks2 g hg
  have hquant : quantBlock r1 w h g = analyseBlock (quantBlock img w h g).colours := congrArg analyseBlock hfirst
  have hcount : (quantBlock img w h g).colours.length = (blockRect w h 16 g).count := by
    rw [← hfirst, blockPixels_length]
  rw [hsecond, hfirst, hquant, ← hcount]
  refine ⟨secondPass_keeps, fun hne htie => ⟨?_, fun p hp => ?_, secondPass_differs hne htie⟩⟩
  · exact blockMask_of_equal_luma (equal_luma_of_tie htie)
  · rw [eq_hi_of_mem_colours_of_equal_luma (equal_luma_of_tie htie) hp]
    exact (analyseBlock_of_equal_luma (equal_luma_of_tie htie)).2

end Sys2Proof
end

section
/-! PROOFS. What a completion leaves of the bytes a command reads (44_container.md R303): nothing outside DST changes, and the
range check keeps DST apart from SRC and PAL (40_common.md R162). -/

namespace Sys2Proof.Machine

/-- A transform that ran changes bytes of DST only, whether it succeeds or fails late (R165, R166). -/
theorem State.finish_readByte_outside {s : State} (tr : Transform) {a : Nat} (h : s.dst.holds a = false) :
    (s.finish tr).mem.readByte a = s.mem.readByte a := by
  rcases s.finish_cases tr with ⟨k, -, hf⟩ | ⟨out, info, -, -, hf⟩ | ⟨out, info, -, hfit, hf⟩ <;> rw [hf]
  · exact State.scrambleDst_outside (s := s.note tr) h
  · exact State.scrambleDst_outside (s := s.note tr) h
  · have hout : ¬ (s.dstAddr.toNat ≤ a ∧ a < s.dstAddr.toNat + s.dstCap.toNat) := by
      rw [← Bool.not_eq_true, Range.holds_iff] at h
      exact h
    exact Memory.readByte_write_outside (by rw [State.note_dstAddr]; omega)

/-- When the range check passes, no byte a command reads lies in DST (R162). -/
theorem State.input_not_in_dst {s : State} {i : Instr} (hok : s.rangesOk i.usesPal = true) {r : Range}
    (hr : r ∈ s.inputs i.usesPal) {a : Nat} (ha : r.holds a = true) : s.dst.holds a = false := by
  obtain ⟨-, hapart⟩ := (s.rangesOk_iff_ranges i).1 hok
  rw [← Bool.not_eq_true]
  exact fun hdst => hapart r hr a ⟨hdst, ha⟩

end Sys2Proof.Machine

/-! The statement about the inputs. -/

namespace Sys2Proof

open Sys2Proof.Machine

/-- Settles O28: an early error writes nothing, and a transform that ran writes in DST, which the inputs do not meet. -/
theorem commandsNeverChangeTheirInputs : Obligations.CommandsNeverChangeTheirInputs := by
  rintro i s t a h ⟨r, hr, ha⟩
  obtain ⟨hbacked, ⟨k, -, rfl⟩ | ⟨hnone, rfl⟩⟩ := exec_next h
  · rfl
  · exact State.finish_readByte_outside _ (State.input_not_in_dst (State.ready_rangesOk ⟨hbacked, hnone⟩) hr ha)

end Sys2Proof
end

section
/-! PROOFS. The container (44_container.md): what the parts of a framed stream read back as (R290, R291), what the parser
answers mode by mode (R294 to R298), the length laws (R301) and the round trips (R302). -/

namespace Sys2Proof.Machine

/-! ### The framed streams (R290, R291) -/

theorem frameLossless_length (w h : Nat) (pal : List Byte) (codes : List Nat) :
    (frameLossless w h pal codes).length = 5 + pal.length + 2 * codes.length := by
  rw [frameLossless, List.length_append, List.length_append, codesToBytes_length]
  rfl

/-- A framed lossless stream has its whole header (R295). -/
theorem frameLossless_header_le (w h : Nat) {pal : List Byte} (hpal : pal.length = 768) (codes : List Nat) :
    773 ≤ (frameLossless w h pal codes).length := by
  rw [frameLossless_length, hpal]
  exact Nat.le_add_right ..

theorem frameLossy_length (w h : Nat) (payload : List Byte) : (frameLossy w h payload).length = 6 + payload.length := by
  rw [frameLossy, List.length_append]
  rfl

/-- The width stands in big-endian order behind the mode byte (30_encoding.md R121, R122). -/
theorem rd16_width {w : Nat} (hw : w ≤ 65535) (m : Byte) (xs : List Byte) : rd16 (m :: (be16 w ++ xs)) 1 = w :=
  (rd16_append_right [m] (be16 w ++ xs) 0).trans (rd16_be16 (Nat.lt_succ_of_le hw) xs)

/-- The height stands behind the width (R121, R122). -/
theorem rd16_height {h : Nat} (hh : h ≤ 65535) (m : Byte) (w : Nat) (xs : List Byte) :
    rd16 (m :: (be16 w ++ (be16 h ++ xs))) 3 = h :=
  (rd16_append_right (m :: be16 w) (be16 h ++ xs) 0).trans (rd16_be16 (Nat.lt_succ_of_le hh) xs)

theorem streamPalette_frameLossless (w h : Nat) {pal : List Byte} (hpal : pal.length = 768) (codes : List Nat) :
    streamPalette (frameLossless w h pal codes) = pal :=
  List.take_left' hpal

theorem drop_frameLossless (w h : Nat) {pal : List Byte} (hpal : pal.length = 768) (codes : List Nat) :
    (frameLossless w h pal codes).drop 773 = codesToBytes codes :=
  List.drop_left' (by simp [hpal])

/-! ### The parser, mode by mode (R294, R295, R297) -/

theorem decodeStream_lossless (r : List Byte) : decodeStream (0 :: r) = decodeLossless (0 :: r) := rfl

theorem decodeStream_lossy (r : List Byte) : decodeStream (4 :: r) = decodeLossy (4 :: r) := rfl

theorem decodeStream_unrecognized {m : Byte} (h0 : m ≠ 0) (h4 : m ≠ 4) (r : List Byte) :
    decodeStream (m :: r) = .error .unrecognizedMode :=
  (if_neg h0).trans (if_neg h4)

theorem decodeCodeStream_of_parse_error {bytes : List Byte} {k : ErrorKind} (h : parseCodes bytes = .error k) :
    decodeCodeStream bytes = .error k := by
  simp only [decodeCodeStream, h]

theorem decodeCodeStream_of_decode_error {bytes : List Byte} {ks : List Nat} {k : ErrorKind}
    (hparse : parseCodes bytes = .ok ks) (h : lzwDecode ks = .error k) : decodeCodeStream bytes = .error k := by
  simp only [decodeCodeStream, hparse, h]

theorem decodeLossless_short {s : List Byte} (h : s.length < 773) : decodeLossless s = .error .truncatedStream := if_pos h

theorem decodeLossless_of_bad_codes {s : List Byte} {k : ErrorKind} (hlen : 773 ≤ s.length)
    (h : decodeCodeStream (s.drop 773) = .error k) : decodeLossless s = .error k := by
  rw [decodeLossless, if_neg (Nat.not_lt.2 hlen), h]

theorem decodeLossless_of_wrong_count {s idx : List Byte} {n size : Nat} (hlen : 773 ≤ s.length)
    (h : decodeCodeStream (s.drop 773) = .ok (idx, n, size)) (hcount : idx.length ≠ rd16 s 1 * rd16 s 3) :
    decodeLossless s = .error .sizeMismatch := by
  rw [decodeLossless, if_neg (Nat.not_lt.2 hlen), h]
  exact if_pos hcount

theorem decodeLossless_of_indices {s idx : List Byte} {n size : Nat} (hlen : 773 ≤ s.length)
    (h : decodeCodeStream (s.drop 773) = .ok (idx, n, size)) (hcount : idx.length = rd16 s 1 * rd16 s 3) :
    decodeLossless s = .ok (recolor idx (streamPalette s),
      { outW := some (rd16 s 1), outH := some (rd16 s 3), codeCount := some n, dictSize := some size }) := by
  rw [decodeLossless, if_neg (Nat.not_lt.2 hlen), h]
  exact if_neg (not_not.2 hcount)

theorem decodeLossy_short {s : List Byte} (h : s.length < 6) : decodeLossy s = .error .truncatedStream := if_pos h

theorem decodeLossy_of_bad_payload {s : List Byte} {k : ErrorKind} (hlen : 6 ≤ s.length)
    (h : reconstruct (s.drop 6) (rd16 s 1) (rd16 s 3) (s.getD 5 0).toNat = .error k) : decodeLossy s = .error k := by
  rw [decodeLossy, if_neg (Nat.not_lt.2 hlen), h]

theorem decodeLossy_of_image {s rgb : List Byte} (hlen : 6 ≤ s.length)
    (h : reconstruct (s.drop 6) (rd16 s 1) (rd16 s 3) (s.getD 5 0).toNat = .ok rgb) :
    decodeLossy s = .ok (rgb, { outW := some (rd16 s 1), outH := some (rd16 s 3) }) := by
  rw [decodeLossy, if_neg (Nat.not_lt.2 hlen), h]

/-! ### The length of a decoded image (R296, R297) -/

theorem recolor_length (idx pal : List Byte) : (recolor idx pal).length = 3 * idx.length := by
  rw [recolor, List.length_flatMap]
  simp [Rgb.bytes, Nat.mul_comm]

theorem reconstruct_ok_length {p img : List Byte} {w h b : Nat} (hok : reconstruct p w h b = .ok img) :
    img.length = 3 * w * h := by
  by_cases hb : b = 0
  · subst hb
    cases hok
  · cases he : (Recon.run p w h b).2 with
    | some k => rw [reconstruct_of_error he] at hok; cases hok
    | none =>
      rw [reconstruct_of_no_error he] at hok
      cases hok
      exact Recon.run_img_length hb p w h

theorem decodeLossless_ok_length {s out : List Byte} {info : Info} (hok : decodeLossless s = .ok (out, info)) :
    out.length = 3 * rd16 s 1 * rd16 s 3 := by
  rcases Nat.lt_or_ge s.length 773 with hshort | hlen
  · rw [decodeLossless_short hshort] at hok
    cases hok
  cases hcodes : decodeCodeStream (s.drop 773) with
  | error k => rw [decodeLossless_of_bad_codes hlen hcodes] at hok; cases hok
  | ok r =>
    obtain ⟨idx, n, size⟩ := r
    by_cases hcount : idx.length = rd16 s 1 * rd16 s 3
    · rw [decodeLossless_of_indices hlen hcodes hcount] at hok
      cases hok
      rw [recolor_length, hcount, Nat.mul_assoc]
    · rw [decodeLossless_of_wrong_count hlen hcodes hcount] at hok
      cases hok

theorem decodeLossy_ok_length {s out : List Byte} {info : Info} (hok : decodeLossy s = .ok (out, info)) :
    out.length = 3 * rd16 s 1 * rd16 s 3 := by
  rcases Nat.lt_or_ge s.length 6 with hshort | hlen
  · rw [decodeLossy_short hshort] at hok
    cases hok
  cases himg : reconstruct (s.drop 6) (rd16 s 1) (rd16 s 3) (s.getD 5 0).toNat with
  | error k => rw [decodeLossy_of_bad_payload hlen himg] at hok; cases hok
  | ok rgb =>
    rw [decodeLossy_of_image hlen himg] at hok
    cases hok
    exact reconstruct_ok_length himg

/-- Whatever its mode, a decoded image has three bytes for each pixel of the stream's size. -/
theorem decodeStream_ok_length {s out : List Byte} {info : Info} (hok : decodeStream s = .ok (out, info)) :
    out.length = 3 * rd16 s 1 * rd16 s 3 := by
  cases s with
  | nil => cases hok
  | cons m r =>
    by_cases h0 : m = 0
    · subst h0
      exact decodeLossless_ok_length hok
    by_cases h4 : m = 4
    · subst h4
      exact decodeLossy_ok_length hok
    · rw [decodeStream_unrecognized h0 h4] at hok
      cases hok

/-! ### Reading a framed stream back (R302) -/

/-- A framed code stream that decodes to W · H indices is the recoloured image, with the sizes and counts it was framed with. -/
theorem decodeStream_frameLossless {w h : Nat} {pal idx : List Byte} {codes : List Nat} {n size : Nat} (hw : w ≤ 65535)
    (hh : h ≤ 65535) (hpal : pal.length = 768) (hcodes : decodeCodeStream (codesToBytes codes) = .ok (idx, n, size))
    (hcount : idx.length = w * h) : decodeStream (frameLossless w h pal codes) =
      .ok (recolor idx pal, { outW := some w, outH := some h, codeCount := some n, dictSize := some size }) := by
  have hwidth : rd16 (frameLossless w h pal codes) 1 = w := rd16_width hw _ _
  have hheight : rd16 (frameLossless w h pal codes) 3 = h := rd16_height hh _ w _
  rw [← drop_frameLossless w h hpal] at hcodes
  have hdecoded := decodeLossless_of_indices (frameLossless_header_le w h hpal codes) hcodes (by rw [hwidth, hheight, hcount])
  rwa [hwidth, hheight, streamPalette_frameLossless w h hpal] at hdecoded

/-- A framed code stream that does not decode ends in the decoder's error. -/
theorem decodeStream_frameLossless_of_bad_codes (w h : Nat) {pal : List Byte} {codes : List Nat} {k : ErrorKind}
    (hpal : pal.length = 768) (hcodes : decodeCodeStream (codesToBytes codes) = .error k) :
    decodeStream (frameLossless w h pal codes) = .error k := by
  rw [← drop_frameLossless w h hpal] at hcodes
  exact decodeLossless_of_bad_codes (frameLossless_header_le w h hpal codes) hcodes

/-- A framed payload that reconstructs with 16 × 16 blocks is its image, with the size it was framed with. -/
theorem decodeStream_frameLossy {w h : Nat} {payload rgb : List Byte} (hw : w ≤ 65535) (hh : h ≤ 65535)
    (hrgb : reconstruct payload w h 16 = .ok rgb) :
    decodeStream (frameLossy w h payload) = .ok (rgb, { outW := some w, outH := some h }) := by
  have hlen : 6 ≤ (frameLossy w h payload).length := frameLossy_length .. ▸ Nat.le_add_right ..
  have hwidth : rd16 (frameLossy w h payload) 1 = w := rd16_width hw _ _
  have hheight : rd16 (frameLossy w h payload) 3 = h := rd16_height hh _ w _
  have hdecoded := decodeLossy_of_image hlen (rgb := rgb) (by rw [hwidth, hheight]; exact hrgb)
  rwa [hwidth, hheight] at hdecoded

/-! ### The completion of a command without an error (R165) -/

/-- A command that completes without an error publishes a result that fits. -/
theorem exec_success {i : Instr} {s t : State} (h : exec i s = .next t) (herr : t.err = none) :
    ∃ out info, (i.transform s).result = .ok (out, info) ∧ out.length ≤ s.dstCap.toNat ∧
      t = (s.note (i.transform s)).succeed out info := by
  obtain ⟨-, ⟨k, -, rfl⟩ | ⟨-, rfl⟩⟩ := exec_next h
  · cases herr
  · obtain ⟨out, info, hok, hfit⟩ := State.finish_success herr
    exact ⟨out, info, hok, hfit, State.finish_ok hok hfit⟩

/-- A ready command whose result is longer than DST_CAP ends in OUTPUT_OVERFLOW. -/
theorem exec_overflow {i : Instr} {s : State} {out : List Byte} {info : Info} (hready : s.ready i)
    (hok : (i.transform s).result = .ok (out, info)) (hlong : s.dstCap.toNat < out.length) :
    ∃ t, exec i s = .next t ∧ t.err = some .outputOverflow :=
  ⟨_, exec_ready hready, by rw [State.finish_overflow hok hlong]; rfl⟩

end Sys2Proof.Machine

/-! The statements about containers. -/

namespace Sys2Proof

open Sys2Proof.Machine

/-- Settles O60: the framed header and body read back, and each body has its own round trip (O39, O49). -/
theorem containerRoundTrips : Obligations.ContainerRoundTrips := by
  refine ⟨fun w h idx pal hw hh hidx hpal => ⟨fun hpos => ?_, fun hzero => ?_⟩, fun w h img hw hh => ?_⟩
  · have hne : idx ≠ [] := List.ne_nil_of_length_pos (hidx ▸ hpos)
    exact decodeStream_frameLossless hw hh hpal (lzwRoundTrip.1 idx hne) hidx
  · obtain rfl : idx = [] := List.length_eq_zero_iff.1 (hidx.trans hzero)
    exact decodeStream_frameLossless_of_bad_codes w h hpal lzwRoundTrip.2
  · obtain ⟨rgb, hrgb, -⟩ := reconstruct_quantize img w h
    exact ⟨rgb, hrgb, decodeStream_frameLossy hw hh hrgb⟩

/-- Settles O57: the mode byte, then the codec's own errors in their order, and the capacity last. -/
theorem decodeErrorsInOrder : Obligations.DecodeErrorsInOrder := by
  refine ⟨fun s hs => ?_, fun m r h0 h4 => decodeStream_unrecognized h0 h4 r, fun r => ?_, fun r => ?_,
    fun s out info hready hok => ?_⟩
  · rw [List.length_eq_zero_iff.1 hs]
    rfl
  · refine ⟨decodeLossless_short, fun hlen hcodes => ?_, fun codes hlen hparse hdec => ?_,
      fun codes out size hlen hparse hdec hcount => ?_⟩
    · rw [← List.length_drop] at hcodes
      exact decodeLossless_of_bad_codes hlen (decodeCodeStream_of_parse_error (parseCodes_bad hcodes))
    · exact decodeLossless_of_bad_codes hlen (decodeCodeStream_of_decode_error hparse hdec)
    · exact decodeLossless_of_wrong_count hlen (decodeCodeStream_ok hparse hdec) hcount
  · intro s
    obtain ⟨hzero, hshort, hlong, -⟩ :=
      reconstructorErrorsInOrder (s.drop 6) (rd16 s 1) (rd16 s 3) (s.getD 5 0).toNat
    rw [List.length_drop] at hshort hlong
    have hedge : s.getD 5 0 ≠ 0 → (s.getD 5 0).toNat ≠ 0 := fun hb => (BitVec.toNat_ne_iff_ne (y := 0)).2 hb
    refine ⟨decodeLossy_short, fun hlen hb => ?_, fun hlen hb => ⟨fun hlt => ?_, fun hgt => ?_⟩⟩
    · exact decodeLossy_of_bad_payload hlen (hzero (congrArg BitVec.toNat hb))
    · exact decodeLossy_of_bad_payload hlen (hshort (hedge hb) hlt)
    · exact decodeLossy_of_bad_payload hlen (hlong (hedge hb) hgt)
  · have hlen := decodeStream_ok_length hok
    exact ⟨hlen, fun hcap => exec_overflow hready hok (hlen ▸ hcap)⟩

/-- Settles O59: a published length is below 2^32, so OUT_LEN and CODE_COUNT hold the framer's numbers. -/
theorem containerLengths : Obligations.ContainerLengths := by
  refine ⟨fun s t h herr => ?_, fun s t h herr => ?_⟩
  · obtain ⟨out, info, hok, hfit, rfl⟩ := exec_success h herr
    cases hok
    have hcap := s.dstCap.isLt
    rw [frameLossless_length, State.palBytes, Memory.read_length] at hfit
    rw [State.succeed_outLen, State.succeed_codeCount, frameLossless_length, State.palBytes, Memory.read_length]
    simp only [infoReg, BitVec.toNat_ofNat, Config.palBytes] at hfit ⊢
    omega
  · obtain ⟨out, info, hok, hfit, rfl⟩ := exec_success h herr
    cases hok
    rw [State.succeed_outLen, BitVec.toNat_ofNat, Nat.mod_eq_of_lt (hfit.trans_lt s.dstCap.isLt), frameLossy_length,
      quantize_length]
    rfl

end Sys2Proof
end

section
/-! PROOFS. Reset (70_reset_and_hazards.md section 1): what the host reads of registers at their reset values (R370), and
what an abandoned command leaves of the memory (R371). -/

namespace Sys2Proof

/-- A word that decodes carries its command's OP (30_encoding.md R112). -/
theorem opcode_of_instrOfOp {op : BitVec 8} {lim : Bool} {i : Instr} (h : instrOfOp op lim = some i) : op = i.opcode := by
  unfold instrOfOp at h
  split at h
  case h_10 => cases h
  all_goals cases h; exact BitVec.eq_of_toNat_eq ‹_›

/-- Fields that decode select their command by OP and LIM. -/
theorem instrOfOp_of_decodeFields_ok {f : CmdFields} {i : Instr} (h : decodeFields f = .ok i) :
    instrOfOp f.op f.lim = some i := by
  unfold decodeFields at h
  split at h
  · cases h
  · split at h
    · cases h
    next hop =>
      split at h
      · cases h
      · cases h
        exact hop

end Sys2Proof

namespace Sys2Proof.Machine

/-- The OP test of a running command's palette is the command's own column (20_memory.md R84). -/
theorem State.cmdUsesPal_of_decode {s : State} {i : Instr} (h : decodeCommand s.cmd = .ok i) : s.cmdUsesPal = i.usesPal := by
  have hop : s.cmd.extractLsb' 0 8 = i.opcode := opcode_of_instrOfOp (instrOfOp_of_decodeFields_ok h)
  rw [State.cmdUsesPal, hop]
  cases i <;> rfl

/-- Registers at their reset values hold what those of the machine right after reset hold. -/
theorem State.regValue_atReset {s : State} (h : s.registersAtReset) (r : Reg) : s.regValue r = State.reset.regValue r := by
  cases s
  dsimp only [State.registersAtReset] at h
  obtain ⟨rfl, rfl, rfl, rfl, rfl, rfl, rfl, rfl, rfl, rfl, rfl, rfl, rfl, rfl, rfl, rfl, rfl, rfl, rfl, rfl, rfl⟩ := h
  cases r <;> rfl

/-- Of an Idle core every register reads as what it holds, PROGRESS too, and a reserved offset as 0 (R45, R47). -/
theorem State.readReg_idle {s : State} (h : s.eng = .idle) (r : Option Reg) :
    s.readReg r = { s with busData := r.elim 0 s.regValue } := by
  obtain _ | r := r
  · rfl
  cases r with
  | progress => rw [State.readReg, State.drawProgress_idle h]; rfl
  | _ => rfl

/-- The reset column of R32: ID and BLOCK are the offsets that do not read 0. -/
theorem regValue_reset_offset : ∀ k < 64, (regAt (4 * k)).elim 0 State.reset.regValue =
    if 4 * k = 0x00 then 0x4C5A5701 else if 4 * k = 0x2C then 0x10 else 0 := by decide

/-- With every register at its reset value the host reads the reset column of R32 and changes nothing else (R54). -/
theorem hostRead_atReset {s : State} (h : s.registersAtReset) {k : Nat} (hk : k < 64) : hostRead s (4 * k) =
    .next { s with busData := if 4 * k = 0x00 then 0x4C5A5701 else if 4 * k = 0x2C then 0x10 else 0 } := by
  have ⟨_, _, hidle, _⟩ := h
  rw [hostRead_offset s (by omega) (by omega), State.readReg_idle hidle, funext (State.regValue_atReset h),
    regValue_reset_offset k hk]

/-- An assertion of `rst` while Busy makes DST unspecified, its inputs apart, and resets the registers (R371). -/
theorem rstStep_assert_busy {s : State} {i : Instr} (he : s.eng = .busy) (hd : decodeCommand s.cmd = .ok i) :
    rstStep s true = .next ((s.scrambleDst (s.inputs i.usesPal)).resetRegisters true) := by
  rw [rstStep_eq, ← State.cmdUsesPal_of_decode hd, State.driveRst, if_pos rfl, State.assertRst, he]

/-- A byte of a range the scrambling keeps apart is unchanged, also where that range meets DST (R371). -/
theorem State.scrambleDst_input {s : State} {keep : List Range} {r : Range} (hr : r ∈ keep) {a : Nat}
    (ha : r.holds a = true) : (s.scrambleDst keep).mem.readByte a = s.mem.readByte a :=
  State.scrambleDst_kept (List.any_eq_true.2 ⟨r, hr, ha⟩)

theorem State.src_mem_inputs (s : State) (usesPal : Bool) : s.src ∈ s.inputs usesPal := by
  cases usesPal <;> exact List.mem_cons_self

theorem State.pal_mem_inputs (s : State) : s.pal ∈ s.inputs true := List.mem_cons_of_mem _ List.mem_cons_self

end Sys2Proof.Machine

/-! The statement about an abandoned command. -/

namespace Sys2Proof

open Sys2Proof.Machine

/-- Settles O12: the command's inputs are kept apart while its DST becomes unspecified, and the registers are reset. -/
theorem resetDuringACommandAbandonsIt : Obligations.ResetDuringACommandAbandonsIt := by
  intro s i he hd
  refine ⟨_, rstStep_assert_busy he hd, rfl, rfl, rfl, fun a ha => ?_, fun a hi ha => ?_, fun a ha => ?_, fun k hk => ?_⟩
  · exact State.scrambleDst_input (s.src_mem_inputs _) ha
  · subst hi
    exact State.scrambleDst_input s.pal_mem_inputs ha
  · exact State.scrambleDst_outside ha
  · exact hostRead_atReset (State.resetRegisters_atReset ..) hk

end Sys2Proof
end

section
/-! PROOFS. The decoder inverts the encoder and rejects exactly the illegal words (30_encoding.md section 1, R113). -/

namespace Sys2Proof

/-! ### The fields of a word and of the command it decodes to (R110, R112) -/

/-- Cutting a word into its fields loses no bit (R110). -/
theorem wordOfFields_fieldsOfWord (w : Word) : wordOfFields (fieldsOfWord w) = w := by
  refine BitVec.eq_of_getLsbD_eq fun j hj => ?_
  unfold wordOfFields fieldsOfWord
  rw [BitVec.getLsbD_append, BitVec.getLsbD_append]
  rcases Nat.lt_or_ge j 8 with hop | hop
  · simp [hop]
  rcases Nat.eq_or_lt_of_le hop with rfl | hrsvd
  · simp
  · have hplace : 9 + (j - 8 - 1) = j := by omega
    have hlim : ¬ j - 8 < 1 := by omega
    simp [Nat.not_lt.2 hop, hlim, hplace, hj]
    omega

/-- LIM reaches the command UNPACK and may not be set for another one, so it is the command's own (R113). -/
theorem limBit_of_instrOfOp {op : BitVec 8} {lim : Bool} {i : Instr} (h : instrOfOp op lim = some i)
    (hlim : lim = true → op.toNat = 2) : i.limBit = lim := by
  have hop := opcode_of_instrOfOp h
  cases i with
  | unpack l =>
    rw [hop] at h
    cases h
    rfl
  | _ =>
    refine (Bool.eq_false_iff.2 fun hl => ?_).symm
    have htwo := hlim hl
    rw [hop] at htwo
    exact absurd htwo (by decide)

/-- Fields that decode are those of the command's own word. -/
theorem fields_of_decodeFields_ok {f : CmdFields} {i : Instr} (h : decodeFields f = .ok i) : f = i.fields := by
  have hsel := instrOfOp_of_decodeFields_ok h
  obtain ⟨-, hrsvd, hlim⟩ := f.wellFormed_iff.1 (decodeFields_ok_wellFormed h)
  obtain ⟨op, lim, rsvd⟩ := f
  obtain rfl : op = i.opcode := opcode_of_instrOfOp hsel
  obtain rfl : i.limBit = lim := limBit_of_instrOfOp hsel hlim
  obtain rfl : rsvd = 0 := BitVec.eq_of_toNat_eq hrsvd
  rfl

/-- A word that decodes is the one the encoder writes. -/
theorem eq_encode_of_decodeCommand_ok {w : Word} {i : Instr} (h : decodeCommand w = .ok i) : w = encode i := by
  rw [encode, ← fields_of_decodeFields_ok h, wordOfFields_fieldsOfWord]

theorem Instr_wellFormed (i : Instr) : i.wellFormed = true := decodeFields_ok_wellFormed (decodeFields_fields i)

/-! ### The illegal words (R113) -/

/-- An OP from 0x01 to 0x09 selects a command (R112). -/
theorem instrOfOp_of_bounds {op : BitVec 8} (hlo : 1 ≤ op.toNat) (hhi : op.toNat ≤ 9) (lim : Bool) :
    ∃ i, instrOfOp op lim = some i := by
  unfold instrOfOp
  interval_cases op.toNat <;> exact ⟨_, rfl⟩

/-- Well-formed fields decode. -/
theorem decodeFields_of_wellFormed {f : CmdFields} (h : f.wellFormed = true) : ∃ i, decodeFields f = .ok i := by
  obtain ⟨⟨hlo, hhi⟩, hrsvd, hlim⟩ := f.wellFormed_iff.1 h
  obtain ⟨i, hi⟩ := instrOfOp_of_bounds hlo hhi f.lim
  have hzero : f.rsvd = 0 := BitVec.eq_of_toNat_eq hrsvd
  have hunpack : ¬ (f.lim = true ∧ f.op ≠ 0x02) := fun ⟨hl, hop⟩ => hop (BitVec.eq_of_toNat_eq (hlim hl))
  refine ⟨i, ?_⟩
  rw [decodeFields, if_neg (not_not_intro hzero), hi]
  exact if_neg hunpack

theorem decodeCommand_error_iff (w : Word) : (∃ e, decodeCommand w = .error e) ↔ illegalWord w := by
  refine ⟨fun ⟨e, he⟩ => ?_, decodeCommand_illegal⟩
  by_contra hlegal
  obtain ⟨i, hi⟩ := decodeFields_of_wellFormed ((fieldsOfWord_wellFormed_iff w).2 hlegal)
  rw [decodeCommand, hi] at he
  cases he

/-! The statements about the decoder. -/

open Sys2Proof.Machine

/-- Settles O2: the decoder keeps every field of the word, and the fields of a command are those the encoder writes. -/
theorem decodeInvertsEncode : Obligations.DecodeInvertsEncode := by
  refine fun i => ⟨Instr_wellFormed i, fun w => ⟨eq_encode_of_decodeCommand_ok, ?_⟩⟩
  rintro rfl
  exact decodeCommand_encode i

/-- Settles O3: the decoder's errors are R113's clauses; the write starts the word, and the engine's turn then raises
ILLEGAL_COMMAND as an early error. -/
theorem illegalWordsCompleteWithIllegalCommand : Obligations.IllegalWordsCompleteWithIllegalCommand := by
  refine ⟨decodeCommand_error_iff, fun s w hw hr he => ?_⟩
  obtain ⟨e, hd⟩ := decodeCommand_illegal hw
  exact ⟨s.start w, _, hostWrite_cmd_idle hr he w, rfl, rfl, engineTurn_busy_error (s := s.start w) rfl hd, rfl, rfl,
    rfl, rfl⟩

end Sys2Proof
end

section
/-! PROOFS. The invariant of the machine (State.Inv): what the transforms publish is sound, every completion leaves a sound
state, and the other moves keep the clauses one by one (10_state.md, 40_common.md R161, R166, 70_reset_and_hazards.md R370). -/

namespace Sys2Proof.Machine

/-! ### What the LZW engine reports (42_lzw.md R214 c, R220, R223) -/

/-- The size an encode reports, in step with its code count also for the empty input (R214 c). -/
theorem lzwEncode_size_eq (s : List Byte) : (lzwEncode s).2 = min 4096 (256 + ((lzwEncode s).1.length - 1)) := by
  by_cases h : s = []
  · subst h
    exact Dict.init_length
  · obtain ⟨-, -, hcount, -⟩ := encoderInvariantsHold s
    obtain ⟨hlen, hsize⟩ := hcount h
    omega

/-- Every code after the first adds an entry until the cap (R223). -/
theorem Dec.loop_size {d d' : Dec} {ks : List Nat} (hcap : d.dict.length ≤ 4096) (h : Dec.loop d ks = (d', none)) :
    d'.dict.length = min 4096 (d.dict.length + ks.length) := by
  induction ks generalizing d with
  | nil =>
    cases h
    exact (Nat.min_eq_right hcap).symm
  | cons k ks ih =>
    cases he : d.entry k with
    | none => rw [Dec.loop_cons_none he] at h; cases h
    | some e =>
      rw [Dec.loop_cons_some he] at h
      have htake : (d.take e).dict.length = min 4096 (d.dict.length + 1) := Dict.insert_length _ _ hcap
      rw [ih (by omega) h, htake, List.length_cons]
      omega

/-- A decode without an error has a first code that is a byte's (R222). -/
theorem Dec.run_ok_cases {ks : List Nat} {d : Dec} (h : Dec.run ks = (d, none)) :
    ∃ k ks', ks = k :: ks' ∧ k < 256 ∧ Dec.loop (Dec.first k) ks' = (d, none) := by
  cases ks with
  | nil => cases h
  | cons k ks =>
    rcases Nat.lt_or_ge k 256 with hbyte | hnot
    · exact ⟨k, ks, rfl, hbyte, Dec.run_cons_byte hbyte ks ▸ h⟩
    · rw [Dec.run_cons_notByte hnot] at h
      cases h

/-- The size a decode without an error ends with (R223). -/
theorem Dec.run_size {ks : List Nat} {d : Dec} (h : Dec.run ks = (d, none)) :
    d.dict.length = min 4096 (256 + (ks.length - 1)) := by
  obtain ⟨k, ks', rfl, -, hloop⟩ := Dec.run_ok_cases h
  have hinit : (Dec.first k).dict.length = 256 := Dict.init_length
  rw [Dec.loop_size (hinit.trans_le (by decide)) hloop, hinit]
  rfl

/-- A decode answers a result when its run meets no bad code. -/
theorem lzwDecode_ok {ks : List Nat} {out : List Byte} {size : Nat} (h : lzwDecode ks = .ok (out, size)) :
    ∃ d, Dec.run ks = (d, none) ∧ d.out = out ∧ d.dict.length = size := by
  unfold lzwDecode at h
  split at h
  · cases h
  · next d hrun => cases h; exact ⟨d, hrun, rfl, rfl⟩

theorem lzwDecode_of_run {ks : List Nat} {d : Dec} (h : Dec.run ks = (d, none)) :
    lzwDecode ks = .ok (d.out, d.dict.length) := by
  rw [lzwDecode, h]

theorem lzwDecode_size {ks : List Nat} {out : List Byte} {size : Nat} (h : lzwDecode ks = .ok (out, size)) :
    size = min 4096 (256 + (ks.length - 1)) := by
  obtain ⟨d, hrun, -, rfl⟩ := lzwDecode_ok h
  exact Dec.run_size hrun

/-- A stream that parses gives one code for each two bytes (R220). -/
theorem parseCodes_ok_length {s : List Byte} {ks : List Nat} (h : parseCodes s = .ok ks) : ks.length = s.length / 2 := by
  by_cases hbad : s.length = 0 ∨ s.length % 2 = 1
  · rw [parseCodes_bad hbad] at h
    cases h
  · rw [parseCodes_even (by omega) (by omega)] at h
    cases h
    rw [List.length_map, List.length_range]

/-- A code stream that decodes reports half its length as the number of codes, and the size they leave. -/
theorem decodeCodeStream_counts {s out : List Byte} {n size : Nat} (h : decodeCodeStream s = .ok (out, n, size)) :
    n = s.length / 2 ∧ size = min 4096 (256 + (n - 1)) := by
  cases hp : parseCodes s with
  | error k => rw [decodeCodeStream_of_parse_error hp] at h; cases h
  | ok ks =>
    cases hd : lzwDecode ks with
    | error k => rw [decodeCodeStream_of_decode_error hp hd] at h; cases h
    | ok r =>
      obtain ⟨bytes, z⟩ := r
      rw [decodeCodeStream_ok hp hd] at h
      cases h
      exact ⟨parseCodes_ok_length hp, lzwDecode_size hd⟩

/-! ### What a transform publishes (10_state.md R44, R46) -/

/-- The values a success may publish: 16-bit dimensions, and a dictionary size in step with a 32-bit code count. -/
structure Info.Sound (info : Info) : Prop where
  outW : ∀ n, info.outW = some n → n ≤ 65535
  outH : ∀ n, info.outH = some n → n ≤ 65535
  dict : (info.codeCount = none ∧ info.dictSize = none) ∨
    ∃ n, n < 2 ^ 32 ∧ info.codeCount = some n ∧ info.dictSize = some (min 4096 (256 + (n - 1)))

/-- A transform that reports nothing beside its output. -/
theorem Info.sound_empty : Info.Sound {} where
  outW := fun _ h => nomatch h
  outH := fun _ h => nomatch h
  dict := .inl ⟨rfl, rfl⟩

/-- A transform that reports only what the LZW engine counted. -/
theorem Info.sound_counts {n size : Nat} (hn : n < 2 ^ 32) (hsize : size = min 4096 (256 + (n - 1))) :
    Info.Sound { codeCount := some n, dictSize := some size } where
  outW := fun _ h => nomatch h
  outH := fun _ h => nomatch h
  dict := .inr ⟨n, hn, rfl, congrArg some hsize⟩

theorem rd16_le (xs : List Byte) (i : Nat) : rd16 xs i ≤ 65535 := by
  have hhi := (xs.getD i 0).isLt
  have hlo := (xs.getD (i + 1) 0).isLt
  rw [rd16]
  omega

theorem decodeLossless_info_sound {s out : List Byte} {info : Info} (hs : s.length < 2 ^ 32)
    (hok : decodeLossless s = .ok (out, info)) : info.Sound := by
  rcases Nat.lt_or_ge s.length 773 with hshort | hlen
  · rw [decodeLossless_short hshort] at hok
    cases hok
  cases hcodes : decodeCodeStream (s.drop 773) with
  | error k => rw [decodeLossless_of_bad_codes hlen hcodes] at hok; cases hok
  | ok r =>
    obtain ⟨idx, n, size⟩ := r
    by_cases hcount : idx.length = rd16 s 1 * rd16 s 3
    · rw [decodeLossless_of_indices hlen hcodes hcount] at hok
      cases hok
      obtain ⟨hn, hsize⟩ := decodeCodeStream_counts hcodes
      rw [List.length_drop] at hn
      refine ⟨fun m hm => ?_, fun m hm => ?_, .inr ⟨n, by omega, rfl, congrArg some hsize⟩⟩
      · cases hm; exact rd16_le ..
      · cases hm; exact rd16_le ..
    · rw [decodeLossless_of_wrong_count hlen hcodes hcount] at hok
      cases hok

theorem decodeLossy_info_sound {s out : List Byte} {info : Info} (hok : decodeLossy s = .ok (out, info)) :
    info.Sound := by
  rcases Nat.lt_or_ge s.length 6 with hshort | hlen
  · rw [decodeLossy_short hshort] at hok
    cases hok
  cases himg : reconstruct (s.drop 6) (rd16 s 1) (rd16 s 3) (s.getD 5 0).toNat with
  | error k => rw [decodeLossy_of_bad_payload hlen himg] at hok; cases hok
  | ok rgb =>
    rw [decodeLossy_of_image hlen himg] at hok
    cases hok
    refine ⟨fun m hm => ?_, fun m hm => ?_, .inl ⟨rfl, rfl⟩⟩
    · cases hm; exact rd16_le ..
    · cases hm; exact rd16_le ..

theorem decodeStream_info_sound {s out : List Byte} {info : Info} (hs : s.length < 2 ^ 32)
    (hok : decodeStream s = .ok (out, info)) : info.Sound := by
  cases s with
  | nil => cases hok
  | cons m r =>
    by_cases h0 : m = 0
    · subst h0
      exact decodeLossless_info_sound hs hok
    by_cases h4 : m = 4
    · subst h4
      exact decodeLossy_info_sound hok
    · rw [decodeStream_unrecognized h0 h4] at hok
      cases hok

@[simp] theorem State.srcBytes_length (s : State) : s.srcBytes.length = s.srcLen.toNat := Memory.read_length ..

/-- Every command publishes sound values with a result that fits. -/
theorem Instr_transform_info_sound {i : Instr} {s : State} {out : List Byte} {info : Info}
    (hok : (i.transform s).result = .ok (out, info)) (hfit : out.length ≤ s.dstCap.toNat) : info.Sound := by
  have hcap := s.dstCap.isLt
  have hsrc : s.srcBytes.length < 2 ^ 32 := s.srcBytes_length ▸ s.srcLen.isLt
  cases i with
  | pack =>
    simp only [Instr.transform, packTransform] at hok
    split at hok <;> cases hok
    exact Info.sound_empty
  | lzwEnc =>
    cases hok
    rw [codesToBytes_length] at hfit
    exact Info.sound_counts (by omega) (lzwEncode_size_eq _)
  | lzwDec =>
    simp only [Instr.transform, lzwDecTransform] at hok
    split at hok
    · cases hok
    · next hcodes =>
      cases hok
      obtain ⟨hn, hsize⟩ := decodeCodeStream_counts hcodes
      exact Info.sound_counts (by omega) hsize
  | blkRecon =>
    simp only [Instr.transform, blkReconTransform] at hok
    split at hok <;> cases hok
    exact Info.sound_empty
  | encLossless =>
    cases hok
    rw [frameLossless_length] at hfit
    exact Info.sound_counts (by omega) (lzwEncode_size_eq _)
  | decode => exact decodeStream_info_sound hsrc hok
  | _ =>
    cases hok
    exact Info.sound_empty

/-! ### The state a completion leaves (40_common.md R166) -/

/-- An error completion of a state with clean results meets the invariant; only OUTPUT_OVERFLOW has an OUT_LEN. -/
theorem State.raise_inv {s : State} {k : ErrorKind} {n : Word} (hm : s.mem.wf = true) (hr : s.rst = false)
    (hc : s.resultsClear) (hn : k ≠ .outputOverflow → n = 0) : (s.raise k n).Inv := by
  obtain ⟨-, hw, hh, hcodes, hdict⟩ := hc
  have hzero : ∀ x : Word, x = 0 → x.toNat ≤ Config.dimMax := by
    rintro x rfl
    exact Nat.zero_le _
  exact {
    memWf := hm
    rstHolds := fun h => Bool.noConfusion (hr.symm.trans h)
    busyClean := fun h => nomatch h
    workInit := fun h => nomatch h
    progressBound := fun h => nomatch h
    errorClean := fun _ => ⟨hw, hh, hcodes, hdict, fun hk => hn fun heq => hk (congrArg some heq)⟩
    dictSync := .inl hdict
    outDims := ⟨hzero _ hw, hzero _ hh⟩ }

/-- A published dimension is a 16-bit value, or the register keeps its 0. -/
theorem infoReg_dim_le {v : Option Nat} {old : Word} (hold : old = 0) (hv : ∀ n, v = some n → n ≤ 65535) :
    (infoReg v old).toNat ≤ Config.dimMax := by
  cases v with
  | none => rw [infoReg, hold]; exact Nat.zero_le _
  | some n =>
    have hn := hv n rfl
    rw [infoReg, BitVec.toNat_ofNat]
    exact (Nat.mod_le ..).trans hn

/-- A success that publishes sound values from clean results, inside the address space, meets the invariant. -/
theorem State.succeed_inv {s : State} {out : List Byte} {info : Info} (hm : s.mem.wf = true) (hr : s.rst = false)
    (hc : s.resultsClear) (hdst : s.dstAddr.toNat + out.length ≤ Config.addrSpace) (hinfo : info.Sound) :
    (s.succeed out info).Inv := by
  obtain ⟨-, hw, hh, hcodes, hdict⟩ := hc
  have hsync : infoReg info.dictSize s.dictSize = 0 ∨ (infoReg info.dictSize s.dictSize).toNat =
      min 4096 (256 + ((infoReg info.codeCount s.codeCount).toNat - 1)) := by
    obtain ⟨-, hnone⟩ | ⟨n, hn, hcount, hsize⟩ := hinfo.dict
    · rw [hnone]
      exact .inl hdict
    · rw [hcount, hsize]
      simp only [infoReg, BitVec.toNat_ofNat]
      omega
  exact {
    memWf := Memory.write_wf hm hdst
    rstHolds := fun h => Bool.noConfusion (hr.symm.trans h)
    busyClean := fun h => nomatch h
    workInit := fun h => nomatch h
    progressBound := fun h => nomatch h
    errorClean := fun h => absurd rfl h
    dictSync := hsync
    outDims := ⟨infoReg_dim_le hw hinfo.outW, infoReg_dim_le hh hinfo.outH⟩ }

/-! ### The state a running command stands in -/

/-- A core whose `rst` is asserted is Idle, so a Busy one's is released (70_reset_and_hazards.md R370). -/
theorem State.Inv.busy_released {s : State} (h : s.Inv) (hb : s.eng = .busy) : s.rst = false := by
  refine Bool.eq_false_iff.2 fun hr => ?_
  obtain ⟨-, -, hidle, -⟩ := h.rstHolds hr
  rw [hb] at hidle
  cases hidle

theorem State.Inv.busy_resultsClear {s : State} (h : s.Inv) (hb : s.eng = .busy) : s.resultsClear :=
  (h.busyClean hb).2.2

/-- OUT_LEN of a late error is 0 but for OUTPUT_OVERFLOW (40_common.md R166). -/
theorem lateOutLen_eq_zero {k : ErrorKind} (h : k ≠ .outputOverflow) (n : Nat) : lateOutLen k n = 0 := if_neg h

/-- The completion of a command whose early checks pass. -/
theorem State.Inv.finish {s : State} (h : s.Inv) (hb : s.eng = .busy) {i : Instr}
    (hearly : s.earlyError (i.checks s) = none) : (s.finish (i.transform s)).Inv := by
  have hr := h.busy_released hb
  have hc := h.busy_resultsClear hb
  have hlate (k : ErrorKind) (n : Nat) : ((s.note (i.transform s)).raiseLate k n).Inv :=
    State.raise_inv (State.scrambleDst_wf (s := s.note (i.transform s)) h.memWf) hr hc fun hk => lateOutLen_eq_zero hk n
  rcases s.finish_cases (i.transform s) with ⟨k, -, hf⟩ | ⟨out, info, -, -, hf⟩ | ⟨out, info, hok, hfit, hf⟩ <;> rw [hf]
  · exact hlate k 0
  · exact hlate _ _
  · obtain ⟨hranges, -⟩ := (State.earlyError_none_iff ..).1 hearly
    obtain ⟨hdst, -⟩ := (s.rangesOk_iff _).1 hranges
    exact State.succeed_inv (s := s.note (i.transform s)) h.memWf hr hc ((Nat.add_le_add_left hfit _).trans hdst)
      (Instr_transform_info_sound hok hfit)

/-! ### The moves (60_exceptions.md R342) -/

theorem State.Inv.setMoves {s : State} (h : s.Inv) (ms : List Move) : ({ s with moves := ms } : State).Inv := { h with }

theorem State.Inv.setBusData {s : State} (h : s.Inv) (x : Word) : ({ s with busData := x } : State).Inv := { h with }

theorem State.Inv.engineTurn {s t : State} (h : s.Inv) (ht : engineTurn s = .next t) : t.Inv := by
  rcases s.busy_or_idle with hb | hi
  · obtain ⟨k, rfl⟩ | ⟨i, -, hearly, rfl⟩ := engineTurn_busy_next hb ht
    · exact State.raise_inv h.memWf (h.busy_released hb) (h.busy_resultsClear hb) fun _ => rfl
    · exact h.finish hb hearly
  · rw [engineTurn_idle hi] at ht
    cases ht
    exact h

/-- A register read: the bus data, and while Busy a draw of PROGRESS within its bound (10_state.md R45). -/
theorem State.Inv.readReg {s : State} (h : s.Inv) (r : Option Reg) : (s.readReg r).Inv := by
  obtain ⟨x, hx⟩ | ⟨hb, -, hx⟩ := s.readReg_cases r <;> rw [hx]
  · exact h.setBusData x
  · exact { h with
      rstHolds := fun hr => Bool.noConfusion ((h.busy_released hb).symm.trans hr)
      progressBound := fun _ => (drawBetween_bounds _ (h.progressBound hb)).2 }

/-- A start initialises the results and the working state (40_common.md R161). -/
theorem State.start_inv {s : State} (hm : s.mem.wf = true) (hr : s.rst = false) (v : Word) : (s.start v).Inv where
  memWf := hm
  rstHolds := fun h => Bool.noConfusion (hr.symm.trans h)
  busyClean := fun _ => ⟨rfl, rfl, rfl, rfl, rfl, rfl, rfl⟩
  workInit := fun _ => rfl
  progressBound := fun _ => Nat.zero_le _
  errorClean := fun h => absurd rfl h
  dictSync := .inl rfl
  outDims := ⟨Nat.zero_le _, Nat.zero_le _⟩

/-- A register write while `rst` is released, register by register. -/
theorem State.Inv.writeReg {s : State} (h : s.Inv) (hr : s.rst = false) (v : Word) (r : Option Reg) :
    (s.writeReg v r).Inv := by
  have released : s.rst = true → False := fun h => Bool.noConfusion (hr.symm.trans h)
  rcases s.writeReg_cases v r with hw | hw | ⟨-, -, hw⟩ | ⟨-, hw⟩ | ⟨hi, _, _, _, _, _, _, _, _, _, hw⟩ <;> rw [hw]
  · exact h
  · exact { h with rstHolds := fun ha => (released ha).elim }
  · exact State.start_inv h.memWf hr v
  · refine { h with rstHolds := fun ha => (released ha).elim, busyClean := fun hb => ?_ }
    obtain ⟨hdone, hrest⟩ := h.busyClean hb
    refine ⟨?_, hrest⟩
    rw [State.acknowledge_done, hdone, ite_self]
  · exact { h with
      rstHolds := fun ha => (released ha).elim
      progressBound := fun hb => nomatch hi.symm.trans hb }

theorem State.Inv.hostStep {op : HostOp} {s t : State} (h : s.Inv) (ht : hostStep op s = .next t) : t.Inv := by
  rcases hostStep_next ht with ⟨o, -, -, rfl⟩ | ⟨o, v, -, -, rfl⟩ | ⟨a, -, rfl⟩ | ⟨a, v, -, -, -, rfl⟩
  · exact h.readReg _
  · cases hr : s.rst with
    | true => rwa [State.portWrite_held hr]
    | false =>
      rw [State.portWrite_released hr]
      exact h.writeReg hr v _
  · exact h.setBusData _
  · exact { h with memWf := Memory.writeByte_wf h.memWf a.isLt }

/-- Registers at their reset values over a canonical memory meet the invariant, at either level of `rst` (R370). -/
theorem State.inv_of_registersAtReset {s : State} (hm : s.mem.wf = true) (h : s.registersAtReset) : s.Inv := by
  have ⟨_, _, hidle, _, hnoerr, _, _, _, _, _, _, _, _, _, _, _, hw, hh, _, _, hdict⟩ := h
  have notBusy : s.eng ≠ .busy := fun hb => nomatch hidle.symm.trans hb
  exact {
    memWf := hm
    rstHolds := fun _ => h
    busyClean := fun hb => absurd hb notBusy
    workInit := fun hb => absurd hb notBusy
    progressBound := fun hb => absurd hb notBusy
    errorClean := fun he => absurd hnoerr he
    dictSync := .inl hdict
    outDims := by rw [hw, hh]; exact ⟨Nat.zero_le _, Nat.zero_le _⟩ }

theorem State.resetRegisters_inv {s : State} (hm : s.mem.wf = true) (level : Bool) : (s.resetRegisters level).Inv :=
  State.inv_of_registersAtReset hm (s.resetRegisters_atReset level)

theorem State.Inv.driveRst {s : State} (h : s.Inv) (level : Bool) : (s.driveRst level).Inv := by
  rcases s.driveRst_cases level with ⟨hd, -, -⟩ | ⟨-, -, hd⟩ | ⟨-, -, hd⟩ <;> rw [hd]
  · exact State.resetRegisters_inv h.memWf level
  · exact State.resetRegisters_inv (State.scrambleDst_wf h.memWf) true
  · exact h

theorem State.Inv.moveStep {m : Move} {s t : State} (h : s.Inv) (ht : moveStep m s = .next t) : t.Inv := by
  cases m with
  | host op => exact h.hostStep ht
  | engine => exact h.engineTurn ht
  | rst level =>
    cases ht
    exact h.driveRst level

theorem State.Inv.step {s t : State} (h : s.Inv) (ht : step s = .next t) : t.Inv := by
  unfold Sys2Proof.Machine.step at ht
  split at ht
  · exact h.engineTurn ht
  · exact (h.setMoves _).moveStep ht

end Sys2Proof.Machine

/-! The statements about the invariant. -/

namespace Sys2Proof

open Sys2Proof.Machine

/-- Settles O32: each move keeps the invariant, and a step is one move of the state without it. -/
theorem everyStepKeepsTheInvariant : Obligations.EveryStepKeepsTheInvariant := fun _ _ h ht => h.step ht

/-- Settles O31: the reset state has its registers at their reset values, over the empty memory. -/
theorem resetStateMeetsTheInvariant : Obligations.ResetStateMeetsTheInvariant :=
  State.inv_of_registersAtReset rfl (by decide)

end Sys2Proof
end

section
/-! PROOFS. The register port and the host's memory accesses: the fields of STATUS (10_state.md R36), the parameter and result
registers (R30, R38 to R46), PROGRESS (R45), alignment (60_exceptions.md R345 b), ownership (20_memory.md R90, R93), and the
registers under `rst` (70_reset_and_hazards.md R370). -/

namespace Sys2Proof.Machine

/-! ### The STATUS word (R36, R140) -/

theorem State.statusWord_mode (s : State) : s.statusWord.extractLsb' 16 8 = s.mode := by
  ext i hi
  rw [BitVec.getElem_extractLsb', State.statusWord_getLsbD, if_neg (by omega), if_neg (by omega), if_neg (by omega),
    if_neg (by omega), if_neg (by omega), if_neg (by omega), if_pos (by omega), Nat.add_sub_cancel_left,
    BitVec.getLsbD_eq_getElem hi]

theorem State.statusWord_reserved (s : State) {b : Nat}
    (hb : (3 ≤ b ∧ b ≤ 7) ∨ (12 ≤ b ∧ b ≤ 15) ∨ (24 ≤ b ∧ b ≤ 31)) : s.statusWord.getLsbD b = false := by
  rw [State.statusWord_getLsbD, if_neg (by omega), if_neg (by omega), if_neg (by omega)]
  rcases hb with h | h | h
  · rw [if_pos (by omega)]
  · rw [if_neg (by omega), if_neg (by omega), if_pos (by omega)]
  · rw [if_neg (by omega), if_neg (by omega), if_neg (by omega), if_neg (by omega)]

theorem State.busyBit_eq_decide (s : State) : s.busyBit = decide (s.eng = .busy) := by
  unfold State.busyBit
  cases s.eng <;> rfl

/-- Every error has a code other than 0 (R140), so ERR says whether there is one. -/
theorem State.errBit_eq_isSome (s : State) : s.errBit = s.err.isSome := by
  unfold State.errBit State.errCode
  cases s.err with
  | none => rfl
  | some k => cases k <;> rfl

/-! ### Parameter writes while Idle (R30, R38 to R43) -/

/-- A write whose register takes it only while Idle, in an Idle core. -/
theorem hostWrite_whenIdle {s t : State} (hr : s.rst = false) (he : s.eng = .idle) {v : Word} {o : Nat} (ho : o < 256)
    (ha : o % 4 = 0) (h : s.writeReg v (regAt o) = s.whenIdle t) : hostWrite s o v = .next t := by
  rw [hostWrite_released hr v ho ha, h, State.whenIdle_idle he]

theorem paramOffset_ok {o : Nat} (ho : o ∈ paramOffsets) : o < 256 ∧ o % 4 = 0 := by
  have all_ok : ∀ o ∈ paramOffsets, o < 256 ∧ o % 4 = 0 := by decide
  exact all_ok o ho

/-- The value a reader finds at an offset (R32, R47). -/
def State.valueAt (s : State) (o : Nat) : Word := (regAt o).elim 0 s.regValue

theorem hostRead_idle {s : State} (he : s.eng = .idle) {o : Nat} (ho : o < 256) (ha : o % 4 = 0) :
    hostRead s o = .next { s with busData := s.valueAt o } := by
  rw [hostRead_offset s ho ha, State.readReg_idle he]
  rfl

/-- The low eight bits, widened again, are the word with the bits above them cleared (R42). -/
theorem setWidth_byte (v : Word) : (v.setWidth 8).setWidth 32 = v &&& 0xFF := by
  refine BitVec.eq_of_toNat_eq ?_
  rw [BitVec.toNat_setWidth, BitVec.toNat_setWidth, BitVec.toNat_and]
  exact (Nat.mod_eq_of_lt ((Nat.mod_lt _ (by decide)).trans (by decide))).trans
    (Nat.and_two_pow_sub_one_eq_mod v.toNat 8).symm

/-- A parameter write leaves the engine alone. -/
theorem State.writeReg_param_idle {s : State} (he : s.eng = .idle) (v : Word) {o : Nat} (ho : o ∈ paramOffsets) :
    (s.writeReg v (regAt o)).eng = .idle := by
  fin_cases ho <;> exact (congrArg State.eng (State.whenIdle_idle he)).trans he

/-- A written parameter reads back, BLOCK its low eight bits. -/
theorem State.writeReg_valueAt_same {s : State} (he : s.eng = .idle) (v : Word) {o : Nat} (ho : o ∈ paramOffsets) :
    (s.writeReg v (regAt o)).valueAt o = if o = 0x2C then v &&& 0xFF else v := by
  rw [← setWidth_byte]
  fin_cases ho <;> exact congrArg (State.valueAt · _) (State.whenIdle_idle he)

/-- A parameter write leaves what the other parameters read as. -/
theorem State.writeReg_valueAt_other {s : State} (he : s.eng = .idle) (v : Word) {o o' : Nat} (ho : o ∈ paramOffsets)
    (ho' : o' ∈ paramOffsets) (hne : o' ≠ o) : (s.writeReg v (regAt o)).valueAt o' = s.valueAt o' := by
  have hrest : o' ∈ paramOffsets.erase o := (List.mem_erase_of_ne hne).2 ho'
  fin_cases ho <;> refine (congrArg (State.valueAt · o') (State.whenIdle_idle he)).trans ?_ <;>
    fin_cases hrest <;> rfl

/-! ### Accesses the port refuses (60_exceptions.md R345 b) -/

theorem State.atRegister_misaligned (s : State) {o width : Nat} (ho : o < 256) (h : width ≠ 4 ∨ o % 4 ≠ 0)
    (k : Option Reg → State) : s.atRegister (s.platform.base + o) width k = .refused .notAlignedWord := by
  rw [State.atRegister, if_neg (by omega), Nat.add_sub_cancel_left, if_pos h]

/-! ### Ownership (20_memory.md R90, R93) -/

/-- The OP test of a running command's palette, as the number R84 gives. -/
theorem State.cmdUsesPal_eq_decide (s : State) : s.cmdUsesPal = decide (s.cmd.toNat % 256 = 7) := by
  have hop : (s.cmd.extractLsb' 0 8).toNat = s.cmd.toNat % 256 := BitVec.extractLsb'_toNat ..
  rw [Bool.eq_iff_iff, decide_eq_true_iff, ← hop, State.cmdUsesPal, beq_iff_eq, BitVec.toNat_eq]
  rfl

/-- ENC_LOSSLESS alone uses PAL (R84). -/
theorem Instr_usesPal_iff (i : Instr) : i.usesPal = true ↔ i = .encLossless := by
  cases i <;> simp [Instr.usesPal]

/-- An Idle engine owns nothing. -/
theorem State.ownsInput_idle {s : State} (he : s.eng = .idle) (a : Nat) : s.ownsInput a = false := by
  rw [State.ownsInput, he]
  rfl

theorem State.ownsOutput_idle {s : State} (he : s.eng = .idle) (a : Nat) : s.ownsOutput a = false := by
  rw [State.ownsOutput, he]
  rfl

/-- A Busy engine owns its input ranges and DST (R90). -/
theorem State.ownsInput_busy {s : State} (he : s.eng = .busy) (a : Nat) :
    s.ownsInput a = (s.inputs s.cmdUsesPal).any fun r => r.holds a := by
  rw [State.ownsInput, he]
  rfl

theorem State.ownsOutput_busy {s : State} (he : s.eng = .busy) (a : Nat) : s.ownsOutput a = s.dst.holds a := by
  rw [State.ownsOutput, he]
  rfl

/-- The host may write where no range of a running command is. -/
theorem State.owns_nothing {s : State} {a : Nat}
    (h : s.eng = .idle ∨ ∀ r ∈ s.dst :: s.inputs s.cmdUsesPal, r.holds a = false) :
    s.ownsInput a = false ∧ s.ownsOutput a = false := by
  rcases s.busy_or_idle with he | he
  · have hfree := h.resolve_left fun hi => nomatch he.symm.trans hi
    obtain ⟨hdst, hin⟩ := List.forall_mem_cons.1 hfree
    rw [State.ownsInput_busy he, State.ownsOutput_busy he, List.any_eq_false]
    exact ⟨fun r hr => Bool.not_eq_true _ ▸ hin r hr, hdst⟩
  · exact ⟨State.ownsInput_idle he a, State.ownsOutput_idle he a⟩

theorem State.owns_something {s : State} (he : s.eng = .busy) {a : Nat}
    (h : ∃ r ∈ s.dst :: s.inputs s.cmdUsesPal, r.holds a = true) : (s.ownsInput a || s.ownsOutput a) = true := by
  rw [State.ownsInput_busy he, State.ownsOutput_busy he, Bool.or_comm, ← List.any_cons (f := fun r : Range => r.holds a)]
  exact List.any_eq_true.2 h

theorem State.hostMemWrite_owned {s : State} {a : Nat} (h : (s.ownsInput a || s.ownsOutput a) = true) (v : Byte) :
    s.hostMemWrite a v = .fault .hostOwnershipViolation := if_pos h

theorem State.hostMemRead_owned {s : State} {a : Nat} (h : s.ownsOutput a = true) :
    s.hostMemRead a = .fault .hostOwnershipViolation := if_pos h

theorem State.hostMemWrite_free {s : State} {a : Nat} (hin : s.ownsInput a = false) (hout : s.ownsOutput a = false)
    (hb : backedAt s.platform.backed a = true) (v : Byte) :
    s.hostMemWrite a v = .next { s with mem := s.mem.writeByte a v } := by
  rw [State.hostMemWrite, hin, hout, if_pos hb]
  rfl

theorem State.hostMemRead_free {s : State} {a : Nat} (hout : s.ownsOutput a = false)
    (hb : backedAt s.platform.backed a = true) :
    s.hostMemRead a = .next { s with busData := (s.mem.readByte a).setWidth 32 } := by
  rw [State.hostMemRead, hout, if_pos hb]
  rfl

/-! ### The level of `rst` (70_reset_and_hazards.md R370) -/

/-- An assertion, and a release of what was asserted, put every register at its reset value. -/
theorem State.driveRst_atReset {s : State} {level : Bool} (h : level = true ∨ s.rst = true) :
    (s.driveRst level).registersAtReset := by
  rcases s.driveRst_cases level with ⟨hd, -, -⟩ | ⟨-, -, hd⟩ | ⟨hl, hr, hd⟩
  · rw [hd]; exact State.resetRegisters_atReset ..
  · rw [hd]; exact State.resetRegisters_atReset ..
  · rw [hl, hr] at h
    exact absurd h (by decide)

/-- With DONE at its reset value irq is 0 (10_state.md R51). -/
theorem State.registersAtReset.irq {s : State} (h : s.registersAtReset) : s.irq = false := by
  obtain ⟨-, -, -, hdone, -⟩ := h
  rw [State.irq, hdone, Bool.false_and]

theorem State.driveRst_assert_idle {s : State} (he : s.eng = .idle) : s.driveRst true = s.resetRegisters true := by
  rw [State.driveRst, if_pos rfl, State.assertRst, he]

theorem State.driveRst_release_held {s : State} (hr : s.rst = true) : s.driveRst false = s.resetRegisters false := by
  rw [State.driveRst, if_neg Bool.false_ne_true, State.releaseRst, if_pos hr]

/-- What every level of `rst` leaves: the platform, the moves to come and the bus data. -/
theorem State.driveRst_frame (s : State) (level : Bool) : (s.driveRst level).platform = s.platform ∧
    (s.driveRst level).moves = s.moves ∧ (s.driveRst level).busData = s.busData := by
  rcases s.driveRst_cases level with ⟨hd, -, -⟩ | ⟨-, -, hd⟩ | ⟨-, -, hd⟩ <;> rw [hd] <;> exact ⟨rfl, rfl, rfl⟩

theorem State.driveRst_assert_rst (s : State) : (s.driveRst true).rst = true := by
  rcases s.driveRst_cases true with ⟨hd, -, -⟩ | ⟨-, -, hd⟩ | ⟨hl, -, -⟩
  · rw [hd]; rfl
  · rw [hd]; rfl
  · cases hl

/-- While `rst` is asserted a register write does nothing (log 7). -/
theorem hostWrite_held {s : State} (hr : s.rst = true) (v : Word) {o : Nat} (ho : o < 256) (ha : o % 4 = 0) :
    hostWrite s o v = .next s := by
  rw [hostWrite_eq, State.atRegister_offset s _ ho ha, State.portWrite_held hr]

/-- With no move left the engine moves (log 1). -/
theorem step_nil {s : State} (h : s.moves = []) : step s = engineTurn s := by
  unfold step
  rw [h]

end Sys2Proof.Machine

/-! The statements about the register block and the host's accesses. -/

namespace Sys2Proof

open Sys2Proof.Machine

/-- Settles O9: STATUS is read through the word of R36, bit by bit. -/
theorem statusReadShowsItsFields : Obligations.StatusReadShowsItsFields := by
  refine fun s => ⟨s.statusWord, hostRead_offset s (by decide) (by decide), ?_, ?_, ?_, ?_, s.statusWord_mode,
    fun b => s.statusWord_reserved⟩
  · rw [State.statusWord_getLsbD, if_pos rfl, State.busyBit_eq_decide]
  · rw [State.statusWord_getLsbD]
    rfl
  · rw [State.statusWord_errBit, State.errBit_eq_isSome]
  · rw [State.statusWord_errCode, State.errCode]
    cases s.err with
    | none => rfl
    | some k => cases k <;> rfl

/-- Settles O11: all four kinds of states have their registers at their reset values, and a held `rst` ignores writes. -/
theorem resetPutsRegistersAtTheirResetValues : Obligations.ResetPutsRegistersAtTheirResetValues := by
  refine ⟨fun s hs => ?_, fun s => ⟨_, rstStep_eq s true, s.driveRst_assert_rst, (s.driveRst_frame true).1, fun he => ?_⟩,
    fun s hr => ⟨_, rstStep_eq s false, ?_⟩, fun s hr => ⟨fun k v hk => ?_, fun hinv => ?_⟩⟩
  · have hreset : s.registersAtReset := by
      rcases hs with rfl | ⟨u, hu⟩ | ⟨u, hr, hu⟩ | ⟨hinv, hr⟩
      · decide
      · cases hu; exact State.driveRst_atReset (.inl rfl)
      · cases hu; exact State.driveRst_atReset (.inr hr)
      · exact hinv.rstHolds hr
    have ⟨_, _, hidle, _⟩ := hreset
    exact ⟨hidle, hreset.irq, fun k hk => hostRead_atReset hreset hk⟩
  · rw [State.driveRst_assert_idle he]
    rfl
  · rw [State.driveRst_release_held hr]
    exact ⟨rfl, rfl, rfl⟩
  · exact hostWrite_held hr v (by omega) (by omega)
  · obtain ⟨-, -, hidle, -⟩ := hinv.rstHolds hr
    exact engineTurn_idle hidle

/-- Settles O13: a parameter write is one field of an Idle core; a read shows the register of its offset. -/
theorem parameterRegistersReadBack : Obligations.ParameterRegistersReadBack := by
  refine ⟨fun s v hr he => ?_, fun s => ?_, fun s v o ho => ?_⟩
  · have written {o : Nat} {t : State} (h : s.writeReg v (regAt o) = s.whenIdle t) (ho : o < 256 := by decide)
        (ha : o % 4 = 0 := by decide) : hostWrite s o v = .next t := hostWrite_whenIdle hr he ho ha h
    have hblock : v.extractLsb' 0 8 = v.setWidth 8 := (BitVec.setWidth_eq_extractLsb' (by decide)).symm
    refine ⟨written rfl, written rfl, written rfl, written rfl, written rfl, written rfl, written rfl,
      hblock ▸ written rfl, written rfl, fun o ho => ?_⟩
    obtain ⟨hlt, halign⟩ := paramOffset_ok ho
    have hidle := State.writeReg_param_idle he v ho
    refine ⟨_, hostWrite_released hr v hlt halign, ?_, fun o' ho' hne => ?_⟩
    · rw [hostRead_idle hidle hlt halign, State.writeReg_valueAt_same he v ho]
    · obtain ⟨hlt', halign'⟩ := paramOffset_ok ho'
      refine ⟨s.valueAt o', hostRead_idle he hlt' halign', ?_⟩
      rw [hostRead_idle hidle hlt' halign', State.writeReg_valueAt_other he v ho ho' hne]
  · have shown {o : Nat} {x : Word} (h : s.readReg (regAt o) = { s with busData := x }) (ho : o < 256 := by decide)
        (ha : o % 4 = 0 := by decide) : hostRead s o = .next { s with busData := x } :=
      (hostRead_offset s ho ha).trans (congrArg _ h)
    have hblock : 0#24 ++ s.block = s.block.setWidth 32 := (BitVec.setWidth_eq_append (by decide)).symm
    exact ⟨shown rfl, shown rfl, shown rfl, shown rfl, shown rfl, shown rfl, shown rfl, shown rfl,
      hblock ▸ shown rfl, shown rfl, shown rfl, shown rfl, shown rfl, shown rfl, shown rfl⟩
  · fin_cases ho <;> exact hostWrite_ignored (by decide) (by decide) rfl

/-- Settles O14: a PROGRESS read while Busy is a draw between the register and SRC_LEN. -/
theorem progressReadsAreBoundedAndMonotone : Obligations.ProgressReadsAreBoundedAndMonotone := by
  refine fun s => ⟨fun he => hostRead_idle he (by decide) (by decide), fun he hle => ?_⟩
  refine ⟨drawBetween s.draws s.progress s.srcLen, ?_, drawBetween_bounds _ hle⟩
  rw [hostRead_offset s (by decide) (by decide)]
  change Host.Outcome.next (s.readReg (some .progress)) = _
  rw [State.readReg, State.drawProgress_busy he]

/-- Settles O15: an access to an owned byte is the fault, at which a run ends; every other one reaches backed memory. -/
theorem hostAccessesObeyOwnership : Obligations.HostAccessesObeyOwnership := by
  intro s a v pal
  have hpal : s.cmdUsesPal = pal := s.cmdUsesPal_eq_decide
  rw [← hpal]
  refine ⟨fun i hi => ?_, fun he hown => ?_, fun he hown => ?_, fun hb hfree => ?_, fun hb hfree => ?_⟩
  · rw [State.cmdUsesPal_of_decode hi]
    exact ⟨rfl, Instr_usesPal_iff i⟩
  · have hfault : hostStore s a v = .fault .hostOwnershipViolation :=
      State.hostMemWrite_owned (State.owns_something he hown) v
    exact ⟨hfault, fun n => core_run_fault hfault⟩
  · have hfault : hostLoad s a = .fault .hostOwnershipViolation :=
      State.hostMemRead_owned ((State.ownsOutput_busy he _).trans hown)
    exact ⟨hfault, fun n => core_run_fault hfault⟩
  · obtain ⟨hin, hout⟩ := State.owns_nothing hfree
    exact State.hostMemWrite_free hin hout hb v
  · have hout : s.ownsOutput a.toNat = false := by
      rcases s.busy_or_idle with he | he
      · exact (State.ownsOutput_busy he _).trans (hfree.resolve_left fun hi => nomatch he.symm.trans hi)
      · exact State.ownsOutput_idle he _
    exact State.hostMemRead_free hout hb

/-- Settles O16: the port's second refusal, for a read and a write alike. -/
theorem registerAccessesAreAlignedWords : Obligations.RegisterAccessesAreAlignedWords := by
  intro s o width v ms ho h
  exact ⟨State.atRegister_misaligned { s with moves := ms } ho h _, State.atRegister_misaligned { s with moves := ms } ho h _⟩

/-- Settles O17: the engine's turn, as a move and as the step with no move left. -/
theorem stepRunsTheCommandInCmd : Obligations.StepRunsTheCommandInCmd := by
  refine ⟨fun s i he hd => ?_, fun s he => ?_, fun s level => ⟨_, rstStep_eq s level, (s.driveRst_frame level).2⟩⟩
  · rw [engineStep_eq, ← engineTurn_busy_ok he hd]
    exact ⟨rfl, step_nil⟩
  · rw [engineStep_eq, ← engineTurn_idle he]
    exact ⟨rfl, step_nil⟩

end Sys2Proof
end

section
/-! PROOFS. The frame of a command (40_common.md R165 to R168): which registers, which bytes and which part of the working
state a completion leaves (10_state.md R44, R46, R48, R52), the error state (R166), MODE after a DECODE (44_container.md R300),
and the completion a host sees that only polls (R168). -/

namespace Sys2Proof.Machine

/-! ### What a transform leaves of the working state (R52) -/

theorem Work.afterParse_block (wk : Work) (s : List Byte) : (wk.afterParse s).block = wk.block := by
  unfold Work.afterParse
  split <;> rfl

/-- A decode leaves nothing of the dictionary and the `previous` it found. -/
theorem Work.afterParse_decoder (wk wk' : Work) (s : List Byte) :
    (wk.afterParse s).dict = (wk'.afterParse s).dict ∧ (wk.afterParse s).previous = (wk'.afterParse s).previous := by
  unfold Work.afterParse
  split <;> exact ⟨rfl, rfl⟩

/-- The quantizer leaves the LZW engine's part. -/
theorem Work.afterQuantize_lzw (wk : Work) (img : List Byte) (w h : Nat) :
    (wk.afterQuantize img w h).dict = wk.dict ∧ (wk.afterQuantize img w h).acc = wk.acc ∧
    (wk.afterQuantize img w h).previous = wk.previous := by
  unfold Work.afterQuantize
  split <;> exact ⟨rfl, rfl, rfl⟩

/-- The quantizer leaves nothing of the block values it found. -/
theorem Work.afterQuantize_block (wk wk' : Work) (img : List Byte) (w h : Nat) :
    (wk.afterQuantize img w h).block = (wk'.afterQuantize img w h).block := by
  unfold Work.afterQuantize
  split <;> rfl

/-- A command that does not run the LZW engine leaves its part. -/
theorem Instr_transform_keeps_lzw {i : Instr} (h1 : i ≠ .lzwEnc) (h2 : i ≠ .lzwDec) (h3 : i ≠ .encLossless)
    (h4 : i ≠ .decode) (s : State) : (i.transform s).work.dict = s.work.dict ∧ (i.transform s).work.acc = s.work.acc ∧
    (i.transform s).work.previous = s.work.previous := by
  cases i with
  | lzwEnc => exact absurd rfl h1
  | lzwDec => exact absurd rfl h2
  | encLossless => exact absurd rfl h3
  | decode => exact absurd rfl h4
  | blkQuant => exact Work.afterQuantize_lzw ..
  | encLossy => exact Work.afterQuantize_lzw ..
  | _ => exact ⟨rfl, rfl, rfl⟩

/-- A command that does not run the block engine leaves its part. -/
theorem Instr_transform_keeps_block {i : Instr} (h1 : i ≠ .blkQuant) (h2 : i ≠ .blkRecon) (h3 : i ≠ .encLossy)
    (h4 : i ≠ .decode) (s : State) : (i.transform s).work.block = s.work.block := by
  cases i with
  | blkQuant => exact absurd rfl h1
  | blkRecon => exact absurd rfl h2
  | encLossy => exact absurd rfl h3
  | decode => exact absurd rfl h4
  | lzwDec => exact Work.afterParse_block ..
  | _ => rfl

/-! ### What a transform reports (R44, R46) -/

/-- A command that is no LZW command and no DECODE reports nothing beside its output. -/
theorem Instr_transform_info_empty {i : Instr} (h1 : i ≠ .lzwEnc) (h2 : i ≠ .lzwDec) (h3 : i ≠ .encLossless)
    (h4 : i ≠ .decode) {s : State} {out : List Byte} {info : Info} (hok : (i.transform s).result = .ok (out, info)) :
    info = {} := by
  cases i with
  | lzwEnc => exact absurd rfl h1
  | lzwDec => exact absurd rfl h2
  | encLossless => exact absurd rfl h3
  | decode => exact absurd rfl h4
  | pack =>
    simp only [Instr.transform, packTransform] at hok
    split at hok <;> cases hok
    rfl
  | blkRecon =>
    simp only [Instr.transform, blkReconTransform] at hok
    split at hok <;> cases hok
    rfl
  | _ => cases hok; rfl

/-- DECODE alone reports a decoded size (R44). -/
theorem Instr_transform_no_dims {i : Instr} (hi : i ≠ .decode) {s : State} {out : List Byte} {info : Info}
    (hok : (i.transform s).result = .ok (out, info)) : info.outW = none ∧ info.outH = none := by
  by_cases h1 : i = .lzwEnc
  · subst h1; cases hok; exact ⟨rfl, rfl⟩
  by_cases h2 : i = .lzwDec
  · subst h2
    simp only [Instr.transform, lzwDecTransform] at hok
    split at hok <;> cases hok
    exact ⟨rfl, rfl⟩
  by_cases h3 : i = .encLossless
  · subst h3; cases hok; exact ⟨rfl, rfl⟩
  · rw [Instr_transform_info_empty h1 h2 h3 hi hok]
    exact ⟨rfl, rfl⟩

/-! ### What the end of a transform leaves (R165, R166) -/

@[simp] theorem State.finish_work (s : State) (tr : Transform) : (s.finish tr).work = tr.work := by
  obtain ⟨_, _, h⟩ | ⟨_, _, h⟩ := s.finish_form tr <;> rw [h] <;> rfl

/-- The fields no completion touches: CMD, the level of `rst`, IRQ_EN, the platform, the moves and the bus data. -/
def State.sameSetting (s t : State) : Prop :=
  t.cmd = s.cmd ∧ t.rst = s.rst ∧ t.irqEn = s.irqEn ∧ t.platform = s.platform ∧ t.moves = s.moves ∧ t.busData = s.busData

theorem State.finish_sameSetting (s : State) (tr : Transform) : s.sameSetting (s.finish tr) := by
  obtain ⟨_, _, h⟩ | ⟨_, _, h⟩ := s.finish_form tr <;> rw [h] <;> exact ⟨rfl, rfl, rfl, rfl, rfl, rfl⟩

/-- A result register keeps its value when the transform reports none for it, on success and on error (log 11). -/
theorem State.finish_dims_kept {s : State} {tr : Transform}
    (h : ∀ out info, tr.result = .ok (out, info) → info.outW = none ∧ info.outH = none) :
    (s.finish tr).outW = s.outW ∧ (s.finish tr).outH = s.outH := by
  rcases s.finish_cases tr with ⟨k, -, hf⟩ | ⟨out, info, -, -, hf⟩ | ⟨out, info, hok, -, hf⟩ <;> rw [hf]
  · exact ⟨rfl, rfl⟩
  · exact ⟨rfl, rfl⟩
  · obtain ⟨hw, hh⟩ := h out info hok
    rw [State.succeed_outW, State.succeed_outH, hw, hh]
    exact ⟨rfl, rfl⟩

theorem State.finish_counts_kept {s : State} {tr : Transform}
    (h : ∀ out info, tr.result = .ok (out, info) → info.codeCount = none ∧ info.dictSize = none) :
    (s.finish tr).codeCount = s.codeCount ∧ (s.finish tr).dictSize = s.dictSize := by
  rcases s.finish_cases tr with ⟨k, -, hf⟩ | ⟨out, info, -, -, hf⟩ | ⟨out, info, hok, -, hf⟩ <;> rw [hf]
  · exact ⟨rfl, rfl⟩
  · exact ⟨rfl, rfl⟩
  · obtain ⟨hcodes, hdict⟩ := h out info hok
    rw [State.succeed_codeCount, State.succeed_dictSize, hcodes, hdict]
    exact ⟨rfl, rfl⟩

/-- The state a late error leaves (R166). -/
theorem State.finish_late {s : State} {tr : Transform} {k : ErrorKind} (h : (s.finish tr).err = some k) :
    ∃ n, s.finish tr = (s.note tr).raiseLate k n := by
  rcases s.finish_cases tr with ⟨e, -, hf⟩ | ⟨out, info, -, -, hf⟩ | ⟨out, info, -, -, hf⟩ <;> rw [hf] at h <;> cases h
  · exact ⟨_, hf⟩
  · exact ⟨_, hf⟩

/-- With the same result and MODE, the end of a transform differs only in the working state when the states do (R54). -/
theorem State.finish_setWork (s : State) (w : Work) {tr tr' : Transform} (hres : tr'.result = tr.result)
    (hmode : tr'.mode = tr.mode) :
    ({ s with work := w } : State).finish tr' = { s.finish tr with work := tr'.work } := by
  have hnote : ({ s with work := w } : State).note tr' = { s.note tr with work := tr'.work } := by
    rw [State.note, hmode]
    rfl
  rcases s.finish_cases tr with ⟨k, hr, hf⟩ | ⟨out, info, hr, hc, hf⟩ | ⟨out, info, hr, hc, hf⟩ <;> rw [hf]
  · rw [State.finish_error (hres.trans hr), hnote]
    rfl
  · rw [State.finish_overflow (s := { s with work := w }) (hres.trans hr) hc, hnote]
    rfl
  · rw [State.finish_ok (s := { s with work := w }) (hres.trans hr) hc, hnote]
    rfl

/-! ### The bytes outside a range -/

theorem Range.holds_eq_false_iff (r : Range) (a : Nat) : r.holds a = false ↔ a < r.addr ∨ r.addr + r.len ≤ a := by
  rw [← Bool.not_eq_true, Range.holds_iff]
  omega

/-! ### MODE after a DECODE (44_container.md R300) -/

theorem State.srcBytes_headD (s : State) :
    s.srcBytes.headD 0 = if 1 ≤ s.srcLen.toNat then s.mem.readByte s.srcAddr.toNat else 0 := by
  unfold State.srcBytes
  cases s.srcLen.toNat with
  | zero => rfl
  | succ n => rw [if_pos (Nat.le_add_left 1 n), Memory.read, List.range_succ_eq_map]; rfl

/-! ### Polling (R168) -/

theorem step_of_moves {s : State} {m : Move} {ms : List Move} (h : s.moves = m :: ms) :
    step s = moveStep m { s with moves := ms } := by
  unfold step
  rw [h]

/-- A STATUS read takes its move and changes the bus data only. -/
theorem step_statusPoll {s : State} {ms : List Move}
    (h : s.moves = .host (.regRead (s.platform.base + 0x0C) 4) :: ms) :
    step s = .next { s with moves := ms, busData := s.statusWord } := by
  rw [step_of_moves h]
  exact State.atRegister_offset { s with moves := ms } _ (by decide) (by decide)

/-- The turn of a Busy engine whose command, if legal, has backed ranges is a completion. -/
theorem engineTurn_busy_answers {s : State} (he : s.eng = .busy)
    (hb : ∀ i, decodeCommand s.cmd = .ok i → s.rangesBacked i.usesPal = true) : ∃ t, engineTurn s = .next t := by
  cases hd : decodeCommand s.cmd with
  | error e => exact ⟨_, engineTurn_busy_error he hd⟩
  | ok i =>
    obtain ⟨t, ht, -⟩ := exec_backed_completes (hb i hd)
    exact ⟨t, (engineTurn_busy_ok he hd).trans ht⟩

/-- The engine's turn leaves the moves to come. -/
theorem engineTurn_moves {s t : State} (h : engineTurn s = .next t) : t.moves = s.moves := by
  rcases s.busy_or_idle with he | he
  · obtain ⟨k, rfl⟩ | ⟨i, -, -, rfl⟩ := engineTurn_busy_next he h
    · rfl
    · obtain ⟨-, -, -, -, hmoves, -⟩ := s.finish_sameSetting (i.transform s)
      exact hmoves
  · rw [engineTurn_idle he] at h
    cases h
    rfl

end Sys2Proof.Machine

/-! The statements about the frame of a command. -/

namespace Sys2Proof

open Sys2Proof.Machine

/-- Settles O18, by induction on the number of polls: each takes its move, and with none left the engine completes. -/
theorem startedCommandCompletesUnderPolling : Obligations.StartedCommandCompletesUnderPolling := by
  intro s n he hmoves hb
  induction n generalizing s with
  | zero =>
    obtain ⟨t, ht⟩ := engineTurn_busy_answers he hb
    obtain ⟨heng, hdone, -, hp⟩ := engineTurn_busy_completes he ht
    have hstep : step s = .next t := (step_nil hmoves).trans ht
    exact ⟨t, core_run_succ hstep, heng, hdone, (engineTurn_moves ht).trans hmoves, hp⟩
  | succ n ih =>
    rw [core_run_succ (step_statusPoll hmoves)]
    exact ih _ he rfl hb

/-- Settles O25: an early error is the raise itself; a late one is the raise over what the transform noted and
unspecified bytes of DST. -/
theorem errorCompletionsLeaveThis : Obligations.ErrorCompletionsLeaveThis := by
  intro i s t k h hk
  obtain ⟨-, ⟨e, -, rfl⟩ | ⟨hnone, rfl⟩⟩ := exec_next h
  · exact ⟨rfl, rfl, drawBetween_zero_le .., rfl, rfl, rfl, rfl, fun _ => rfl, fun _ => ⟨rfl, rfl, rfl⟩, fun _ _ => rfl⟩
  · have hout : ∀ a, s.dst.holds a = false → (s.finish (i.transform s)).mem.readByte a = s.mem.readByte a :=
      fun a ha => State.finish_readByte_outside _ ha
    have hlate : s.earlyError (i.checks s) ≠ some k := by rw [hnone]; exact nofun
    obtain ⟨n, hf⟩ := State.finish_late hk
    rw [hf] at hout ⊢
    exact ⟨rfl, rfl, drawBetween_zero_le .., rfl, rfl, rfl, rfl, fun hne => lateOutLen_eq_zero hne n,
      fun he => absurd he hlate, hout⟩

/-- Settles O26: the end of a transform touches neither setting nor parameters, and what it reports and leaves is the
command's own. -/
theorem commandsKeepTheOtherRegisters : Obligations.CommandsKeepTheOtherRegisters := by
  intro i s t h
  obtain ⟨-, ⟨e, -, rfl⟩ | ⟨-, rfl⟩⟩ := exec_next h
  · exact ⟨s.sameParams_refl, rfl, rfl, rfl, rfl, rfl, rfl, fun _ => ⟨rfl, rfl, rfl⟩,
      fun _ _ _ _ => ⟨rfl, rfl, rfl, rfl, rfl⟩, fun _ _ _ _ => rfl⟩
  · obtain ⟨hcmd, hrst, hirq, hplat, hmoves, hbus⟩ := s.finish_sameSetting (i.transform s)
    refine ⟨s.finish_sameParams _, hcmd, hrst, hirq, hplat, hmoves, hbus, fun hi => ?_, fun h1 h2 h3 h4 => ?_,
      fun h1 h2 h3 h4 => ?_⟩
    · rw [State.finish_mode, Instr_transform_mode hi]
      exact ⟨rfl, State.finish_dims_kept fun _ _ hok => Instr_transform_no_dims hi hok⟩
    · have hcounts : ∀ out info, (i.transform s).result = .ok (out, info) → info.codeCount = none ∧ info.dictSize = none := by
        intro out info hok
        rw [Instr_transform_info_empty h1 h2 h3 h4 hok]
        exact ⟨rfl, rfl⟩
      obtain ⟨hcodes, hdict⟩ := State.finish_counts_kept (s := s) hcounts
      rw [State.finish_work]
      exact ⟨hcodes, hdict, Instr_transform_keeps_lzw h1 h2 h3 h4 s⟩
    · rw [State.finish_work]
      exact Instr_transform_keeps_block h1 h2 h3 h4 s

/-- Settles O27: a success writes its OUT_LEN bytes, an early error none, and a late one bytes of DST. -/
theorem commandsKeepTheOtherBytes : Obligations.CommandsKeepTheOtherBytes := by
  intro i s t h
  refine ⟨fun herr a ha => ?_, fun ⟨k, hk⟩ => ?_, fun a ha => ?_⟩
  · obtain ⟨out, info, -, hfit, rfl⟩ := exec_success h herr
    rw [State.succeed_outLen, BitVec.toNat_ofNat, Nat.mod_eq_of_lt (hfit.trans_lt s.dstCap.isLt)] at ha
    exact Memory.readByte_write_outside ha
  · obtain ⟨-, ⟨e, -, rfl⟩ | ⟨hnone, -⟩⟩ := exec_next h
    · rfl
    · rw [hnone] at hk
      cases hk
  · obtain ⟨-, ⟨e, -, rfl⟩ | ⟨-, rfl⟩⟩ := exec_next h
    · rfl
    · exact State.finish_readByte_outside _ ((s.dst.holds_eq_false_iff a).2 ha)

/-- Settles O30: the start writes every part of the working state, and no result, MODE or engine reads what it finds. -/
theorem workingStateIsNeverRead : Obligations.WorkingStateIsNeverRead := by
  refine ⟨fun s v hr he => ⟨_, hostWrite_cmd_idle hr he v, rfl, rfl, rfl, rfl, rfl, fun w => ?_⟩, fun i s t w h => ?_⟩
  · exact hostWrite_cmd_idle (s := { s with work := w }) hr he v
  · have hearly : ({ s with work := w } : State).earlyError (i.checks { s with work := w }) = s.earlyError (i.checks s) :=
      State.earlyError_congr s.sameParams_refl i
    obtain ⟨hb, ⟨k, hk, rfl⟩ | ⟨hnone, rfl⟩⟩ := exec_next h
    · refine ⟨w, exec_early (s := { s with work := w }) hb (hearly.trans hk), fun hnone => ?_⟩
      rw [hnone] at hk
      cases hk
    · have hready : ({ s with work := w } : State).ready i := ⟨hb, hearly.trans hnone⟩
      have hres : (i.transform { s with work := w }).result = (i.transform s).result :=
        Instr_transform_result_congr s.sameParams_refl rfl fun _ => rfl
      have hmode : (i.transform { s with work := w }).mode = (i.transform s).mode := Instr_transform_mode_congr i rfl
      refine ⟨(i.transform { s with work := w }).work, ?_, fun _ => ?_⟩
      · rw [exec_ready hready, State.finish_setWork s w hres hmode]
      · rw [State.finish_work]
        refine ⟨?_, ?_, ?_⟩
        · rintro (rfl | rfl) <;> exact ⟨rfl, rfl⟩
        · rintro rfl
          exact Work.afterParse_decoder ..
        · rintro (rfl | rfl | rfl)
          · exact Work.afterQuantize_block ..
          · rfl
          · exact Work.afterQuantize_block ..

/-- Settles O58: DECODE notes the first source byte, and an early error notes nothing. -/
theorem decodeRecordsTheModeByte : Obligations.DecodeRecordsTheModeByte := by
  intro s t h
  obtain ⟨-, ⟨e, he, rfl⟩ | ⟨hnone, rfl⟩⟩ := exec_next h
  · rw [he]
    refine ⟨nofun, fun k hk => ?_⟩
    cases hk
    exact ⟨rfl, rfl⟩
  · rw [hnone]
    refine ⟨fun _ => ?_, nofun⟩
    rw [State.finish_mode, ← State.srcBytes_headD]
    rfl

end Sys2Proof
end

section
/-! PROOFS. The commands that succeed (40_common.md R165, R166): the exact state each leaves when its result fits (41_bitpack.md
R191, R193, 42_lzw.md R217, R226, 43_block.md R260, R266, 44_container.md R292, R293, R300). -/

namespace Sys2Proof.Machine

/-! ### A completion whose result fits -/

/-- The whole state a success leaves, with OUT_LEN written as the length a rule gives it. -/
theorem exec_succeeds {i : Instr} {s : State} {out : List Byte} {info : Info} {n : Nat} (hready : s.ready i)
    (hok : (i.transform s).result = .ok (out, info)) (hlen : out.length = n) (hfit : n ≤ s.dstCap.toNat) :
    exec i s = .next { s with
      mem := s.mem.write s.dstAddr.toNat out, outLen := BitVec.ofNat 32 n
      outW := infoReg info.outW s.outW, outH := infoReg info.outH s.outH
      codeCount := infoReg info.codeCount s.codeCount, dictSize := infoReg info.dictSize s.dictSize
      mode := (i.transform s).mode.getD s.mode, work := (i.transform s).work
      progress := s.srcLen, err := none, done := true, eng := .idle } := by
  subst hlen
  rw [exec_ready hready, State.finish_ok hok hfit]
  rfl

/-- A command on images is ready when ranges, dimensions and the length it requires are in order (R162 to R164). -/
theorem State.ready_image {s : State} {i : Instr} (hb : s.rangesBacked i.usesPal = true)
    (hr : s.rangesOk i.usesPal = true) (hw : s.imgW.toNat ≤ 65535) (hh : s.imgH.toNat ≤ 65535)
    (hlen : ∀ n, i.requiredLen s = some n → s.srcLen.toNat = n) : s.ready i :=
  ⟨hb, (State.earlyError_none_iff ..).2 ⟨hr, fun _ => s.dimsOk_iff.2 ⟨hw, hh⟩, fun n hn => (hlen n hn).symm⟩⟩

/-! ### The results of the transforms -/

theorem packTransform_bits {s : State} (h : ∀ x ∈ s.srcBytes, x = 0 ∨ x = 1) :
    (packTransform s).result = .ok (pack (s.srcBytes.map fun x => decide (x = 1)), {}) := by
  have hnone : ¬ (s.srcBytes.any fun x => decide (1 < x.toNat)) = true := by
    rw [List.any_eq_true]
    rintro ⟨x, hx, hlt⟩
    rcases h x hx with rfl | rfl <;> exact absurd hlt (by decide)
  exact if_neg hnone

/-- A source byte that is no bit is a late INVALID_OPERAND (R191). -/
theorem packTransform_notBit {s : State} {x : Byte} (hx : x ∈ s.srcBytes) (h0 : x ≠ 0) (h1 : x ≠ 1) :
    (packTransform s).result = .error .invalidOperand := by
  refine if_pos (List.any_eq_true.2 ⟨x, hx, decide_eq_true ?_⟩)
  have h0' : x.toNat ≠ 0 := BitVec.toNat_ne_iff_ne.2 h0
  have h1' : x.toNat ≠ 1 := BitVec.toNat_ne_iff_ne.2 h1
  omega

/-- The number of bits UNPACK writes (R193). -/
theorem unpackTransform_length (s : State) (lim : Bool) :
    ((unpack s.srcBytes (if lim then some s.limit.toNat else none)).map bitByte).length =
      if lim then min s.limit.toNat (8 * s.srcLen.toNat) else 8 * s.srcLen.toNat := by
  rw [List.length_map]
  cases lim with
  | true =>
    rw [if_pos rfl, if_pos rfl, unpack_some_length, State.srcBytes_length]
  | false =>
    rw [if_neg Bool.false_ne_true, if_neg Bool.false_ne_true, unpack_none_length, State.srcBytes_length]

theorem Work.afterParse_ok {s : List Byte} {codes : List Nat} (h : parseCodes s = .ok codes) (wk : Work) :
    wk.afterParse s = wk.afterDecode codes := by
  rw [Work.afterParse, h]

/-- A code list that decodes leaves the size its length gives, in the form of R223. -/
theorem lzwDecode_size_add {codes : List Nat} {out : List Byte} {size : Nat} (h : lzwDecode codes = .ok (out, size)) :
    size = min 4096 (256 + codes.length - 1) := by
  obtain ⟨d, hrun, -, -⟩ := lzwDecode_ok h
  obtain ⟨k, ks, rfl, -, -⟩ := Dec.run_ok_cases hrun
  exact lzwDecode_size h

theorem lzwDecTransform_ok {s : State} {out : List Byte} {n size : Nat}
    (h : decodeCodeStream s.srcBytes = .ok (out, n, size)) :
    (lzwDecTransform s).result = .ok (out, { codeCount := some n, dictSize := some size }) := by
  simp only [lzwDecTransform, h]

theorem blkReconTransform_ok {s : State} {img : List Byte}
    (h : reconstruct s.srcBytes s.imgW.toNat s.imgH.toNat s.block.toNat = .ok img) :
    (blkReconTransform s).result = .ok (img, {}) := by
  simp only [blkReconTransform, h]

/-- The frame of R290, byte by byte up to the palette. -/
theorem frameLossless_eq (w h : Nat) (pal : List Byte) (codes : List Nat) : frameLossless w h pal codes =
    [0, BitVec.ofNat 8 (w / 256), BitVec.ofNat 8 (w % 256), BitVec.ofNat 8 (h / 256), BitVec.ofNat 8 (h % 256)] ++ pal ++
      codesToBytes codes := rfl

/-! ### DECODE by the mode byte (44_container.md R294, R300) -/

theorem eq_cons_of_headD {s : List Byte} {m : Byte} (hlen : 0 < s.length) (h : s.headD 0 = m) : ∃ r, s = m :: r := by
  obtain ⟨x, r, rfl⟩ := List.exists_cons_of_length_pos hlen
  exact ⟨r, congrArg (· :: r) h⟩

theorem decodeStream_of_mode_lossless {s : List Byte} (hlen : 773 ≤ s.length) (h : s.headD 0 = 0) :
    decodeStream s = decodeLossless s := by
  obtain ⟨r, rfl⟩ := eq_cons_of_headD (by omega) h
  exact decodeStream_lossless r

theorem Work.afterStream_lossless {s : List Byte} (hlen : 773 ≤ s.length) (h : s.headD 0 = 0) (wk : Work) :
    wk.afterStream s = wk.afterParse (s.drop 773) := by
  obtain ⟨r, rfl⟩ := eq_cons_of_headD (by omega) h
  exact if_neg (Nat.not_lt.2 hlen)

theorem decodeStream_of_mode_lossy {s : List Byte} (hlen : 6 ≤ s.length) (h : s.headD 0 = 4) :
    decodeStream s = decodeLossy s := by
  obtain ⟨r, rfl⟩ := eq_cons_of_headD (by omega) h
  exact decodeStream_lossy r

theorem Work.afterStream_lossy {s : List Byte} (hlen : 6 ≤ s.length) (h : s.headD 0 = 4) (wk : Work) :
    wk.afterStream s = wk.afterReconstruct (s.drop 6) (rd16 s 1) (rd16 s 3) (s.getD 5 0).toNat := by
  obtain ⟨r, rfl⟩ := eq_cons_of_headD (by omega) h
  exact if_neg (Nat.not_lt.2 hlen)

/-- The palette stands behind the five header bytes (30_encoding.md R121). -/
theorem streamPalette_getD (s : List Byte) {k : Nat} (hk : k < 768) : (streamPalette s).getD k 0 = s.getD (5 + k) 0 := by
  rw [streamPalette, List.getD_eq_getElem?_getD, List.getElem?_take_of_lt hk, List.getElem?_drop,
    List.getD_eq_getElem?_getD]

/-- An index's colour is read from the stream's own palette bytes (R296). -/
theorem recolor_streamPalette (idx s : List Byte) : recolor idx (streamPalette s) = idx.flatMap fun i =>
    [s.getD (5 + 3 * i.toNat) 0, s.getD (5 + 3 * i.toNat + 1) 0, s.getD (5 + 3 * i.toNat + 2) 0] := by
  refine List.flatMap_congr fun i _ => ?_
  have hi := i.isLt
  rw [rgbAt, streamPalette_getD s (by omega), streamPalette_getD s (by omega), streamPalette_getD s (by omega)]
  rfl

/-- The whole state a successful DECODE leaves. -/
theorem exec_decode_succeeds {s : State} {out : List Byte} {info : Info} (hb : s.rangesBacked false = true)
    (hr : s.rangesOk false = true) (hok : decodeStream s.srcBytes = .ok (out, info))
    (hfit : 3 * rd16 s.srcBytes 1 * rd16 s.srcBytes 3 ≤ s.dstCap.toNat) :
    exec .decode s = .next { s.succeed out info with
      outLen := BitVec.ofNat 32 (3 * rd16 s.srcBytes 1 * rd16 s.srcBytes 3)
      mode := s.srcBytes.headD 0, work := s.work.afterStream s.srcBytes } :=
  exec_succeeds (State.ready_plain rfl rfl hb hr) hok (decodeStream_ok_length hok) hfit

end Sys2Proof.Machine

/-! The statements about successful completions. -/

namespace Sys2Proof

open Sys2Proof.Machine

/-- Settles O35: bytes that are bits pack into their result; another byte is the transform's own error. -/
theorem packCompletes : Obligations.PackCompletes := by
  refine ⟨fun s hb hr hbits hfit => ?_, fun s hb hr ⟨x, hx, h0, h1⟩ => ?_⟩
  · have hlen : (pack (s.srcBytes.map fun x => decide (x = 1))).length = ceilDiv s.srcLen.toNat 8 := by
      rw [pack_length, List.length_map, State.srcBytes_length]
    exact exec_succeeds (i := .pack) (State.ready_plain rfl rfl hb hr) (packTransform_bits hbits) hlen hfit
  · have hready : s.ready .pack := State.ready_plain rfl rfl hb hr
    have hlate := State.finish_error (s := s) (packTransform_notBit hx h0 h1)
    exact ⟨_, (exec_ready hready).trans (congrArg _ hlate), rfl, rfl, rfl, rfl⟩

/-- Settles O36: UNPACK has no error of its own, and its length is the number of bits after the limit's cut. -/
theorem unpackCompletes : Obligations.UnpackCompletes := by
  intro s lim hb hr hfit
  exact exec_succeeds (i := .unpack lim) (State.ready_plain rfl rfl hb hr) rfl (unpackTransform_length s lim) hfit

/-- Settles O40: two bytes for each code. -/
theorem lzwEncCompletes : Obligations.LzwEncCompletes := by
  intro s hb hr hfit
  exact exec_succeeds (i := .lzwEnc) (State.ready_plain rfl rfl hb hr) rfl (codesToBytes_length _) hfit

/-- Settles O41: the code count is half the source length, and the size is the one the count gives. -/
theorem lzwDecCompletes : Obligations.LzwDecCompletes := by
  intro s codes out size hb hr hparse hdecode hfit
  have hcount : codes.length = s.srcLen.toNat / 2 := by rw [parseCodes_ok_length hparse, State.srcBytes_length]
  have hsize := lzwDecode_size_add hdecode
  rw [← Work.afterParse_ok hparse, ← hcount, ← hsize]
  exact exec_succeeds (i := .lzwDec) (State.ready_plain rfl rfl hb hr)
    (lzwDecTransform_ok (decodeCodeStream_ok hparse hdecode)) rfl hfit

/-- Settles O51: the dimensions and the length are the early checks, and the records have the lengths of the grid's blocks. -/
theorem blkQuantCompletes : Obligations.BlkQuantCompletes := by
  intro s hb hr hw hh hlen hfit
  have hready : s.ready .blkQuant := State.ready_image hb hr hw hh fun n hn => hlen.trans (Option.some.inj hn)
  exact exec_succeeds hready rfl (quantize_length ..) hfit

/-- Settles O52: a payload that reconstructs gives three bytes for each pixel. -/
theorem blkReconCompletes : Obligations.BlkReconCompletes := by
  intro s img hb hr hw hh himg hfit
  have hready : s.ready .blkRecon := State.ready_image hb hr hw hh nofun
  exact exec_succeeds hready (blkReconTransform_ok himg) (reconstruct_ok_length himg) hfit

/-- Settles O53: the frame of R290 is the five header bytes, the palette and the codes. -/
theorem encLosslessCompletes : Obligations.EncLosslessCompletes := by
  intro s hb hr hw hh hlen hfit
  have hready : s.ready .encLossless := State.ready_image hb hr hw hh fun n hn => hlen.trans (Option.some.inj hn)
  have hpal : s.palBytes.length = 768 := Memory.read_length ..
  have hframe : (frameLossless s.imgW.toNat s.imgH.toNat s.palBytes (lzwEncode s.srcBytes).1).length =
      773 + 2 * (lzwEncode s.srcBytes).1.length := by
    rw [frameLossless_length, hpal]
  have hok : (Instr.encLossless.transform s).result =
      .ok (frameLossless s.imgW.toNat s.imgH.toNat s.palBytes (lzwEncode s.srcBytes).1, _) := rfl
  rw [frameLossless_eq] at hok hframe
  exact exec_succeeds hready hok hframe hfit

/-- Settles O54: the frame of R291 is the six header bytes and the records. -/
theorem encLossyCompletes : Obligations.EncLossyCompletes := by
  intro s hb hr hw hh hlen hfit
  have hready : s.ready .encLossy := State.ready_image hb hr hw hh fun n hn => hlen.trans (Option.some.inj hn)
  exact exec_succeeds hready rfl (frameLossy_length ..) hfit

/-- Settles O55: the mode byte selects the lossless parser, whose indices are recoloured from the stream's palette. -/
theorem decodeLosslessCompletes : Obligations.DecodeLosslessCompletes := by
  intro s idx n size hb hr hlen hmode hcodes hcount hfit
  have hhdr : 773 ≤ s.srcBytes.length := s.srcBytes_length.symm ▸ hlen
  have hok := (decodeStream_of_mode_lossless hhdr hmode).trans (decodeLossless_of_indices hhdr hcodes hcount)
  rw [hcount, ← Nat.mul_assoc] at hfit
  have hexec := exec_decode_succeeds hb hr hok hfit
  rw [hmode, Work.afterStream_lossless hhdr hmode, recolor_streamPalette] at hexec
  exact hexec

/-- Settles O56: the mode byte selects the lossy parser. -/
theorem decodeLossyCompletes : Obligations.DecodeLossyCompletes := by
  intro s rgb hb hr hlen hmode himg hfit
  have hhdr : 6 ≤ s.srcBytes.length := s.srcBytes_length.symm ▸ hlen
  have hok := (decodeStream_of_mode_lossy hhdr hmode).trans (decodeLossy_of_image hhdr himg)
  have hexec := exec_decode_succeeds hb hr hok hfit
  rw [hmode, Work.afterStream_lossy hhdr hmode] at hexec
  exact hexec

end Sys2Proof
end

section
/-! PROOFS. The streams and codes the decoder rejects (42_lzw.md R220 to R222), the partition of an image by its blocks
(43_block.md R250, R251, R253, R264), and the colours any records give their blocks (R261, R262). -/

namespace Sys2Proof.Machine

/-! ### Decoding code after code (R221, R222) -/

/-- A decode that accepted all its codes runs on from where it stands. -/
theorem Dec.run_append {ks : List Nat} {d : Dec} (h : Dec.run ks = (d, none)) (ks' : List Nat) :
    Dec.run (ks ++ ks') = Dec.loop d ks' := by
  obtain ⟨k, ks, rfl, hbyte, hloop⟩ := Dec.run_ok_cases h
  rw [List.cons_append, Dec.run_cons_byte hbyte, Dec.loop_append hloop]

theorem Dec.run_ok_inv {ks : List Nat} {d : Dec} (h : Dec.run ks = (d, none)) : d.Inv := by
  obtain ⟨k, ks, rfl, hbyte, hloop⟩ := Dec.run_ok_cases h
  have hinv := (Dec.first_inv hbyte).loop ks
  rwa [hloop] at hinv

/-- A code below the size, or equal to it below the cap, is taken and adds at least one byte. -/
theorem Dec.Inv.entry_valid {d : Dec} (h : d.Inv) {k : Nat}
    (hk : k < d.dict.length ∨ (k = d.dict.length ∧ d.dict.length < 4096)) : ∃ e, d.entry k = some e ∧ e ≠ [] := by
  rcases hk with hlt | ⟨rfl, hroom⟩
  · exact ⟨_, Dec.entry_known hlt, h.built.ne_nil_of_mem (Dict.getD_mem hlt)⟩
  · exact ⟨_, Dec.entry_selfRef hroom, List.append_ne_nil_of_left_ne_nil h.previous_ne_nil _⟩

theorem lzwDecode_of_bad_run {ks : List Nat} {d : Dec} {k : ErrorKind} (h : Dec.run ks = (d, some k)) :
    lzwDecode ks = .error k := by
  rw [lzwDecode, h]

/-- The first code's output is its byte. -/
theorem Dec.first_out {k : Nat} (h : k < 256) : (Dec.first k).out = [BitVec.ofNat 8 k] := by
  show Dict.init.getD k [] = _
  rw [List.getD_eq_getElem?_getD, Dict.init_getElem? h, Option.getD_some]

/-! ### The blocks of the grid (R250, R251, R253) -/

/-- A block of the grid starts inside the image. -/
theorem grid_starts_inside {w h b : Nat} (hb : 0 < b) {g : Nat × Nat} (hg : g ∈ grid w h b) : g.1 * b < h ∧ g.2 * b < w := by
  rw [← lt_ceilDiv hb, ← lt_ceilDiv hb]
  exact mem_grid.1 hg

/-- The extent of a block along one side: `q` blocks of edge `b` before it, cut at the image's side `n`. -/
theorem block_extent_bounds {q b n : Nat} (hb : 0 < b) (hq : q * b < n) :
    1 ≤ min ((q + 1) * b) n - q * b ∧ min ((q + 1) * b) n - q * b ≤ b := by
  rw [Nat.succ_mul]
  omega

/-- The place `x` below `n` lies in block `x / b` along its side. -/
theorem mem_block_extent {x b n : Nat} (hb : 0 < b) (hx : x < n) : x / b * b ≤ x ∧ x < min ((x / b + 1) * b) n :=
  ⟨Nat.div_mul_le_self x b, lt_min (Nat.lt_mul_of_div_lt (Nat.lt_succ_self _) hb) hx⟩

/-- Every place in a block's columns and rows is one of its pixels (R253). -/
theorem Rect.exists_pixel {r : Rect} {x y : Nat} (hx0 : r.x0 ≤ x) (hx1 : x < r.x1) (hy0 : r.y0 ≤ y) (hy1 : y < r.y1) :
    ∃ t, t < r.count ∧ r.pixel t = (x, y) := by
  have hcol : x - r.x0 < r.width := Nat.sub_lt_sub_right hx0 hx1
  have hrow : y - r.y0 < r.height := Nat.sub_lt_sub_right hy0 hy1
  have hwidth : 0 < r.width := Nat.zero_lt_of_lt hcol
  have hmod : (x - r.x0 + r.width * (y - r.y0)) % r.width = x - r.x0 := by
    rw [Nat.add_mul_mod_self_left, Nat.mod_eq_of_lt hcol]
  have hdiv : (x - r.x0 + r.width * (y - r.y0)) / r.width = y - r.y0 := by
    rw [Nat.add_mul_div_left _ _ hwidth, Nat.div_eq_of_lt hcol, Nat.zero_add]
  refine ⟨x - r.x0 + r.width * (y - r.y0), ?_, ?_⟩
  · calc x - r.x0 + r.width * (y - r.y0) < r.width + r.width * (y - r.y0) := Nat.add_lt_add_right hcol _
      _ = r.width * (y - r.y0 + 1) := by rw [Nat.mul_succ, Nat.add_comm]
      _ ≤ r.count := Nat.mul_le_mul_left _ hrow
  · rw [Rect.pixel, hmod, hdiv, Nat.add_sub_cancel' hx0, Nat.add_sub_cancel' hy0]

/-- Every pixel of the image is a pixel of a block of the grid (R264). -/
theorem exists_block_of_pixel {w h b : Nat} (hb : 0 < b) {x y : Nat} (hx : x < w) (hy : y < h) :
    ∃ g ∈ grid w h b, ∃ t, t < (blockRect w h b g).count ∧ (blockRect w h b g).pixel t = (x, y) := by
  obtain ⟨hx0, hx1⟩ := mem_block_extent hb hx
  obtain ⟨hy0, hy1⟩ := mem_block_extent hb hy
  refine ⟨(y / b, x / b), mem_grid.2 ⟨(lt_ceilDiv hb).2 (hy0.trans_lt hy), (lt_ceilDiv hb).2 (hx0.trans_lt hx)⟩, ?_⟩
  exact Rect.exists_pixel (r := blockRect w h b (y / b, x / b)) hx0 hx1 hy0 hy1

/-! ### Records for the blocks of the grid (R262) -/

/-- A record's colour for pixel `t`, read from its bytes: mask bit `t` stands in byte 6 + t / 8, bit 7 first. -/
theorem recordColour_bytes (r : List Byte) {pc t : Nat} (ht : t < pc) : recordColour r pc t =
    if (r.getD (6 + t / 8) 0).getLsbD (7 - t % 8) then ⟨r.getD 3 0, r.getD 4 0, r.getD 5 0⟩
    else ⟨r.getD 0 0, r.getD 1 0, r.getD 2 0⟩ := by
  have hbit : (recordMask r pc).getD t false = (r.getD (6 + t / 8) 0).getLsbD (7 - t % 8) := by
    have hplace := unpack_none_getD (r.drop 6) (t / 8) (Nat.mod_lt t (by decide : 0 < 8))
    rw [Nat.div_add_mod] at hplace
    rw [recordMask, unpack_some_getD _ ht, hplace, List.getD_eq_getElem?_getD, List.getElem?_drop,
      List.getD_eq_getElem?_getD]
  rw [recordColour, hbit]
  rfl

section RecordsOfTheGrid

variable {w h b : Nat} {recs : List (List Byte)}
  (hrecs : recs.map List.length = (grid w h b).map fun g => (blockRect w h b g).recordLen)

include hrecs

theorem length_records : recs.length = (grid w h b).length := by
  have hlen := congrArg List.length hrecs
  rwa [List.length_map, List.length_map] at hlen

theorem zip_records_blocks : ((grid w h b).zip recs).map Prod.fst = grid w h b :=
  List.map_fst_zip (length_records hrecs).ge

theorem zip_records_payload : ((grid w h b).zip recs).flatMap Prod.snd = recs.flatten := by
  rw [List.flatMap_def, List.map_snd_zip (length_records hrecs).le]

/-- Each block of the grid meets a record of its own length. -/
theorem zip_records_recordLen {job : (Nat × Nat) × List Byte} (hjob : job ∈ (grid w h b).zip recs) :
    job.2.length = (blockRect w h b job.1).recordLen := by
  obtain ⟨j, hj⟩ := List.mem_iff_getElem?.1 hjob
  obtain ⟨hg, hr⟩ := List.getElem?_zip_eq_some.1 hj
  have hat := congrArg (·[j]?) hrecs
  simp only [List.getElem?_map, hg, hr, Option.map_some] at hat
  exact Option.some.inj hat

theorem Recon.run_records_error (hb : b ≠ 0) : (Recon.run recs.flatten w h b).2 = none := by
  rw [Recon.run_error hb, List.length_flatten, hrecs]
  exact payloadError_self _

theorem Recon.run_records_img (hb : b ≠ 0) : (Recon.run recs.flatten w h b).1.img =
    decodeRecords w h b ((grid w h b).zip recs) (List.replicate (3 * w * h) 0) := by
  have hloop := Recon.loop_records (jobs := (grid w h b).zip recs) (fun _ => zip_records_recordLen hrecs)
    { img := List.replicate (3 * w * h) 0, block := BlockWork.initial }
  rw [zip_records_blocks hrecs, zip_records_payload hrecs] at hloop
  rw [Recon.run_of_edge hb, hloop]

end RecordsOfTheGrid

end Sys2Proof.Machine

/-! The statements about rejected streams, the partition and the records. -/

namespace Sys2Proof

open Sys2Proof.Machine

/-- Settles O42: a parse is a matter of the length; each later code is an entry of the decoder's dictionary, the next one's,
or invalid. -/
theorem decoderRejectsBadStreams : Obligations.DecoderRejectsBadStreams := by
  refine ⟨fun s => ⟨parseCodes_bad, fun h0 heven => ⟨_, parseCodes_even h0 heven, ?_, fun j hj => ?_⟩⟩,
    fun k ks hk => lzwDecode_of_bad_run (Dec.run_cons_notByte hk ks), fun k hk => ?_, fun ks k out size hdecode => ?_⟩
  · rw [List.length_map, List.length_range]
  · rw [List.getD_eq_getElem _ _ hj, List.getElem_map, List.getElem_range]
    rfl
  · have hrun : Dec.run [k] = (Dec.first k, none) := Dec.run_cons_byte hk []
    have hsize : (Dec.first k).dict.length = 256 := Dict.init_length
    rw [lzwDecode_of_run hrun, Dec.first_out hk, hsize]
  · obtain ⟨d, hrun, rfl, rfl⟩ := lzwDecode_ok hdecode
    refine ⟨fun hbad more => ?_, fun hgood => ?_⟩
    · have hinvalid : d.entry k = none := Dec.entry_invalid (by omega)
      exact lzwDecode_of_bad_run ((Dec.run_append hrun _).trans (Dec.loop_cons_none hinvalid more))
    · have hinv := Dec.run_ok_inv hrun
      obtain ⟨e, he, hne⟩ := hinv.entry_valid hgood
      exact ⟨e, _, lzwDecode_of_run (Dec.run_snoc hrun he), hne, Dict.insert_length _ _ hinv.built.length_bounds.2⟩

/-- Settles O45: each pixel lies in the block found by dividing its place by the edge, and in no other. -/
theorem gridPartitionsTheImage : Obligations.GridPartitionsTheImage := by
  refine fun w h b hb => ⟨grid_nodup w h b, fun g hg => ?_, fun x y hx hy => ?_⟩
  · obtain ⟨hrow, hcol⟩ := grid_starts_inside hb hg
    obtain ⟨hwidth, hwidth'⟩ := block_extent_bounds hb hcol
    obtain ⟨hheight, hheight'⟩ := block_extent_bounds hb hrow
    exact ⟨hwidth, hwidth', hheight, hheight', fun t ht => blockRect_pixel_lt ht⟩
  · obtain ⟨g, hg, t, ht, hpixel⟩ := exists_block_of_pixel hb hx hy
    exact ⟨g, hg, t, ht, hpixel, fun g' _ t' ht' hpixel' => blockRect_pixel_inj ht' ht (hpixel'.trans hpixel.symm)⟩

/-- Settles O48: the payload is cut into the given records, and each block keeps the colours of its own. -/
theorem recordsColourTheirBlocks : Obligations.RecordsColourTheirBlocks := by
  intro w h b recs hb hrecs
  refine ⟨_, reconstruct_of_no_error (Recon.run_records_error hrecs hb), fun j g r hg hr t ht => ?_⟩
  have hjob : (g, r) ∈ (grid w h b).zip recs := List.mem_of_getElem? (List.getElem?_zip_eq_some.2 ⟨hg, hr⟩)
  have hnd : (((grid w h b).zip recs).map Prod.fst).Nodup := (zip_records_blocks hrecs).symm ▸ grid_nodup w h b
  rw [Recon.run_records_img hrecs hb, decodeRecords_rgbAt hnd List.length_replicate hjob ht]
  exact recordColour_bytes r ht

end Sys2Proof
end
